-- ==== Sys2Proof/Word.lean ====
section
/-! DEFINITION. The word types of the decode core: each is a width that 10_state.md rule R22 or a port of rule R29 gives. -/

namespace Sys2Proof

/-- One bit of the capture (40_bit_addressing.md rule R110). -/
abbrev Bit := BitVec 1

/-- One byte of the capture or of the packet (rules R30, R60). -/
abbrev Byte := BitVec 8

/-- A bit offset into the capture: an index in `[0, blen]`, 11 bits wide (rules R22, R27). -/
abbrev BitOffset := BitVec 11

/-- The bits of one IEEE 754 binary64 number (rules R31, R95). -/
abbrev F64 := BitVec 64

end Sys2Proof
end

