-- ==== Sys2Proof/Config.lean ====
section
/-! DEFINITION. The fixed constants of 00_scope.md rule R6 and the one open parameter, `K_NEG1` (rule R7). -/

namespace Sys2Proof

/-- `CAPACITY`: bytes in the capture buffer (rule R6). -/
@[simp] abbrev Config.capacity : Nat := 128

/-- `MAX_BITS`: `CAPACITY * 8` (rule R6). -/
@[simp] abbrev Config.maxBits : Nat := 1024

/-- `PRE_PATTERN`: the quad 1,1,0,0, the first bit most significant (rules R6, R83). -/
@[simp] abbrev Config.prePattern : BitVec 4 := 0b1100#4

/-- `PRE_QUAD`: bits of one preamble repetition and of one walk step (rule R6). -/
@[simp] abbrev Config.preQuad : Nat := 4

/-- `PRE_MIN_QUALITY`: consecutive matching quads needed (rule R6). -/
@[simp] abbrev Config.preMinQuality : Nat := 8

/-- `PRE_MIN_BITS`: bits that must remain at a candidate start (rule R6). -/
@[simp] abbrev Config.preMinBits : Nat := 32

/-- `SYNC_MARKER`: the sync marker (rules R6, R84). -/
@[simp] abbrev Config.syncMarker : BitVec 16 := 0xFFFF#16

/-- `SYNC_BITS`: width of the marker and of the window (rule R6). -/
@[simp] abbrev Config.syncBits : Nat := 16

/-- `PKT_BYTES`: packet size in bytes (rule R6). -/
@[simp] abbrev Config.pktBytes : Nat := 8

/-- `PKT_BITS`: packet size in bits, the symbols to demodulate (rule R6). -/
@[simp] abbrev Config.pktBits : Nat := 64

/-- `CSUM_BYTES`: packet bytes summed, bytes 0 to 6 (rule R6). -/
@[simp] abbrev Config.csumBytes : Nat := 7

/-- `SCALE_KW`, the decimal 0.4799, as the fraction 4799/10000: its numerator (rule R6). -/
@[simp] abbrev Config.scaleNum : Nat := 4799

/-- `SCALE_KW`, the decimal 0.4799, as the fraction 4799/10000: its denominator (rule R6). -/
@[simp] abbrev Config.scaleDen : Nat := 10000

/-- `MANT_DIV`: divisor of the mantissa (rule R6). -/
@[simp] abbrev Config.mantDiv : Nat := 65536

/-- The free value behind `K_NEG1`: a natural number that nothing determines (rules R7, R190). DESIGN CHOICE, safe: no
proof can see its value (assumption log 1). -/
opaque Config.kNeg1Free : Nat

/-- `K_NEG1`: the integer factor when packet byte 6 is 0, a natural number with `0 <= K_NEG1 <= 2^1023` (rules R7, R190).
Every admitted value is taken for some value of the free constant, and no other value is. -/
def Config.kNeg1 : Nat := min Config.kNeg1Free (2 ^ 1023)

end Sys2Proof
end

