-- ==== Sys2Proof/Syntax.lean ====
section
/-! DEFINITION. The operations of the decode core, whole: one constructor for every row of spec/opcode_table.json, and the three
formats of 30_encoding.md rule R81. -/

namespace Sys2Proof

/-- The three formats of rules R80 and R81: the host's command, the sequencing state, the argument of BITAT. -/
inductive Format where
  /-- CALL, 9 bits: `start` in bit 8, `read_bytes` in bits 7:0. -/
  | call
  /-- STAGE, 6 bits: `stage` in bits 5:3, `sub` in bits 2:0. -/
  | stage
  /-- BITIDX, 10 bits: the byte address `a` in bits 9:3, the bit `j` in the byte in bits 2:0. -/
  | bitIdx
  deriving DecidableEq, Repr

/-- The eight stages of the orchestrator (rules R25, R90). -/
inductive Stage where
  | idle
  | start
  | preambleFound
  | syncFound
  | symbolsDemodulated
  | checksumVerified
  | done
  | failed
  deriving DecidableEq, Repr

/-- The operations (rule R80 and the ten rows of spec/opcode_table.json). An operation of format STAGE carries the sub-state
whose micro-step it runs (rule R91). -/
inductive Instr where
  /-- `DECODE n`: the host's command to begin a call over `readBytes` bytes (rules R205, R209). -/
  | decode (readBytes : BitVec 8)
  /-- `BITAT i`: the capture bit at bit index `8a + j` (rule R110). -/
  | bitat (a : BitVec 7) (j : BitVec 3)
  /-- `HOLD.IDLE`: stage Idle without a command (rule R212). -/
  | holdIdle (sub : BitVec 3)
  /-- `PREAMBLE`: one micro-step of the Preamble Locator (rules R126 to R128). -/
  | preamble (sub : BitVec 3)
  /-- `SYNC`: one micro-step of the Sync Locator (rules R144, R145). -/
  | sync (sub : BitVec 3)
  /-- `DEMOD`: one micro-step of the Symbol Demodulator (rules R161 to R165). -/
  | demod (sub : BitVec 3)
  /-- `CHECKSUM`: one micro-step of the Checksum Validator (rules R176 to R178). -/
  | checksum (sub : BitVec 3)
  /-- `VALUE`: the one micro-step of the Value Decoder (rule R196). -/
  | value (sub : BitVec 3)
  /-- `HOLD.DONE`: stage Done without a command (rule R212). -/
  | holdDone (sub : BitVec 3)
  /-- `HOLD.FAILED`: stage Failed without a command (rule R212). -/
  | holdFailed (sub : BitVec 3)
  deriving DecidableEq, Repr

end Sys2Proof
end

