-- ==== Sys2Proof/WellFormed.lean ====
section
/-! DEFINITION. Which operations are encodings the spec lists: the (stage, sub) pairs of 30_encoding.md rule R91. -/

namespace Sys2Proof

/-- An operation is well formed when its sub-state is one that rule R91 lists for its stage. Every value of the fields of
DECODE and BITAT is an encoding (rule R92 (c), (e)). -/
def Instr.wf : Instr → Bool
  | .decode _ => true
  | .bitat _ _ => true
  | .holdIdle sub => decide (sub.toNat < 1)
  | .preamble sub => decide (sub.toNat < 3)
  | .sync sub => decide (sub.toNat < 2)
  | .demod sub => decide (sub.toNat < 5)
  | .checksum sub => decide (sub.toNat < 3)
  | .value sub => decide (sub.toNat < 1)
  | .holdDone sub => decide (sub.toNat < 1)
  | .holdFailed sub => decide (sub.toNat < 1)

end Sys2Proof
end

