-- ==== Sys2Proof/Decode.lean ====
section
/-! DEFINITION. The three formats as bits: the decoder, total on any word and on any bytes and rejecting by name, and after it
the encoder, both written from 30_encoding.md rules R80, R81, R90 and R91. -/

namespace Sys2Proof

/-- Why a word is no operation. -/
inductive Reject where
  /-- A CALL word with `start = 0`: no operation (rule R92 (a)). -/
  | noStart
  /-- A STAGE word whose (stage, sub) pair rule R91 does not list (rule R92 (d)). -/
  | unlistedSubState
  /-- A word wider than its format, or bytes that hold no word of a format (rule R81). -/
  | notAWord
  deriving DecidableEq, Repr

/-- The code of a stage (rule R90). -/
def Stage.code : Stage → BitVec 3
  | .idle => 0b000#3
  | .start => 0b001#3
  | .preambleFound => 0b010#3
  | .syncFound => 0b011#3
  | .symbolsDemodulated => 0b100#3
  | .checksumVerified => 0b101#3
  | .done => 0b110#3
  | .failed => 0b111#3

/-- The stage that holds a code (rule R90: all eight codes are stages). -/
def Stage.ofCode (c : BitVec 3) : Stage :=
  match c.toNat with
  | 0 => .idle
  | 1 => .start
  | 2 => .preambleFound
  | 3 => .syncFound
  | 4 => .symbolsDemodulated
  | 5 => .checksumVerified
  | 6 => .done
  | _ => .failed

/-- How many sub-states rule R91 lists for a stage; their codes count up from 0. -/
def Stage.subStates : Stage → Nat
  | .idle => 1
  | .start => 3
  | .preambleFound => 2
  | .syncFound => 5
  | .symbolsDemodulated => 3
  | .checksumVerified => 1
  | .done => 1
  | .failed => 1

/-- A (stage, sub) pair is one that rule R91 lists. -/
def Stage.lists (g : Stage) (sub : BitVec 3) : Bool :=
  decide (sub.toNat < g.subStates)

/-- The operation that runs while `stage` holds a stage's code (rule R80, the last column of rule R90). -/
def Stage.operation : Stage → BitVec 3 → Instr
  | .idle, sub => .holdIdle sub
  | .start, sub => .preamble sub
  | .preambleFound, sub => .sync sub
  | .syncFound, sub => .demod sub
  | .symbolsDemodulated, sub => .checksum sub
  | .checksumVerified, sub => .value sub
  | .done, sub => .holdDone sub
  | .failed, sub => .holdFailed sub

/-- A word of format CALL: bit 8 is `start`, bits 7:0 are `read_bytes` (rule R81). -/
def decodeCall (w : BitVec 9) : Except Reject Instr :=
  if w.extractLsb' 8 1 = 1#1 then .ok (.decode (w.extractLsb' 0 8)) else .error .noStart

/-- A word of format STAGE: bits 5:3 are `stage`, bits 2:0 are `sub` (rule R81). -/
def decodeStage (w : BitVec 6) : Except Reject Instr :=
  let g := Stage.ofCode (w.extractLsb' 3 3)
  let sub := w.extractLsb' 0 3
  if g.lists sub then .ok (g.operation sub) else .error .unlistedSubState

/-- A word of format BITIDX: bits 9:3 are `a`, bits 2:0 are `j` (rule R81). -/
def decodeBitIdx (w : BitVec 10) : Except Reject Instr :=
  .ok (.bitat (w.extractLsb' 3 7) (w.extractLsb' 0 3))

/-- Width in bits of a format (rule R81). -/
def Format.width : Format → Nat
  | .call => 9
  | .stage => 6
  | .bitIdx => 10

/-- The operation that a word of a given format stands for. The format is known from where the word is presented (the command
port, the sequencing registers, the argument of BITAT): rule R80 gives the three formats no common opcode space. -/
def decode (f : Format) (w : Nat) : Except Reject Instr :=
  if w < 2 ^ f.width then
    match f with
    | .call => decodeCall (BitVec.ofNat 9 w)
    | .stage => decodeStage (BitVec.ofNat 6 w)
    | .bitIdx => decodeBitIdx (BitVec.ofNat 10 w)
  else .error .notAWord

/-- Which format a two-byte container holds (DESIGN CHOICE, safe, assumption log 4). The formats share no opcode space, so a
CALL word and a BITIDX word of two bytes are told apart by bits 9:8 alone: `01` is a CALL word with `start = 1`, anything else a
bit index. -/
def containerFormat (w : Nat) : Format :=
  if w / 256 = 1 then .call else .bitIdx

/-- The operation in a container of whole bytes, the least significant byte first (assumption log 4): one byte holds a STAGE
word, two bytes a CALL or a BITIDX word. -/
def decodeBytes (bs : List Byte) : Except Reject Instr :=
  match bs with
  | [b] => decode .stage b.toNat
  | [lo, hi] =>
    let w := hi.toNat * 256 + lo.toNat
    decode (containerFormat w) w
  | _ => .error .notAWord

/-- The instruction that the decoder reads from a table row's word. `nbits` is the row's width, 6, 9 or 10, or the same in
whole bytes, 8 or 16; the bytes are laid out least significant first (assumption log 4). -/
def decodeTableWord (nbits w : Nat) : Option Instr :=
  let r : Except Reject Instr :=
    match nbits with
    | 6 => decode .stage w
    | 9 => decode .call w
    | 10 => decode .bitIdx w
    | 8 => if w < 256 then decodeBytes [BitVec.ofNat 8 w] else .error .notAWord
    | 16 =>
      if w < 65536 then decodeBytes [BitVec.ofNat 8 w, BitVec.ofNat 8 (w / 256)] else .error .notAWord
    | _ => .error .notAWord
  match r with
  | .ok i => some i
  | .error _ => none

/-- The word of format CALL for a command (rule R81). -/
def encodeCall (start : Bit) (readBytes : BitVec 8) : BitVec 9 := start ++ readBytes

/-- The word of format STAGE for a stage and a sub-state (rule R81). -/
def encodeStage (g : Stage) (sub : BitVec 3) : BitVec 6 := g.code ++ sub

/-- The word of format BITIDX for a byte address and a bit in the byte (rule R81). -/
def encodeBitIdx (a : BitVec 7) (j : BitVec 3) : BitVec 10 := a ++ j

/-- The format and the word of an operation (rules R80, R81, R90). -/
def encode : Instr → Format × Nat
  | .decode n => (.call, (encodeCall 1#1 n).toNat)
  | .bitat a j => (.bitIdx, (encodeBitIdx a j).toNat)
  | .holdIdle sub => (.stage, (encodeStage .idle sub).toNat)
  | .preamble sub => (.stage, (encodeStage .start sub).toNat)
  | .sync sub => (.stage, (encodeStage .preambleFound sub).toNat)
  | .demod sub => (.stage, (encodeStage .syncFound sub).toNat)
  | .checksum sub => (.stage, (encodeStage .symbolsDemodulated sub).toNat)
  | .value sub => (.stage, (encodeStage .checksumVerified sub).toNat)
  | .holdDone sub => (.stage, (encodeStage .done sub).toNat)
  | .holdFailed sub => (.stage, (encodeStage .failed sub).toNat)

/-- One row of spec/opcode_table.json: its format, its mask and its match. -/
structure TableRow where
  format : Format
  mask : Nat
  bits : Nat
  deriving DecidableEq, Repr

/-- The row of spec/opcode_table.json that an operation belongs to (rule R80). -/
def Instr.row : Instr → TableRow
  | .decode _ => ⟨.call, 0x100, 0x100⟩
  | .bitat _ _ => ⟨.bitIdx, 0x000, 0x000⟩
  | .holdIdle _ => ⟨.stage, 0x38, 0x00⟩
  | .preamble _ => ⟨.stage, 0x38, 0x08⟩
  | .sync _ => ⟨.stage, 0x38, 0x10⟩
  | .demod _ => ⟨.stage, 0x38, 0x18⟩
  | .checksum _ => ⟨.stage, 0x38, 0x20⟩
  | .value _ => ⟨.stage, 0x38, 0x28⟩
  | .holdDone _ => ⟨.stage, 0x38, 0x30⟩
  | .holdFailed _ => ⟨.stage, 0x38, 0x38⟩

end Sys2Proof
end

