-- ==== Sys2Proof/Machine/State.lean ====
section
/-! DEFINITION. The state of the decode core as plain data: the host-driven inputs (10_state.md rule R21), the register file
(rule R22), the capture (20_memory.md rule R60), the reasons a step can stop, and the state right after reset (rule R36). -/

namespace Sys2Proof.Machine

/-- The five failure kinds (60_exceptions.md rule R230). The `err` codes 6 and 7, which no rule produces (rules R89, R92 (d)),
are not constructible. DEDUCED, safe (assumption log 12). -/
inductive ErrKind where
  /-- Code 1 (rule R231). -/
  | notEnoughData
  /-- Code 2 (rule R232). -/
  | preambleNotFound
  /-- Code 3 (rule R233). -/
  | syncNotFound
  /-- Code 4 (rule R234). -/
  | insufficientSymbols
  /-- Code 5 (rule R235). -/
  | checksumMismatch
  deriving DecidableEq, Repr

/-- The failures of a call as the document lists them, ChecksumMismatch with its two bytes (rules R230, R235). -/
inductive DecodeError where
  | notEnoughData
  | preambleNotFound
  | syncNotFound
  | insufficientSymbols
  | checksumMismatch (expected actual : Byte)
  deriving DecidableEq, Repr

/-- The outcome of a call: a DecodeResult or one DecodeError (rules R88, R205, R230). -/
inductive CallOutcome where
  /-- `Ok`: the power reading, the packet it came from, the preamble quality count. -/
  | ok (powerKw : F64) (packet : Vector Byte 8) (quality : Nat)
  /-- `Err`: the kind of the failure, and nothing else (rule R238). -/
  | err (e : DecodeError)
  deriving DecidableEq, Repr

/-- Why a step faults. -/
inductive Fault where
  /-- Raised by `bitAt`, so by BITAT and by the micro-steps of PREAMBLE, SYNC and DEMOD that evaluate it: a bit index that is
  not below `blen`, or that names no byte of the capture (rules R111, R245). Safe: the spec gives such a request no value. -/
  | bitIndexOutOfRange
  deriving DecidableEq, Repr

/-- Why a step or a move of the host is refused. -/
inductive Refusal where
  /-- An arm of `exec` whose instruction has no meaning. No arm raises it in this model. Safe. -/
  | notModelled (mnemonic : String)
  /-- Raised by every operation of format STAGE whose sub-state rule R91 does not list for its stage, and by the fetch of such
  a pair: the model's step function gives these pairs no step (rule R92 (d), over rule R209). DESIGN CHOICE, safe (assumption
  log 11). -/
  | unlistedSubState
  /-- Raised by the fetch when the host's command or the BITAT request is no word of its format; no state raises it. Safe. -/
  | notACommand
  /-- Raised by the host's move that writes the capture while `busy = 1`: a model gives the host no such move (rule R70). DESIGN
  CHOICE, safe (assumption log 7). -/
  | hostWriteWhileBusy
  deriving DecidableEq, Repr

/-- The register file of rule R22, every register at the width the table gives it. -/
structure Regs where
  /-- Orchestrator state, 3 bits: all eight codes are stages (rule R90). -/
  stage : Stage
  /-- State of the running stage's own state machine (rule R26). -/
  sub : BitVec 3
  /-- Failure kind, `none` for code 0 (rule R89). -/
  err : Option ErrKind
  /-- `read_bytes` as latched at start. -/
  vlen : BitVec 8
  /-- Bit length, `vlen * 8`. -/
  blen : BitOffset
  /-- Preamble candidate start offset. -/
  s : BitOffset
  /-- Working bit cursor of the running stage. -/
  pos : BitOffset
  /-- Matching quads counted for the current candidate. -/
  q : BitVec 9
  /-- Offset right after the last matching quad of the accepted candidate. -/
  preEnd : BitOffset
  /-- Quad count of the accepted candidate. -/
  quality : BitVec 9
  /-- Rolling sync accumulator. -/
  acc : BitVec 16
  /-- Offset right after the first marker match. -/
  syncEnd : BitOffset
  /-- Length of the current symbol's run of 0 bits. -/
  zeros : BitOffset
  /-- Length of the current symbol's run of 1 bits. -/
  ones : BitOffset
  /-- Data bits packed so far. -/
  nbits : BitVec 7
  /-- The packet under construction, then the packet (rule R30). -/
  packet : Vector Byte 8
  /-- Offset right after the 64th symbol. -/
  demodEnd : BitOffset
  /-- Checksum accumulator. -/
  sum : BitVec 8
  /-- Index of the next packet byte to add. -/
  k : BitVec 3
  /-- The recomputed sum, on mismatch. -/
  csumExpected : BitVec 8
  /-- `packet[7]` as observed, on mismatch. -/
  csumActual : BitVec 8
  /-- The decoded power in kilowatts, binary64 (rule R31). -/
  powerKw : F64
  deriving DecidableEq, Repr

/-- The argument and the result of a BITAT that is run on its own: the model's own wires, no register of the spec (DESIGN
CHOICE, safe: no step of a call uses them; assumption log 3). Rule R110 makes BITAT a combinational function that the
micro-steps evaluate inside themselves and do so without these wires; they carry the argument to, and the result from, a BITAT
that stands alone. -/
inductive BitatWires where
  /-- No request, no result. -/
  | idle
  /-- The next step evaluates `BITAT i`. -/
  | request (i : BitVec 10)
  /-- The bit that the last `BITAT i` returned. -/
  | result (i : BitVec 10) (b : Bit)
  deriving DecidableEq, Repr

/-- The state: the host-driven inputs, the capture, the registers, and the model's own BITAT wires. -/
structure State where
  /-- The reset input, `true` while reset is asserted (rule R260). -/
  rst : Bool
  /-- The `start` input, a level that the host drives (rule R21 (c)). -/
  start : Bool
  /-- The `read_bytes` input, 8 bits (rule R21 (b)). -/
  readBytes : BitVec 8
  /-- The capture `cap[0..127]` in canonical form: addresses strictly rising, no entry that equals what an unlisted address
  reads as (rule R60, assumption log 2). -/
  cap : List Host.Cell
  /-- The registers of rule R22. -/
  regs : Regs
  /-- The model's own: argument and result of a BITAT run on its own (assumption log 3). -/
  bitat : BitatWires
  deriving DecidableEq, Repr

/-- The reset value of every register (rule R36). -/
def Regs.reset : Regs where
  stage := .idle
  sub := 0#3
  err := none
  vlen := 0#8
  blen := 0#11
  s := 0#11
  pos := 0#11
  q := 0#9
  preEnd := 0#11
  quality := 0#9
  acc := 0#16
  syncEnd := 0#11
  zeros := 0#11
  ones := 0#11
  nbits := 0#7
  packet := Vector.replicate 8 0#8
  demodEnd := 0#11
  sum := 0#8
  k := 0#3
  csumExpected := 0#8
  csumActual := 0#8
  powerKw := 0#64

/-- The machine right after reset: every register at its reset value (rules R36, R260), reset released. The inputs and the
capture belong to the host and are unspecified then (rule R36); here `start` and `read_bytes` are 0 and the capture lists
nothing. DESIGN CHOICE, unsafe: a claim about the first step from this state could lean on them (assumption logs 2 and 5). -/
def State.reset : State where
  rst := false
  start := false
  readBytes := 0#8
  cap := []
  regs := Regs.reset
  bitat := .idle

end Sys2Proof.Machine
end

