-- ==== Sys2Proof/Machine/Ops.lean ====
section
/-! DEFINITION. The named operations over the capture and the registers: reading and writing the capture, BITAT (rules R110,
R111), QUAD (rule R112), `raise` (60_exceptions.md rule R236) and its counterpart the start step (46_pipeline_orchestrator.md
rule R209), reset (70_reset_and_hazards.md rule R260). -/

namespace Sys2Proof.Machine

/-- What a capture address that the list does not name reads as. DESIGN CHOICE, unsafe: a claim about a call over bytes that
nothing has written could lean on it (assumption log 2). -/
def Memory.unlisted : Byte := 0x00#8

/-- The byte at an address (`MemRead`, rules R11 and R62): no side effect. -/
def Memory.read : List Host.Cell → Nat → Byte
  | [], _ => Memory.unlisted
  | (a, b) :: rest, x => if x = a then b else Memory.read rest x

/-- Lists an entry first, or nothing when an unlisted address reads as the byte already. -/
def Memory.entry (x : Nat) (v : Byte) (rest : List Host.Cell) : List Host.Cell :=
  if v = Memory.unlisted then rest else (x, v) :: rest

/-- The capture with one byte changed, in canonical form. Only the host writes the capture (rules R63, R261). -/
def Memory.write : List Host.Cell → Nat → Byte → List Host.Cell
  | [], x, v => Memory.entry x v []
  | (a, b) :: rest, x, v =>
    if x < a then Memory.entry x v ((a, b) :: rest)
    else if x = a then Memory.entry x v rest
    else (a, b) :: Memory.write rest x v

/-- Every entry lies at `lo` or above, below the capacity, addresses strictly rising, and none reads as an unlisted one. -/
def Memory.wfFrom : Nat → List Host.Cell → Bool
  | _, [] => true
  | lo, (a, b) :: rest =>
    decide (lo ≤ a) && decide (a < Config.capacity) && decide (b ≠ Memory.unlisted) && Memory.wfFrom (a + 1) rest

/-- The canonical form of the capture (rule R60: addresses 0 to 127). -/
def Memory.wf (m : List Host.Cell) : Bool := Memory.wfFrom 0 m

/-- The bit selected in a byte, `j` counted from the most significant: `byte[7 - j : 7 - j]` (rule R110). -/
def selectBit (byte : Byte) (j : Nat) : Bit :=
  byte.extractLsb' (7 - j) 1

/-- The bit at bit index `i` of a buffer, most significant bit first in each byte (rules R8, R61). -/
def captureBit (m : List Host.Cell) (i : Nat) : Bit :=
  selectBit (Memory.read m (i / 8)) (i % 8)

/-- `BITAT(i)` with the valid length `blen` (rules R110, R111): a bit of the capture, or the fault of an index that is not below
`blen` or that names no byte of the capture (DEDUCED, safe, assumption log 14). -/
def bitAt (m : List Host.Cell) (blen i : Nat) : Except Fault Bit :=
  if i < blen ∧ i < Config.maxBits then .ok (captureBit m i) else .error .bitIndexOutOfRange

/-- `QUAD(i)` (rule R112): four BITAT, the first most significant. -/
def quad (m : List Host.Cell) (blen i : Nat) : Except Fault (BitVec 4) :=
  match bitAt m blen i, bitAt m blen (i + 1), bitAt m blen (i + 2), bitAt m blen (i + 3) with
  | .ok b0, .ok b1, .ok b2, .ok b3 => .ok (b0 ++ b1 ++ b2 ++ b3)
  | .error f, _, _, _ => .error f
  | _, .error f, _, _ => .error f
  | _, _, .error f, _ => .error f
  | _, _, _, .error f => .error f

/-- The code of a failure kind (rule R89). -/
def ErrKind.code : ErrKind → BitVec 3
  | .notEnoughData => 1#3
  | .preambleNotFound => 2#3
  | .syncNotFound => 3#3
  | .insufficientSymbols => 4#3
  | .checksumMismatch => 5#3

/-- The `err` register as bits: 0 for no failure (rule R89). -/
def errCode : Option ErrKind → BitVec 3
  | none => 0#3
  | some e => e.code

/-- The control transfer of this machine: the orchestrator moves to a stage; every transition of `stage` writes `sub <- 0`
(rules R11, R208). -/
def Regs.goto (g : Stage) (r : Regs) : Regs :=
  { r with stage := g, sub := 0#3 }

/-- `raise K` (rule R236), the one way a call fails: `err <- code(K)`, `stage <- Failed`, `sub <- 0`. Nothing is saved, and no
other register changes. -/
def Regs.raise (e : ErrKind) (r : Regs) : Regs :=
  { r with err := some e, stage := .failed, sub := 0#3 }

/-- The entry check of rule R207: `0 < n <= 128`. -/
def entryCheck (n : Nat) : Bool :=
  decide (0 < n) && decide (n ≤ Config.capacity)

/-- The bit length of a byte count: `zext_11(vlen) * 8` (rules R82, R207). -/
def bitLength (vlen : BitVec 8) : BitOffset := vlen.zeroExtend 11 * 8#11

/-- The registers that the start step leaves (rule R209): every register at its reset value, then `vlen`, then either `blen` and
`stage = Start`, or NotEnoughData. It is the return of this machine: it clears `err` with every other register (rule R239). -/
def Regs.startCall (n : BitVec 8) : Regs :=
  let r := { Regs.reset with vlen := n }
  if entryCheck n.toNat then { r with blen := bitLength n, stage := .start, sub := 0#3 }
  else r.raise .notEnoughData

/-- The state with other registers: the inputs, the capture and everything else of the model stay. -/
abbrev State.withRegs (st : State) (r : Regs) : State := { st with regs := r }

/-- Reset while it is asserted (rule R260; DEDUCED, safe, assumption log 16): every register at its reset value. The host's
inputs and the capture are not touched, and neither is anything else of the model. -/
def State.applyReset (st : State) : State :=
  { st with regs := Regs.reset }

/-- Completes a micro-step: its register writes take effect together (rule R11); the capture and the inputs are not the core's
to write (rules R22, R63). -/
def State.finish (st : State) (r : Except Fault Regs) : Host.Outcome State Fault Refusal :=
  match r with
  | .ok r => .next { st with regs := r }
  | .error f => .fault f

end Sys2Proof.Machine
end

