-- ==== Sys2Proof/Machine/Operands.lean ====
section
/-! DEFINITION. How each multi-bit operand is assembled from bits of the capture or of the packet (30_encoding.md rule R82). -/

namespace Sys2Proof.Machine

/-- The bit index that BITAT's two fields name: `i = 8a + j`, `i[9:3] = a`, `i[2:0] = j` (rules R81, R110). -/
def bitIndex (a : BitVec 7) (j : BitVec 3) : BitVec 10 := a ++ j

/-- One update of the sync window: `((acc << 1) | bit) mod 65536` (rules R82, R142). -/
def shiftIn (acc : BitVec 16) (b : Bit) : BitVec 16 :=
  BitVec.ofNat 16 ((acc.toNat * 2 + b.toNat) % 65536)

/-- Byte `k` of the packet register file, `k` in 0..7 (rules R11, R30). -/
def packetByte (p : Vector Byte 8) (k : Nat) : Byte :=
  p.toList.getD k 0#8

/-- Data bit `n` goes to bit `7 - (n mod 8)` of `packet[floor(n / 8)]`, by the addition of rule R165 (rules R82, R160). -/
def packBit (p : Vector Byte 8) (n : Nat) (b : Bit) : Vector Byte 8 :=
  p.setIfInBounds (n / 8) (packetByte p (n / 8) + BitVec.ofNat 8 (b.toNat * 2 ^ (7 - n % 8)))

/-- The symbol decision: data bit 0 when `zeros >= ones`, else 1 (rules R85, R158). -/
def symbolBit (zeros ones : Nat) : Bit :=
  if zeros ≥ ones then 0#1 else 1#1

/-- `mantissa = packet[4] * 256 + packet[5]`, unsigned (rules R82, R186). -/
def mantissa (p : Vector Byte 8) : Nat :=
  (packetByte p 4).toNat * 256 + (packetByte p 5).toNat

/-- `exponent = packet[6] - 1`: the unsigned byte widened to a signed integer, range -1..254 (rules R82, R187). -/
def exponent (p : Vector Byte 8) : Int :=
  ((packetByte p 6).toNat : Int) - 1

/-- One addition of the checksum: 8 bits, the carry discarded (rules R82, R177). -/
def addByte (sum b : Byte) : Byte := sum + b

/-- The 64 bits of the `packet` port: byte 0 in bits 63:56, byte 7 in bits 7:0 (rules R29, R88). -/
def packetWord (p : Vector Byte 8) : BitVec 64 :=
  packetByte p 0 ++ packetByte p 1 ++ packetByte p 2 ++ packetByte p 3 ++
    packetByte p 4 ++ packetByte p 5 ++ packetByte p 6 ++ packetByte p 7

end Sys2Proof.Machine
end

