-- ==== Sys2Proof/Machine/BitAddressing.lean ====
section
/-! DEFINITION. Bit Addressing, the operation BITAT (40_bit_addressing.md). -/

namespace Sys2Proof.Machine

/-- `BITAT i` run on its own (rules R110, R111): the bit at bit index `i` of the valid capture, on the model's result wires
(assumption log 3); no register and no byte of the capture is written. An index that is not below `blen` faults. -/
def execBitat (a : BitVec 7) (j : BitVec 3) (st : State) : Host.Outcome State Fault Refusal :=
  match bitAt st.cap st.regs.blen.toNat (bitIndex a j).toNat with
  | .ok b => .next { st with bitat := .result (bitIndex a j) b }
  | .error f => .fault f

end Sys2Proof.Machine
end

