-- ==== Sys2Proof/Machine/ChecksumValidator.lean ====
section
/-! DEFINITION. The Checksum Validator, the operation CHECKSUM (44_checksum_validator.md): its functional description (rule
R175) and its micro-steps (rules R176 to R178). -/

namespace Sys2Proof.Machine

/-- The sum of packet bytes 0 to 6 modulo 256 (rule R175). -/
def Functional.sumOf (p : Vector Byte 8) : Byte :=
  BitVec.ofNat 8 (((List.range Config.csumBytes).map fun k => (packetByte p k).toNat).sum % 256)

/-- `CHECKSUM(P)` (rule R175): `none` for `Pass`, or the two bytes of `Mismatch(expected, actual)`. -/
def Functional.checksum (p : Vector Byte 8) : Option (Byte × Byte) :=
  if Functional.sumOf p = packetByte p 7 then none else some (Functional.sumOf p, packetByte p 7)

/-- K_INIT (rule R176). -/
def kInit (r : Regs) : Regs :=
  { r with sum := 0#8, k := 0#3, sub := 1#3 }

/-- K_ADD (rule R177): add one byte. -/
def kAdd (r : Regs) : Regs :=
  if r.k.toNat < Config.csumBytes then { r with sum := addByte r.sum (packetByte r.packet r.k.toNat), k := r.k + 1#3 }
  else { r with sub := 2#3 }

/-- K_CMP (rule R178): compare; on a mismatch both bytes are reported in the same step as the failure (rule R236). -/
def kCmp (r : Regs) : Regs :=
  if r.sum = packetByte r.packet 7 then Regs.goto .checksumVerified r
  else Regs.raise .checksumMismatch { r with csumExpected := r.sum, csumActual := packetByte r.packet 7 }

/-- CHECKSUM: the micro-step of the sub-state (rule R91). -/
def execChecksum (sub : BitVec 3) (st : State) : Host.Outcome State Fault Refusal :=
  match sub.toNat with
  | 0 => st.finish (.ok (kInit st.regs))
  | 1 => st.finish (.ok (kAdd st.regs))
  | 2 => st.finish (.ok (kCmp st.regs))
  | _ => .refused .unlistedSubState

end Sys2Proof.Machine
end

