-- ==== Sys2Proof/Machine/Flags.lean ====
section
/-! DEFINITION. The core has no condition codes and no arithmetic flags; its status outputs are functions of `stage`
(10_state.md rule R28). -/

namespace Sys2Proof.Machine

/-- `busy = 1` in the five stages in which an operation runs (rule R28). -/
def stageBusy : Stage → Bool
  | .idle => false
  | .start => true
  | .preambleFound => true
  | .syncFound => true
  | .symbolsDemodulated => true
  | .checksumVerified => true
  | .done => false
  | .failed => false

/-- `done = 1` in Done and in Failed (rule R28). -/
def stageDone : Stage → Bool
  | .done => true
  | .failed => true
  | _ => false

/-- `ok = 1` in Done only (rule R28). -/
def stageOk : Stage → Bool
  | .done => true
  | _ => false

/-- The status output `busy`. -/
def State.busy (st : State) : Bool := stageBusy st.regs.stage

/-- The status output `done`. -/
def State.done (st : State) : Bool := stageDone st.regs.stage

/-- The status output `ok`. -/
def State.ok (st : State) : Bool := stageOk st.regs.stage

end Sys2Proof.Machine
end

