-- ==== Sys2Proof/Machine/PreambleLocator.lean ====
section
/-! DEFINITION. The Preamble Locator, the operation PREAMBLE (41_preamble_locator.md): its functional description (rules R120 to
R124) and its micro-steps (rules R125 to R128). -/

namespace Sys2Proof.Machine

/-- The four capture bits from `i` on, the first most significant (rules R82, R112), for an `i` that a guard has bounded. -/
def Functional.quad (m : List Host.Cell) (i : Nat) : BitVec 4 :=
  captureBit m i ++ captureBit m (i + 1) ++ captureBit m (i + 2) ++ captureBit m (i + 3)

/-- The inner loop of rule R120: from `i` with count `q`, the position and the count at which the walk ends (rule R122). The
fuel bounds the number of quads. -/
def Functional.walk (m : List Host.Cell) (blen : Nat) : Nat → Nat → Nat → Nat × Nat
  | 0, i, q => (i, q)
  | fuel + 1, i, q =>
    if i + Config.preQuad ≤ blen ∧ Functional.quad m i = Config.prePattern then
      Functional.walk m blen fuel (i + Config.preQuad) (q + 1)
    else (i, q)

/-- The outer loop of rule R120 from the candidate `s` on (rules R121, R123, R124); the fuel bounds the number of candidates. -/
def Functional.preambleFrom (m : List Host.Cell) (blen : Nat) : Nat → Nat → Option (Nat × Nat)
  | 0, _ => none
  | fuel + 1, s =>
    if s + Config.preMinBits ≤ blen then
      let w := Functional.walk m blen Config.maxBits s 0
      if Config.preMinQuality ≤ w.2 then some w else Functional.preambleFrom m blen fuel (s + 1)
    else none

/-- `PREAMBLE()` (rule R120): `Found(pre_end, quality)`, or `none` for `NotFound`. -/
def Functional.preamble (m : List Host.Cell) (blen : Nat) : Option (Nat × Nat) :=
  Functional.preambleFrom m blen Config.maxBits 0

/-- P_CAND (rule R126): open the next candidate or give up. -/
def pCand (r : Regs) : Regs :=
  if r.s.toNat + Config.preMinBits ≤ r.blen.toNat then { r with pos := r.s, q := 0#9, sub := 1#3 }
  else r.raise .preambleNotFound

/-- P_WALK (rule R127): test one quad; QUAD is evaluated only when four valid bits remain. -/
def pWalk (m : List Host.Cell) (r : Regs) : Except Fault Regs :=
  if r.pos.toNat + Config.preQuad ≤ r.blen.toNat then
    match quad m r.blen.toNat r.pos.toNat with
    | .ok v =>
      if v = Config.prePattern then .ok { r with q := r.q + 1#9, pos := r.pos + 4#11 } else .ok { r with sub := 2#3 }
    | .error f => .error f
  else .ok { r with sub := 2#3 }

/-- P_JUDGE (rule R128): accept the candidate or move to the next. -/
def pJudge (r : Regs) : Regs :=
  if Config.preMinQuality ≤ r.q.toNat then Regs.goto .preambleFound { r with preEnd := r.pos, quality := r.q }
  else { r with s := r.s + 1#11, sub := 0#3 }

/-- PREAMBLE: the micro-step of the sub-state (rules R91, R125). -/
def execPreamble (sub : BitVec 3) (st : State) : Host.Outcome State Fault Refusal :=
  match sub.toNat with
  | 0 => st.finish (.ok (pCand st.regs))
  | 1 => st.finish (pWalk st.cap st.regs)
  | 2 => st.finish (.ok (pJudge st.regs))
  | _ => .refused .unlistedSubState

end Sys2Proof.Machine
end

