-- ==== Sys2Proof/Machine/SymbolDemodulator.lean ====
section
/-! DEFINITION. The Symbol Demodulator, the operation DEMOD (43_symbol_demodulator.md): its functional description (rules R155
to R160) and its micro-steps (rules R161 to R165). -/

namespace Sys2Proof.Machine

/-- The length of the run of bits equal to `v` from `pos` on, ended by the other value or by `blen` (rule R156); the fuel bounds
the length. -/
def Functional.runLength (m : List Host.Cell) (blen : Nat) (v : Bit) : Nat → Nat → Nat
  | 0, _ => 0
  | fuel + 1, pos =>
    if pos < blen ∧ captureBit m pos = v then Functional.runLength m blen v fuel (pos + 1) + 1 else 0

/-- The outer loop of rule R155 with `left` symbols still to demodulate, the packet so far and the position (rules R157 to
R160): the packet and the position after the last symbol, or `none` for `Insufficient`. -/
def Functional.demodFrom (m : List Host.Cell) (blen : Nat) : Nat → Vector Byte 8 → Nat → Option (Vector Byte 8 × Nat)
  | 0, pkt, pos => some (pkt, pos)
  | left + 1, pkt, pos =>
    if pos < blen then
      let z := Functional.runLength m blen 0#1 Config.maxBits pos
      let o := Functional.runLength m blen 1#1 Config.maxBits (pos + z)
      if z = 0 ∨ o = 0 then none
      else Functional.demodFrom m blen left (packBit pkt (Config.pktBits - (left + 1)) (symbolBit z o)) (pos + z + o)
    else none

/-- `DEMOD(p)` (rule R155): `Found(packet, demod_end)`, or `none` for `Insufficient`. -/
def Functional.demod (m : List Host.Cell) (blen p : Nat) : Option (Vector Byte 8 × Nat) :=
  Functional.demodFrom m blen Config.pktBits (Vector.replicate 8 0#8) p

/-- M_INIT (rule R161). -/
def mInit (r : Regs) : Regs :=
  { r with pos := r.syncEnd, nbits := 0#7, packet := Vector.replicate 8 0#8, sub := 1#3 }

/-- M_SYMBOL (rule R162): the loop guard, the bit count first (rule R159). -/
def mSymbol (r : Regs) : Regs :=
  if r.nbits.toNat = Config.pktBits then Regs.goto .symbolsDemodulated { r with demodEnd := r.pos }
  else if r.blen.toNat ≤ r.pos.toNat then r.raise .insufficientSymbols
  else { r with zeros := 0#11, ones := 0#11, sub := 2#3 }

/-- M_ZEROS (rule R163): advance over one 0 bit, or end the zeros run. -/
def mZeros (m : List Host.Cell) (r : Regs) : Except Fault Regs :=
  if r.pos.toNat < r.blen.toNat then
    match bitAt m r.blen.toNat r.pos.toNat with
    | .ok b =>
      if b = 0#1 then .ok { r with zeros := r.zeros + 1#11, pos := r.pos + 1#11 } else .ok { r with sub := 3#3 }
    | .error f => .error f
  else .ok { r with sub := 3#3 }

/-- M_ONES (rule R164): advance over one 1 bit, or end the ones run. -/
def mOnes (m : List Host.Cell) (r : Regs) : Except Fault Regs :=
  if r.pos.toNat < r.blen.toNat then
    match bitAt m r.blen.toNat r.pos.toNat with
    | .ok b =>
      if b = 1#1 then .ok { r with ones := r.ones + 1#11, pos := r.pos + 1#11 } else .ok { r with sub := 4#3 }
    | .error f => .error f
  else .ok { r with sub := 4#3 }

/-- M_JUDGE (rule R165): the stop rule, the decision and the packing. -/
def mJudge (r : Regs) : Regs :=
  if r.zeros = 0#11 ∨ r.ones = 0#11 then r.raise .insufficientSymbols
  else
    { r with
      packet := packBit r.packet r.nbits.toNat (symbolBit r.zeros.toNat r.ones.toNat)
      nbits := r.nbits + 1#7
      sub := 1#3 }

/-- DEMOD: the micro-step of the sub-state (rule R91). -/
def execDemod (sub : BitVec 3) (st : State) : Host.Outcome State Fault Refusal :=
  match sub.toNat with
  | 0 => st.finish (.ok (mInit st.regs))
  | 1 => st.finish (.ok (mSymbol st.regs))
  | 2 => st.finish (mZeros st.cap st.regs)
  | 3 => st.finish (mOnes st.cap st.regs)
  | 4 => st.finish (.ok (mJudge st.regs))
  | _ => .refused .unlistedSubState

end Sys2Proof.Machine
end

