-- ==== Sys2Proof/Machine/SyncLocator.lean ====
section
/-! DEFINITION. The Sync Locator, the operation SYNC (42_sync_locator.md): its functional description (rules R140 to R143) and
its micro-steps (rules R144, R145). -/

namespace Sys2Proof.Machine

/-- The sixteen capture bits from `j` on are all 1 (rules R84, R140). -/
def Functional.windowAt (m : List Host.Cell) (j : Nat) : Bool :=
  (List.range Config.syncBits).all fun k => captureBit m (j + k) == 1#1

/-- The loop of rule R140 from the window start `j` on (rule R143); the fuel bounds the number of windows. -/
def Functional.syncFrom (m : List Host.Cell) (blen : Nat) : Nat → Nat → Option Nat
  | 0, _ => none
  | fuel + 1, j =>
    if j + Config.syncBits ≤ blen then
      if Functional.windowAt m j then some (j + Config.syncBits) else Functional.syncFrom m blen fuel (j + 1)
    else none

/-- `SYNC(p)` (rule R140): `Found(sync_end)`, or `none` for `NotFound`; fewer than 16 bits past `p` fail at once (rule R141). -/
def Functional.sync (m : List Host.Cell) (blen p : Nat) : Option Nat :=
  if blen < p + Config.syncBits then none else Functional.syncFrom m blen Config.maxBits p

/-- S_CHECK (rule R144): the precondition of rule R141, written as an addition (rule R266 (a); DEDUCED, safe, assumption
log 10), and initialisation. -/
def sCheck (r : Regs) : Regs :=
  if r.blen.toNat < r.preEnd.toNat + Config.syncBits then r.raise .syncNotFound
  else { r with pos := r.preEnd, acc := 0#16, sub := 1#3 }

/-- S_SHIFT (rule R145): shift in one bit and compare. -/
def sShift (m : List Host.Cell) (r : Regs) : Except Fault Regs :=
  if r.pos.toNat < r.blen.toNat then
    match bitAt m r.blen.toNat r.pos.toNat with
    | .ok b =>
      let acc' := shiftIn r.acc b
      let r' := { r with acc := acc', pos := r.pos + 1#11 }
      if acc' = Config.syncMarker then .ok (Regs.goto .syncFound { r' with syncEnd := r.pos + 1#11 }) else .ok r'
    | .error f => .error f
  else .ok (r.raise .syncNotFound)

/-- SYNC: the micro-step of the sub-state (rule R91). -/
def execSync (sub : BitVec 3) (st : State) : Host.Outcome State Fault Refusal :=
  match sub.toNat with
  | 0 => st.finish (.ok (sCheck st.regs))
  | 1 => st.finish (sShift st.cap st.regs)
  | _ => .refused .unlistedSubState

end Sys2Proof.Machine
end

