-- ==== Sys2Proof/Machine/Binary64.lean ====
section
/-! DEFINITION. IEEE 754 binary64 on non-negative numbers: the value of a bit pattern (30_encoding.md rule R95), `RN`, round to
nearest with ties to even (45_value_decoder.md rule R192), and the operations that VALUE uses. No operand is negative, infinite
or NaN (rules R192, R194), so the sign bit is not read. The rule's layout and rounding are general knowledge (PRESUMED, unsafe,
assumption log 6); the operands' signs are DEDUCED, safe (assumption log 17). -/

namespace Sys2Proof.Machine

/-- The common denominator of all binary64 values: every finite value is a natural number over `2^1075`. -/
@[irreducible] def Binary64.den : Nat := 2 ^ 1075

/-- The biased exponent, bits 62:52 (rule R95). -/
def Binary64.biased (x : F64) : Nat := (x.extractLsb' 52 11).toNat

/-- The fraction, bits 51:0 (rule R95). -/
def Binary64.fraction (x : F64) : Nat := (x.extractLsb' 0 52).toNat

/-- The significand: the fraction below the hidden bit of a normal number (rule R95), the fraction alone of a subnormal. -/
def Binary64.significand (x : F64) : Nat :=
  if Binary64.biased x = 0 then Binary64.fraction x else 2 ^ 52 + Binary64.fraction x

/-- The numerator of a value: the value of `x` is `num x / den`, `(1 + fraction / 2^52) * 2^(biased - 1023)` for a normal `x`.
-/
def Binary64.num (x : F64) : Nat :=
  Binary64.significand x * 2 ^ max (Binary64.biased x) 1

/-- The natural number nearest to `a / b`, ties to even (rule R192). -/
def Binary64.roundHalfEven (a b : Nat) : Nat :=
  let q := a / b
  let r := a % b
  if 2 * r < b then q else if b < 2 * r then q + 1 else q + q % 2

/-- The biased exponent of the binade that holds `n / d`, 1 below the least normal number. -/
def Binary64.binade (n d : Nat) : Nat :=
  max 1 (Nat.log2 (n * Binary64.den / d) - 52)

/-- `RN(n / d)` (rules R11, R192): the significand is rounded in the unit `2^e / den` of its binade, and a carry out of the
significand moves to the next binade by itself; a result past the last binade is the infinity pattern. -/
def Binary64.rn (n d : Nat) : F64 :=
  let e := Binary64.binade n d
  let k := Binary64.roundHalfEven (n * Binary64.den) (d * 2 ^ e)
  BitVec.ofNat 64 (min ((e - 1) * 2 ^ 52 + k) (2047 * 2 ^ 52))

/-- Conversion of a natural number (rules R188, R192). -/
def Binary64.ofNat (n : Nat) : F64 := Binary64.rn n 1

/-- Floating-point multiplication: the exact product, rounded once (rules R191, R192). -/
def Binary64.mul (x y : F64) : F64 :=
  Binary64.rn (Binary64.num x * Binary64.num y) (Binary64.den * Binary64.den)

/-- Floating-point division: the exact quotient, rounded once (rules R188, R192). -/
def Binary64.div (x y : F64) : F64 :=
  Binary64.rn (Binary64.num x) (Binary64.num y)

end Sys2Proof.Machine
end

