-- ==== Sys2Proof/Machine/ValueDecoder.lean ====
section
/-! DEFINITION. The Value Decoder, the operation VALUE (45_value_decoder.md): its functional description (rules R185 to R192)
and its one micro-step (rule R196). -/

namespace Sys2Proof.Machine

/-- `SCALE = RN(0.4799)` (rule R191). -/
def Functional.scale : F64 := Binary64.rn Config.scaleNum Config.scaleDen

/-- `ratio = RN(mantissa) / RN(65536)` (rule R188). -/
def Functional.ratio (mant : Nat) : F64 :=
  Binary64.div (Binary64.ofNat mant) (Binary64.ofNat Config.mantDiv)

/-- The integer factor: `2 << exponent` as an unbounded natural number when `exponent >= 0` (rule R189), else the open parameter
`K_NEG1` (rule R190). -/
def Functional.factor (kNeg1 : Nat) (exponent : Int) : Nat :=
  if 0 ≤ exponent then 2 <<< exponent.toNat else kNeg1

/-- `VALUE(P)` for a value of `K_NEG1` (rules R185, R191): two multiplications, left to right. -/
def Functional.value (kNeg1 : Nat) (p : Vector Byte 8) : F64 :=
  Binary64.mul (Binary64.mul Functional.scale (Functional.ratio (mantissa p)))
    (Binary64.ofNat (Functional.factor kNeg1 (exponent p)))

/-- V_EVAL (rule R196): the power reading of the packet, then Done. -/
def vEval (r : Regs) : Regs :=
  Regs.goto .done { r with powerKw := Functional.value Config.kNeg1 r.packet }

/-- VALUE: its one micro-step (rules R91, R193). -/
def execValue (sub : BitVec 3) (st : State) : Host.Outcome State Fault Refusal :=
  match sub.toNat with
  | 0 => st.finish (.ok (vEval st.regs))
  | _ => .refused .unlistedSubState

end Sys2Proof.Machine
end

