-- ==== Sys2Proof/Machine/Orchestrator.lean ====
section
/-! DEFINITION. The Pipeline Orchestrator (46_pipeline_orchestrator.md): the call as a function (rule R205), the start step that
DECODE runs (rule R209), the holding states (rule R212), and the outcome read from the registers (rule R211). -/

namespace Sys2Proof.Machine

/-- `DECODE(n, cap)` for a value of `K_NEG1` (rule R205): the outcome of a call. -/
def Functional.decode (kNeg1 n : Nat) (m : List Host.Cell) : CallOutcome :=
  if n = 0 ∨ Config.capacity < n then .err .notEnoughData
  else
    match Functional.preamble m (8 * n) with
    | none => .err .preambleNotFound
    | some (preEnd, quality) =>
      match Functional.sync m (8 * n) preEnd with
      | none => .err .syncNotFound
      | some syncEnd =>
        match Functional.demod m (8 * n) syncEnd with
        | none => .err .insufficientSymbols
        | some (packet, _) =>
          match Functional.checksum packet with
          | some (expected, actual) => .err (.checksumMismatch expected actual)
          | none => .ok (Functional.value kNeg1 packet) packet quality

/-- DECODE: the host's command (rule R209). In Idle, Done and Failed it is the start step; while `busy = 1` it is ignored, no
operation (rule R92 (b); DEDUCED, safe, assumption log 20). -/
def execDecode (n : BitVec 8) (st : State) : Host.Outcome State Fault Refusal :=
  if st.busy then .next st else .next { st with regs := Regs.startCall n }

/-- A holding state (rule R212): no register changes and no memory is read. -/
def hold (sub : BitVec 3) (st : State) : Host.Outcome State Fault Refusal :=
  if sub = 0#3 then .next st else .refused .unlistedSubState

/-- HOLD.IDLE (rule R212). -/
def execHoldIdle (sub : BitVec 3) (st : State) : Host.Outcome State Fault Refusal := hold sub st

/-- HOLD.DONE (rule R212). -/
def execHoldDone (sub : BitVec 3) (st : State) : Host.Outcome State Fault Refusal := hold sub st

/-- HOLD.FAILED (rule R212). -/
def execHoldFailed (sub : BitVec 3) (st : State) : Host.Outcome State Fault Refusal := hold sub st

/-- The failure that the registers report: `kind(err)`, with the two payload registers when `err = 5` (rule R211). -/
def Regs.failure (r : Regs) : Option DecodeError :=
  match r.err with
  | none => none
  | some .notEnoughData => some .notEnoughData
  | some .preambleNotFound => some .preambleNotFound
  | some .syncNotFound => some .syncNotFound
  | some .insufficientSymbols => some .insufficientSymbols
  | some .checksumMismatch => some (.checksumMismatch r.csumExpected r.csumActual)

/-- The outcome of the call as read from the registers (rules R32, R211): no value while no call has ended. -/
def Regs.outcome (r : Regs) : Option CallOutcome :=
  match r.stage with
  | .done => some (.ok r.powerKw r.packet r.quality.toNat)
  | .failed => r.failure.map .err
  | _ => none

end Sys2Proof.Machine
end

