-- ==== Sys2Proof/Machine/Dispatch.lean ====
section
/-! DEFINITION. The dispatch of the operations: one arm for each constructor of `Instr`. -/

namespace Sys2Proof.Machine

def exec (i : Instr) (s : State) : Host.Outcome State Fault Refusal :=
  match i with
  | .decode n => Sys2Proof.Machine.execDecode n s
  | .bitat a j => Sys2Proof.Machine.execBitat a j s
  | .holdIdle sub => Sys2Proof.Machine.execHoldIdle sub s
  | .preamble sub => Sys2Proof.Machine.execPreamble sub s
  | .sync sub => Sys2Proof.Machine.execSync sub s
  | .demod sub => Sys2Proof.Machine.execDemod sub s
  | .checksum sub => Sys2Proof.Machine.execChecksum sub s
  | .value sub => Sys2Proof.Machine.execValue sub s
  | .holdDone sub => Sys2Proof.Machine.execHoldDone sub s
  | .holdFailed sub => Sys2Proof.Machine.execHoldFailed sub s

end Sys2Proof.Machine
end

