-- ==== Sys2Proof/Machine/Fetch.lean ====
section
/-! DEFINITION. What the next step runs. The core fetches no instructions: what sequences it is the pair (`stage`, `sub`) and,
in a holding state, the host's command (10_state.md rule R25, 46_pipeline_orchestrator.md rule R209). -/

namespace Sys2Proof.Machine

/-- What a step does. -/
inductive Action where
  /-- Reset is asserted (rule R260). -/
  | reset
  /-- An operation runs. -/
  | run (i : Instr)
  /-- No operation is selected. -/
  | refuse (r : Refusal)
  deriving DecidableEq, Repr

/-- The action for a word that the decoder has read. -/
def Action.ofDecoded (d : Except Reject Instr) : Action :=
  match d with
  | .ok i => .run i
  | .error .unlistedSubState => .refuse .unlistedSubState
  | .error _ => .refuse .notACommand

/-- The host's command is sampled: `start = 1` in Idle, Done or Failed (rule R209). In the five busy stages `start` is not
sampled at all, and a pair that rule R91 does not list has no step (rule R92 (d)). -/
def State.sampled (st : State) : Bool :=
  st.start && !st.busy && decide (st.regs.sub = 0#3)

/-- What the next step runs: reset while it is asserted; a BITAT presented on the model's own request wires (assumption log 3);
the host's command where it is sampled; else the operation of the stage and sub-state registers (rule R80). -/
def State.select (st : State) : Action :=
  if st.rst then .reset
  else
    match st.bitat with
    | .request i => Action.ofDecoded (decode .bitIdx i.toNat)
    | _ =>
      if st.sampled then Action.ofDecoded (decode .call (encodeCall 1#1 st.readBytes).toNat)
      else Action.ofDecoded (decode .stage (encodeStage st.regs.stage st.regs.sub).toNat)

/-- The BITAT wires without a pending request. -/
def BitatWires.cancel : BitatWires → BitatWires
  | .idle => .idle
  | .request _ => .idle
  | .result i b => .result i b

/-- Presents a CALL word at the command inputs, in a state in which it is sampled: a busy stage becomes Idle. -/
def State.placeCall (st : State) (w : BitVec 9) : State :=
  { st with
    rst := false
    start := decide (w.extractLsb' 8 1 = 1#1)
    readBytes := w.extractLsb' 0 8
    bitat := st.bitat.cancel
    regs := if st.busy then Regs.goto .idle st.regs else { st.regs with sub := 0#3 } }

/-- Presents a STAGE word in the sequencing registers, with no command beside it. -/
def State.placeStage (st : State) (w : BitVec 6) : State :=
  { st with
    rst := false
    start := false
    bitat := st.bitat.cancel
    regs := { st.regs with stage := Stage.ofCode (w.extractLsb' 3 3), sub := w.extractLsb' 0 3 } }

/-- Presents a BITIDX word on the model's own request wires. -/
def State.placeBitIdx (st : State) (w : BitVec 10) : State :=
  { st with rst := false, bitat := .request w }

/-- Presents a word of a format where the next step takes it from; a word wider than its format is no word and changes nothing.
-/
def State.placeWord (st : State) (f : Format) (w : Nat) : State :=
  if w < 2 ^ f.width then
    match f with
    | .call => st.placeCall (BitVec.ofNat 9 w)
    | .stage => st.placeStage (BitVec.ofNat 6 w)
    | .bitIdx => st.placeBitIdx (BitVec.ofNat 10 w)
  else st

/-- Presents a table row's word, its format told as `decodeTableWord` tells it (assumption log 4). -/
def State.placeTableWord (st : State) (nbits w : Nat) : State :=
  match nbits with
  | 6 => st.placeWord .stage w
  | 8 => st.placeWord .stage w
  | 9 => st.placeWord .call w
  | 10 => st.placeWord .bitIdx w
  | 16 => st.placeWord (containerFormat w) w
  | _ => st

end Sys2Proof.Machine
end

