-- ==== Sys2Proof/Machine/Step.lean ====
section
/-! DEFINITION. One step of the decode core: one micro-step, one start step, one held step, or one step of asserted reset. -/

namespace Sys2Proof.Machine

/-- One step (rules R20, R206, R209, R212, R260). -/
def step (s : State) : Host.Outcome State Fault Refusal :=
  match s.select with
  | .reset => .next s.applyReset
  | .run i => exec i s
  | .refuse r => .refused r

/-- The state with a table row's word where the next step takes its operation from (assumption log 4). -/
def State.withFetchWord (s : State) (nbits w : Nat) : State :=
  s.placeTableWord nbits w

end Sys2Proof.Machine
end

