-- ==== Sys2Proof/Machine/HostMoves.lean ====
section
/-! DEFINITION. The moves of the host, the second agent (10_state.md rule R20): it writes the capture and `read_bytes`, drives
`start` and reset, and has no other way to change the machine (rule R22: no register is writable by the host). -/

namespace Sys2Proof.Machine

/-- One move of the host. -/
inductive HostMove where
  /-- Write one byte of the capture; the capture has the addresses 0 to 127 (rules R21 (a), R60). -/
  | writeByte (a : BitVec 7) (v : Byte)
  /-- Drive the `read_bytes` input (rule R21 (b)). -/
  | setReadBytes (n : BitVec 8)
  /-- Drive the `start` input (rule R21 (c)). -/
  | setStart (level : Bool)
  /-- Assert or release reset (rule R260). -/
  | setReset (level : Bool)
  deriving DecidableEq, Repr

/-- A host's move between two steps of the core. A write of the capture is refused while `busy = 1` (rules R70, R262): a model
gives the host no such move (assumption log 7). `read_bytes` and `start` may change at any time (rules R209, R262; DEDUCED,
safe, assumption log 8). Reset takes effect at the moment it is asserted, during a call too (rule R260). -/
def hostMove (mv : HostMove) (st : State) : Host.Outcome State Fault Refusal :=
  match mv with
  | .writeByte a v =>
    if st.busy then .refused .hostWriteWhileBusy else .next { st with cap := Memory.write st.cap a.toNat v }
  | .setReadBytes n => .next { st with readBytes := n }
  | .setStart level => .next { st with start := level }
  | .setReset level => .next (if level then { st.applyReset with rst := true } else { st with rst := false })

end Sys2Proof.Machine
end

