-- ==== Sys2Proof/Machine/Ports.lean ====
section
/-! DEFINITION. The output ports (10_state.md rule R29): a result port shows its register while its value is a result of the
call, and 0 otherwise (rule R32). -/

namespace Sys2Proof.Machine

/-- A result port: the register while the condition holds, else 0 (rule R32). -/
def gate {w : Nat} (valid : Bool) (v : BitVec w) : BitVec w := if valid then v else 0#w

/-- The failure code is ChecksumMismatch and the call has ended: the condition `err = 5` of the payload ports (rules R29, R32).
-/
def State.mismatch (st : State) : Bool :=
  decide (st.regs.stage = .failed) && decide (st.regs.err = some .checksumMismatch)

/-- Port `err`: 0 when `ok`, else the failure code, valid when `done = 1` (rules R28, R29). -/
def State.errPort (st : State) : BitVec 3 := gate (st.done && !st.ok) (errCode st.regs.err)

/-- Port `power_kw`. -/
def State.powerKwPort (st : State) : F64 := gate st.ok st.regs.powerKw

/-- Port `packet`: byte 0 in bits 63:56 (rule R88). -/
def State.packetPort (st : State) : BitVec 64 := gate st.ok (packetWord st.regs.packet)

/-- Port `quality`. -/
def State.qualityPort (st : State) : BitVec 9 := gate st.ok st.regs.quality

/-- Port `csum_expected`. -/
def State.csumExpectedPort (st : State) : Byte := gate st.mismatch st.regs.csumExpected

/-- Port `csum_actual`. -/
def State.csumActualPort (st : State) : Byte := gate st.mismatch st.regs.csumActual

/-- Diagnostic port `pre_end` (60_exceptions.md rule R243). -/
def State.preEndPort (st : State) : BitOffset := gate st.ok st.regs.preEnd

/-- Diagnostic port `sync_end` (rule R243). -/
def State.syncEndPort (st : State) : BitOffset := gate st.ok st.regs.syncEnd

/-- Diagnostic port `demod_end` (rule R243). -/
def State.demodEndPort (st : State) : BitOffset := gate st.ok st.regs.demodEnd

/-- The outcome the host reads when `done = 1` (rules R211, R263). -/
def State.outcome (st : State) : Option CallOutcome := st.regs.outcome

end Sys2Proof.Machine
end

