-- ==== Sys2Proof/Safety.lean ====
section
/-! DEFINITION. What a safe run is: the invariant that rules out the states no run reaches, and the step that neither faults nor
is refused. The invariant is read from the ranges of 10_state.md rules R22 and R24, the offsets of rules R27 and R214, the
invariants of rule R37, and the loop invariants of rules R129, R146, R166 and R179; it is the model's own wording of them. -/

namespace Sys2Proof.Machine

/-- Every register is in the range that rule R22 gives it (rule R24). `vlen`, `acc`, `sum`, `k`, the packet and the two checksum
registers take every value of their widths, and `stage` and `err` are enumerations. -/
structure Regs.InRange (r : Regs) : Prop where
  sub_le : r.sub.toNat ≤ 4
  blen_le : r.blen.toNat ≤ 1024
  blen_bytes : r.blen.toNat % 8 = 0
  s_le : r.s.toNat ≤ 993
  pos_le : r.pos.toNat ≤ r.blen.toNat
  q_le : r.q.toNat ≤ 256
  preEnd_range : r.preEnd.toNat = 0 ∨ 32 ≤ r.preEnd.toNat ∧ r.preEnd.toNat ≤ 1024
  quality_range : r.quality.toNat = 0 ∨ 8 ≤ r.quality.toNat ∧ r.quality.toNat ≤ 256
  syncEnd_range : r.syncEnd.toNat = 0 ∨ 48 ≤ r.syncEnd.toNat ∧ r.syncEnd.toNat ≤ 1024
  zeros_le : r.zeros.toNat ≤ 976
  ones_le : r.ones.toNat ≤ 976
  nbits_le : r.nbits.toNat ≤ 64
  demodEnd_range : r.demodEnd.toNat = 0 ∨ 176 ≤ r.demodEnd.toNat ∧ r.demodEnd.toNat ≤ 1024

/-- The call passed its entry check and has not failed (rule R207): `1 <= vlen <= 128`, `blen = 8 * vlen`, `err = 0`. -/
structure Regs.Entered (r : Regs) : Prop where
  vlen_pos : 1 ≤ r.vlen.toNat
  vlen_le : r.vlen.toNat ≤ 128
  blen_eq : r.blen.toNat = 8 * r.vlen.toNat
  err_none : r.err = none

/-- PREAMBLE has accepted a candidate (rule R130 (a), (b), (g)). -/
structure Regs.PreambleDone (r : Regs) : Prop where
  entered : r.Entered
  quality_ge : 8 ≤ r.quality.toNat
  quality_le : r.quality.toNat ≤ 256
  preEnd_eq : r.preEnd.toNat = r.s.toNat + 4 * r.quality.toNat
  preEnd_le : r.preEnd.toNat ≤ r.blen.toNat

/-- SYNC has matched the marker (rule R147 (a)). -/
structure Regs.SyncDone (r : Regs) : Prop where
  preamble : r.PreambleDone
  syncEnd_ge : r.preEnd.toNat + 16 ≤ r.syncEnd.toNat
  syncEnd_le : r.syncEnd.toNat ≤ r.blen.toNat

/-- DEMOD has packed 64 bits (rule R167 (a), (c)). -/
structure Regs.DemodDone (r : Regs) : Prop where
  sync : r.SyncDone
  demodEnd_ge : r.syncEnd.toNat + 128 ≤ r.demodEnd.toNat
  demodEnd_le : r.demodEnd.toNat ≤ r.blen.toNat

/-- CHECKSUM has passed (rule R37 (a)). -/
structure Regs.ChecksumDone (r : Regs) : Prop where
  demod : r.DemodDone
  checksum_eq : Functional.sumOf r.packet = packetByte r.packet 7

/-- The sum of the first `k` packet bytes modulo 256: what `sum` holds at a K_ADD step (rule R179 (a)). -/
def partialSum (p : Vector Byte 8) (k : Nat) : Byte :=
  BitVec.ofNat 8 (((List.range k).map fun i => (packetByte p i).toNat).sum % 256)

/-- The loop invariants of PREAMBLE (rule R129). -/
def Regs.InPreamble (r : Regs) : Prop :=
  match r.sub.toNat with
  | 0 => r.s.toNat = 0 ∨ r.s.toNat + 31 ≤ r.blen.toNat
  | 1 => r.s.toNat + 32 ≤ r.blen.toNat ∧ r.pos.toNat = r.s.toNat + 4 * r.q.toNat
  | 2 => r.s.toNat + 32 ≤ r.blen.toNat ∧ r.pos.toNat = r.s.toNat + 4 * r.q.toNat
  | _ => False

/-- The loop invariants of SYNC (rule R146): the accumulator holds no more bits than have been shifted in. -/
def Regs.InSync (r : Regs) : Prop :=
  match r.sub.toNat with
  | 0 => True
  | 1 => r.preEnd.toNat ≤ r.pos.toNat ∧ r.acc.toNat < 2 ^ (r.pos.toNat - r.preEnd.toNat)
  | _ => False

/-- The loop invariants of DEMOD (rule R166): every symbol packed took at least two bits, and the runs are counted from bits. -/
def Regs.InDemod (r : Regs) : Prop :=
  match r.sub.toNat with
  | 0 => True
  | 1 => r.syncEnd.toNat + 2 * r.nbits.toNat ≤ r.pos.toNat
  | 2 => r.nbits.toNat < 64 ∧ r.ones.toNat = 0 ∧ r.syncEnd.toNat + 2 * r.nbits.toNat + r.zeros.toNat ≤ r.pos.toNat
  | 3 => r.nbits.toNat < 64 ∧ r.syncEnd.toNat + 2 * r.nbits.toNat + r.zeros.toNat + r.ones.toNat ≤ r.pos.toNat
  | 4 => r.nbits.toNat < 64 ∧ r.syncEnd.toNat + 2 * r.nbits.toNat + r.zeros.toNat + r.ones.toNat ≤ r.pos.toNat
  | _ => False

/-- The loop invariants of CHECKSUM (rule R179 (a)). -/
def Regs.InChecksum (r : Regs) : Prop :=
  match r.sub.toNat with
  | 0 => True
  | 1 => r.sum = partialSum r.packet r.k.toNat
  | 2 => r.sum = partialSum r.packet 7
  | _ => False

/-- A failed call: `sub = 0`, exactly one of the five kinds in `err`; NotEnoughData only for a count that the entry check
rejects (rule R231), and a checksum failure reports the recomputed sum and byte 7, which differ (rule R235). -/
structure Regs.FailedCall (r : Regs) : Prop where
  sub_zero : r.sub = 0#3
  err_some : r.err ≠ none
  entry : r.err = some .notEnoughData ↔ entryCheck r.vlen.toNat = false
  mismatch : r.err = some .checksumMismatch →
    r.csumExpected = Functional.sumOf r.packet ∧ r.csumActual = packetByte r.packet 7 ∧ r.csumExpected ≠ r.csumActual

/-- What holds of the registers in each stage. -/
def Regs.InStage (r : Regs) : Prop :=
  match r.stage with
  | .idle => r = Regs.reset
  | .start => r.Entered ∧ r.InPreamble
  | .preambleFound => r.PreambleDone ∧ r.InSync
  | .syncFound => r.SyncDone ∧ r.InDemod
  | .symbolsDemodulated => r.DemodDone ∧ r.InChecksum
  | .checksumVerified => r.ChecksumDone ∧ r.sub = 0#3
  | .done => r.ChecksumDone ∧ r.sub = 0#3 ∧ r.powerKw = Functional.value Config.kNeg1 r.packet
  | .failed => r.FailedCall

/-- The invariant: the capture is in canonical form, every register holds its reset value while reset is asserted (rule R260),
every register is in its range, and the registers are as the stage says. -/
structure State.Inv (st : State) : Prop where
  cap_wf : Memory.wf st.cap = true
  held : st.rst = true → st.regs = Regs.reset
  range : st.regs.InRange
  stage : st.regs.InStage

/-- No BITAT is presented on the model's own request wires: the spec's machine has none (assumption log 3). -/
def State.noRequest (st : State) : Bool :=
  match st.bitat with
  | .request _ => false
  | _ => true

/-- A step that neither faults nor is refused. -/
def State.Safe (st : State) : Prop := ∃ t, step st = .next t

/-- The next step is a start step (rule R209): reset released, `start = 1` in Idle, Done or Failed. -/
def State.startsCall (st : State) : Bool :=
  !st.rst && st.noRequest && st.sampled

/-- The states that the two agents can bring about (rule R20): reset, then the core's steps and the host's moves in any order.
-/
inductive Reachable : State → Prop where
  | reset : Reachable State.reset
  | step {st t : State} : Reachable st → Machine.step st = .next t → Reachable t
  | host {st t : State} (mv : HostMove) : Reachable st → hostMove mv st = .next t → Reachable t

/-- `n` steps lead from `st` to `t`, and the core is busy in every state strictly between. -/
def runsBusyTo (n : Nat) (st t : State) : Prop :=
  Host.Core.run Sys2Proof.core n st = .next t ∧
    ∀ j, 0 < j → j < n → ∃ u, Host.Core.run Sys2Proof.core j st = .next u ∧ u.busy = true

end Sys2Proof.Machine
end

