-- ==== Sys2Proof/Certificates/Slice0/Obligations.lean ====
section
/-! DEFINITION. The statements about the decode core, for the provers. Each docstring names the rules of spec/ that its
statement is read from. The sign of a bit pattern, its range and the rounding are said of naturals: the value of a binary64
pattern `x` is `Binary64.num x / Binary64.den`. -/

open Sys2Proof Sys2Proof.Machine

/-! ### Encodings -/

/-- Decoding the encoding of a well-formed operation gives it back, and each word of a format that decodes is the encoding of
the one well-formed operation it decodes to (rules R80, R81, R90, R91). -/
def Obligations.DecodeEncodeAgree : Prop :=
  (∀ i : Instr, i.wf = true → decode (encode i).1 (encode i).2 = .ok i) ∧
    ∀ (f : Format) (w : Nat) (i : Instr), decode f w = .ok i → i.wf = true ∧ encode i = (f, w)

/-- Words written out from rules R81, R90 and R91 decode to the operations they stand for, one for each row of the table (a
sanity statement). -/
def Obligations.TableWordsDecode : Prop :=
  decode .call 0b100010110 = .ok (.decode 22#8) ∧
    decode .bitIdx 0b0000010111 = .ok (.bitat 2#7 7#3) ∧
    decode .stage 0b000000 = .ok (.holdIdle 0#3) ∧
    decode .stage 0b001001 = .ok (.preamble 1#3) ∧
    decode .stage 0b010001 = .ok (.sync 1#3) ∧
    decode .stage 0b011100 = .ok (.demod 4#3) ∧
    decode .stage 0b100010 = .ok (.checksum 2#3) ∧
    decode .stage 0b101000 = .ok (.value 0#3) ∧
    decode .stage 0b110000 = .ok (.holdDone 0#3) ∧
    decode .stage 0b111000 = .ok (.holdFailed 0#3) ∧
    decode .call 0b000010110 = .error .noStart ∧
    decode .stage 0b001011 = .error .unlistedSubState

/-! ### The step -/

/-- A step is `exec` of the operation that is selected: the command where `start` is sampled, else the operation of the stage
and sub-state registers where rule R91 lists the pair, a BITAT where one stands on the model's own request wires (assumption log
3); asserted reset comes first (rules R80, R209, R260). -/
def Obligations.StepRunsSelectedOperation : Prop :=
  ∀ st : State,
    (st.rst = true → step st = .next { st with regs := Regs.reset }) ∧
    (st.rst = false →
      (∀ i : BitVec 10, st.bitat = .request i → step st = exec (.bitat (i.extractLsb' 3 7) (i.extractLsb' 0 3)) st) ∧
      (st.noRequest = true →
        (st.busy = false → st.regs.sub = 0#3 → st.start = true → step st = exec (.decode st.readBytes) st) ∧
        (st.busy = true ∨ st.start = false → st.regs.stage.lists st.regs.sub = true →
          step st = exec (st.regs.stage.operation st.regs.sub) st)))

/-- Where a table row's word is placed for the next step and decodes to an operation, the step is `exec` of that operation. The
placing and the byte form are the model's choice (assumption log 4). -/
def Obligations.PlacedWordRuns : Prop :=
  ∀ (st : State) (nbits w : Nat) (i : Instr), decodeTableWord nbits w = some i →
    step (st.withFetchWord nbits w) = exec i (st.withFetchWord nbits w)

/-- A (stage, sub) pair that rule R91 does not list has no step (rule R92 (d)), and the operation of such a pair is refused by
its own meaning too. That a command beside such a pair changes nothing of this is the model's choice (assumption log 11). -/
def Obligations.UnlistedPairsHaveNoStep : Prop :=
  (∀ st : State, st.rst = false → st.noRequest = true → st.regs.stage.lists st.regs.sub = false →
      step st = .refused .unlistedSubState) ∧
    (∀ (g : Stage) (sub : BitVec 3) (st : State), g.lists sub = false →
      exec (g.operation sub) st = .refused .unlistedSubState) ∧
    ∀ (g : Stage) (sub : BitVec 3),
      g.lists sub = true ↔ (g, sub.toNat) ∈
        [(Stage.idle, 0), (Stage.start, 0), (Stage.start, 1), (Stage.start, 2), (Stage.preambleFound, 0),
          (Stage.preambleFound, 1), (Stage.syncFound, 0), (Stage.syncFound, 1), (Stage.syncFound, 2), (Stage.syncFound, 3),
          (Stage.syncFound, 4), (Stage.symbolsDemodulated, 0), (Stage.symbolsDemodulated, 1), (Stage.symbolsDemodulated, 2),
          (Stage.checksumVerified, 0), (Stage.done, 0), (Stage.failed, 0)]

/-- In the five busy stages the command inputs are not sampled: a step does the same whatever `start` and `read_bytes` are, and
does not remember them (rules R209, R262, R264). -/
def Obligations.CommandIgnoredWhileBusy : Prop :=
  ∀ (st t : State) (b : Bool) (n : BitVec 8), st.busy = true → step st = .next t →
    step { st with start := b, readBytes := n } = .next { t with start := b, readBytes := n }

/-- The core never writes the capture (rule R63), and never the inputs, which the host drives (rules R21, R29): no operation does and
no step does. That it never clears `start` is the model's choice (assumption log 5). -/
def Obligations.CoreNeverWritesCapture : Prop :=
  (∀ (i : Instr) (st t : State), exec i st = .next t →
      t.cap = st.cap ∧ t.rst = st.rst ∧ t.start = st.start ∧ t.readBytes = st.readBytes) ∧
    ∀ st t : State, step st = .next t →
      t.cap = st.cap ∧ t.rst = st.rst ∧ t.start = st.start ∧ t.readBytes = st.readBytes

/-- A stage's operation writes only that stage's own working and result registers, `sub`, and on leaving `stage` and `err`; what
other stages produced stays (rule R23). The BITAT wires stay too. -/
def Obligations.StagesWriteOnlyTheirRegisters : Prop :=
  ∀ (sub : BitVec 3) (st t : State),
    (exec (.preamble sub) st = .next t →
      t = { st with regs := { st.regs with
        stage := t.regs.stage, sub := t.regs.sub, err := t.regs.err, s := t.regs.s, pos := t.regs.pos, q := t.regs.q,
        preEnd := t.regs.preEnd, quality := t.regs.quality } }) ∧
    (exec (.sync sub) st = .next t →
      t = { st with regs := { st.regs with
        stage := t.regs.stage, sub := t.regs.sub, err := t.regs.err, pos := t.regs.pos, acc := t.regs.acc,
        syncEnd := t.regs.syncEnd } }) ∧
    (exec (.demod sub) st = .next t →
      t = { st with regs := { st.regs with
        stage := t.regs.stage, sub := t.regs.sub, err := t.regs.err, pos := t.regs.pos, zeros := t.regs.zeros,
        ones := t.regs.ones, nbits := t.regs.nbits, packet := t.regs.packet, demodEnd := t.regs.demodEnd } }) ∧
    (exec (.checksum sub) st = .next t →
      t = { st with regs := { st.regs with
        stage := t.regs.stage, sub := t.regs.sub, err := t.regs.err, sum := t.regs.sum, k := t.regs.k,
        csumExpected := t.regs.csumExpected, csumActual := t.regs.csumActual } }) ∧
    (exec (.value sub) st = .next t →
      t = { st with regs := { st.regs with stage := t.regs.stage, sub := t.regs.sub, powerKw := t.regs.powerKw } })

/-- The transitions of `stage` (rule R208): a step out of reset keeps `stage` or takes one of the listed transitions, with
`sub = 0` on every change; the transitions out of a holding state are start steps. -/
def Obligations.StageTransitions : Prop :=
  ∀ st t : State, st.rst = false → step st = .next t → t.regs.stage ≠ st.regs.stage →
    t.regs.sub = 0#3 ∧
    (st.busy = false → st.sampled = true) ∧
    (st.regs.stage, t.regs.stage) ∈
      [(Stage.idle, Stage.start), (Stage.done, Stage.start), (Stage.failed, Stage.start), (Stage.idle, Stage.failed),
        (Stage.done, Stage.failed), (Stage.start, Stage.preambleFound), (Stage.start, Stage.failed),
        (Stage.preambleFound, Stage.syncFound), (Stage.preambleFound, Stage.failed),
        (Stage.syncFound, Stage.symbolsDemodulated), (Stage.syncFound, Stage.failed),
        (Stage.symbolsDemodulated, Stage.checksumVerified), (Stage.symbolsDemodulated, Stage.failed),
        (Stage.checksumVerified, Stage.done)]

/-- Error multiplexing (rule R210): a call that a busy stage fails, fails with that stage's one kind; VALUE cannot fail. No
register but `err`, `stage` and `sub` is written by the failing step, apart from the two payload registers (rule R236). -/
def Obligations.FailureKindFollowsStage : Prop :=
  ∀ st t : State, st.rst = false → st.busy = true → step st = .next t → t.regs.stage = .failed →
    (st.regs.stage, t.regs.err) ∈
      [(Stage.start, some ErrKind.preambleNotFound), (Stage.preambleFound, some ErrKind.syncNotFound),
        (Stage.syncFound, some ErrKind.insufficientSymbols), (Stage.symbolsDemodulated, some ErrKind.checksumMismatch)] ∧
    t.regs = { st.regs with
      err := t.regs.err, stage := .failed, sub := 0#3,
      csumExpected := t.regs.csumExpected, csumActual := t.regs.csumActual } ∧
    (t.regs.err ≠ some .checksumMismatch →
      t.regs.csumExpected = st.regs.csumExpected ∧ t.regs.csumActual = st.regs.csumActual)

/-! ### DECODE, the holding states, BITAT -/

/-- The start step (rules R207, R209): the command in a stage that is not busy writes every register to its reset value, then
`vlen`, and then either `blen` and Start, or NotEnoughData; the inputs and the capture stay. -/
def Obligations.StartStep : Prop :=
  ∀ (n : BitVec 8) (st : State), st.busy = false →
    exec (.decode n) st = .next (st.withRegs (
      if n.toNat = 0 ∨ 128 < n.toNat then
        { Regs.reset with vlen := n, err := some .notEnoughData, stage := .failed, sub := 0#3 }
      else
        { Regs.reset with vlen := n, blen := BitVec.ofNat 11 (8 * n.toNat), stage := .start, sub := 0#3, s := 0#11, err := none }))

/-- The command while `busy = 1` is no operation (rule R92 (b)). -/
def Obligations.CommandWhileBusyIsNoOperation : Prop :=
  ∀ (n : BitVec 8) (st : State), st.busy = true → exec (.decode n) st = .next st

/-- The holding states (rule R212): with `start = 0` a step changes nothing, and each holding operation answers the state it was
given; the core is in Idle after a step only if it was there before, or by reset. -/
def Obligations.HoldingStatesHold : Prop :=
  (∀ st : State, exec (.holdIdle 0#3) st = .next st ∧ exec (.holdDone 0#3) st = .next st ∧ exec (.holdFailed 0#3) st = .next st) ∧
    (∀ st : State, st.rst = false → st.noRequest = true → st.busy = false → st.regs.sub = 0#3 → st.start = false →
      step st = .next st) ∧
    ∀ st t : State, st.rst = false → step st = .next t → t.regs.stage = .idle → st.regs.stage = .idle

/-- No state survives from one call to the next (rule R35): the registers that a start step leaves are the same whatever the
registers were. -/
def Obligations.StartStepForgetsRegisters : Prop :=
  ∀ (st st' : State), st.startsCall = true → st'.startsCall = true → st.readBytes = st'.readBytes →
    ∃ r : Regs, step st = .next { st with regs := r } ∧ step st' = .next { st' with regs := r }

/-- `BITAT i` (rules R110, R111), with `i = 8a + j`: below `blen` its result is bit `7 - j` of byte `a`, and no register and no
byte of the capture changes (the result stands on the model's own wires, assumption log 3); at or above `blen` it faults. -/
def Obligations.BitatReadsOneBit : Prop :=
  ∀ (a : BitVec 7) (j : BitVec 3) (st : State),
    (8 * a.toNat + j.toNat < st.regs.blen.toNat →
      ∃ b : Bit, b.toNat = (Memory.read st.cap a.toNat).toNat / 2 ^ (7 - j.toNat) % 2 ∧
        exec (.bitat a j) st = .next { st with bitat := .result (BitVec.ofNat 10 (8 * a.toNat + j.toNat)) b }) ∧
    (st.regs.blen.toNat ≤ 8 * a.toNat + j.toNat → exec (.bitat a j) st = .fault .bitIndexOutOfRange)

/-- The capture as one big-endian bit string (rules R61, R8): bit index `8a + j` is bit `7 - j` of byte `a`. -/
def Obligations.BitOrderMostSignificantFirst : Prop :=
  ∀ (m : List Host.Cell) (a j : Nat), j ≤ 7 →
    captureBit m (8 * a + j) = BitVec.ofBool ((Memory.read m a).getLsbD (7 - j))

/-- QUAD (rule R112): where four valid bits remain it is four BITAT, the first most significant; where not, it faults. -/
def Obligations.QuadIsFourBits : Prop :=
  ∀ (m : List Host.Cell) (blen i : Nat), blen ≤ 1024 →
    (i + 4 ≤ blen → ∃ b0 b1 b2 b3 : Bit,
      bitAt m blen i = .ok b0 ∧ bitAt m blen (i + 1) = .ok b1 ∧ bitAt m blen (i + 2) = .ok b2 ∧ bitAt m blen (i + 3) = .ok b3 ∧
      quad m blen i = .ok (b0 ++ b1 ++ b2 ++ b3)) ∧
    (blen < i + 4 → quad m blen i = .error .bitIndexOutOfRange)

/-! ### The micro-steps -/

/-- The micro-steps of PREAMBLE (rules R126, R127, R128), each for every state; P_WALK for a bit length within the capture. -/
def Obligations.PreambleMicroSteps : Prop :=
  ∀ st : State,
    exec (.preamble 0#3) st = .next (st.withRegs (
      if st.regs.s.toNat + 32 ≤ st.regs.blen.toNat then { st.regs with pos := st.regs.s, q := 0#9, sub := 1#3 }
      else { st.regs with err := some .preambleNotFound, stage := .failed, sub := 0#3 })) ∧
    (st.regs.blen.toNat ≤ 1024 →
      exec (.preamble 1#3) st = .next (st.withRegs (
        if st.regs.pos.toNat + 4 ≤ st.regs.blen.toNat ∧
            captureBit st.cap st.regs.pos.toNat = 1#1 ∧ captureBit st.cap (st.regs.pos.toNat + 1) = 1#1 ∧
            captureBit st.cap (st.regs.pos.toNat + 2) = 0#1 ∧ captureBit st.cap (st.regs.pos.toNat + 3) = 0#1 then
          { st.regs with q := st.regs.q + 1#9, pos := st.regs.pos + 4#11 }
        else { st.regs with sub := 2#3 }))) ∧
    exec (.preamble 2#3) st = .next (st.withRegs (
      if 8 ≤ st.regs.q.toNat then
        { st.regs with preEnd := st.regs.pos, quality := st.regs.q, stage := .preambleFound, sub := 0#3 }
      else { st.regs with s := st.regs.s + 1#11, sub := 0#3 }))

/-- The micro-steps of SYNC (rules R144, R145); S_CHECK where `pre_end <= blen`, as rule R144's subtraction presumes, S_SHIFT
for a bit length within the capture. -/
def Obligations.SyncMicroSteps : Prop :=
  ∀ st : State,
    (st.regs.preEnd.toNat ≤ st.regs.blen.toNat →
      exec (.sync 0#3) st = .next (st.withRegs (
        if st.regs.blen.toNat - st.regs.preEnd.toNat < 16 then
          { st.regs with err := some .syncNotFound, stage := .failed, sub := 0#3 }
        else { st.regs with pos := st.regs.preEnd, acc := 0#16, sub := 1#3 }))) ∧
    (st.regs.blen.toNat ≤ 1024 →
      exec (.sync 1#3) st = .next (st.withRegs (
        if st.regs.pos.toNat < st.regs.blen.toNat then
          let acc' := BitVec.ofNat 16 (st.regs.acc.toNat * 2 + (captureBit st.cap st.regs.pos.toNat).toNat)
          if acc' = 0xFFFF#16 then
            { st.regs with acc := acc', pos := st.regs.pos + 1#11, syncEnd := st.regs.pos + 1#11, stage := .syncFound, sub := 0#3 }
          else { st.regs with acc := acc', pos := st.regs.pos + 1#11 }
        else { st.regs with err := some .syncNotFound, stage := .failed, sub := 0#3 })))

/-- The micro-steps of DEMOD (rules R161 to R165); M_ZEROS and M_ONES for a bit length within the capture. -/
def Obligations.DemodMicroSteps : Prop :=
  ∀ st : State,
    exec (.demod 0#3) st = .next (st.withRegs (
      { st.regs with pos := st.regs.syncEnd, nbits := 0#7, packet := Vector.replicate 8 0#8, sub := 1#3 })) ∧
    exec (.demod 1#3) st = .next (st.withRegs (
      if st.regs.nbits.toNat = 64 then { st.regs with demodEnd := st.regs.pos, stage := .symbolsDemodulated, sub := 0#3 }
      else if st.regs.blen.toNat ≤ st.regs.pos.toNat then
        { st.regs with err := some .insufficientSymbols, stage := .failed, sub := 0#3 }
      else { st.regs with zeros := 0#11, ones := 0#11, sub := 2#3 })) ∧
    (st.regs.blen.toNat ≤ 1024 →
      exec (.demod 2#3) st = .next (st.withRegs (
        if st.regs.pos.toNat < st.regs.blen.toNat ∧ captureBit st.cap st.regs.pos.toNat = 0#1 then
          { st.regs with zeros := st.regs.zeros + 1#11, pos := st.regs.pos + 1#11 }
        else { st.regs with sub := 3#3 }))) ∧
    (st.regs.blen.toNat ≤ 1024 →
      exec (.demod 3#3) st = .next (st.withRegs (
        if st.regs.pos.toNat < st.regs.blen.toNat ∧ captureBit st.cap st.regs.pos.toNat = 1#1 then
          { st.regs with ones := st.regs.ones + 1#11, pos := st.regs.pos + 1#11 }
        else { st.regs with sub := 4#3 }))) ∧
    exec (.demod 4#3) st = .next (st.withRegs (
      if st.regs.zeros.toNat = 0 ∨ st.regs.ones.toNat = 0 then
        { st.regs with err := some .insufficientSymbols, stage := .failed, sub := 0#3 }
      else
        { st.regs with
          packet := packBit st.regs.packet st.regs.nbits.toNat
            (if st.regs.ones.toNat ≤ st.regs.zeros.toNat then 0#1 else 1#1)
          nbits := st.regs.nbits + 1#7
          sub := 1#3 }))

/-- Packing (rules R160, R165): data bit `n` is added, times `2^(7 - (n mod 8))`, to `packet[floor(n / 8)]`, and no other byte
changes. -/
def Obligations.PackingAddsOneBit : Prop :=
  ∀ (p : Vector Byte 8) (n k : Nat) (b : Bit), n < 64 → k < 8 →
    packetByte (packBit p n b) k =
      if k = n / 8 then packetByte p k + BitVec.ofNat 8 (b.toNat * 2 ^ (7 - n % 8)) else packetByte p k

/-- The micro-steps of CHECKSUM (rules R176, R177, R178), for every state. -/
def Obligations.ChecksumMicroSteps : Prop :=
  ∀ st : State,
    exec (.checksum 0#3) st = .next { st with regs := { st.regs with sum := 0#8, k := 0#3, sub := 1#3 } } ∧
    exec (.checksum 1#3) st = .next (st.withRegs (
      if st.regs.k.toNat < 7 then
        { st.regs with
          sum := BitVec.ofNat 8 (st.regs.sum.toNat + (packetByte st.regs.packet st.regs.k.toNat).toNat)
          k := st.regs.k + 1#3 }
      else { st.regs with sub := 2#3 })) ∧
    exec (.checksum 2#3) st = .next (st.withRegs (
      if st.regs.sum = packetByte st.regs.packet 7 then { st.regs with stage := .checksumVerified, sub := 0#3 }
      else
        { st.regs with
          csumExpected := st.regs.sum, csumActual := packetByte st.regs.packet 7
          err := some .checksumMismatch, stage := .failed, sub := 0#3 }))

/-- The micro-step of VALUE (rule R196), for every state: `power_kw` takes the value of the packet, with the open parameter
`K_NEG1` (rule R190, assumption log 1), and the stage is Done. -/
def Obligations.ValueMicroStep : Prop :=
  ∀ st : State,
    exec (.value 0#3) st = .next (st.withRegs (
      { st.regs with powerKw := Functional.value Config.kNeg1 st.regs.packet, stage := .done, sub := 0#3 }))

/-! ### The stages as functions -/

/-- The micro-steps of PREAMBLE compute its functional rule (rules R120, R129), within 10189 steps. -/
def Obligations.PreambleStepsComputeFunction : Prop :=
  ∀ st : State, st.Inv → st.rst = false → st.noRequest = true → st.regs.stage = .start → st.regs.sub = 0#3 →
    st.regs.s = 0#11 →
    ∃ (n : Nat) (t : State), n ≤ 10189 ∧ runsBusyTo n st t ∧
      match Functional.preamble st.cap st.regs.blen.toNat with
      | some (preEnd, quality) =>
        t.regs.stage = .preambleFound ∧ t.regs.preEnd.toNat = preEnd ∧ t.regs.quality.toNat = quality
      | none =>
        t.regs.stage = .failed ∧ t.regs.err = some .preambleNotFound ∧ t.regs.preEnd = st.regs.preEnd ∧
          t.regs.quality = st.regs.quality

/-- The micro-steps of SYNC compute its functional rule: the rolling accumulator finds the first window (rules R140, R142,
R146), within 994 steps. -/
def Obligations.SyncStepsComputeFunction : Prop :=
  ∀ st : State, st.Inv → st.rst = false → st.noRequest = true → st.regs.stage = .preambleFound → st.regs.sub = 0#3 →
    ∃ (n : Nat) (t : State), n ≤ 994 ∧ runsBusyTo n st t ∧
      match Functional.sync st.cap st.regs.blen.toNat st.regs.preEnd.toNat with
      | some syncEnd => t.regs.stage = .syncFound ∧ t.regs.syncEnd.toNat = syncEnd
      | none => t.regs.stage = .failed ∧ t.regs.err = some .syncNotFound ∧ t.regs.syncEnd = st.regs.syncEnd

/-- The micro-steps of DEMOD compute its functional rule (rules R155, R166), within 1237 steps. -/
def Obligations.DemodStepsComputeFunction : Prop :=
  ∀ st : State, st.Inv → st.rst = false → st.noRequest = true → st.regs.stage = .syncFound → st.regs.sub = 0#3 →
    ∃ (n : Nat) (t : State), n ≤ 1237 ∧ runsBusyTo n st t ∧
      match Functional.demod st.cap st.regs.blen.toNat st.regs.syncEnd.toNat with
      | some (packet, demodEnd) =>
        t.regs.stage = .symbolsDemodulated ∧ t.regs.packet = packet ∧ t.regs.demodEnd.toNat = demodEnd
      | none => t.regs.stage = .failed ∧ t.regs.err = some .insufficientSymbols

/-- The micro-steps of CHECKSUM compute its functional rule (rules R175, R179 (a)) in exactly 10 steps (rule R178). -/
def Obligations.ChecksumStepsComputeFunction : Prop :=
  ∀ st : State, st.rst = false → st.noRequest = true → st.regs.stage = .symbolsDemodulated → st.regs.sub = 0#3 →
    ∃ t : State, runsBusyTo 10 st t ∧ t.regs.packet = st.regs.packet ∧
      match Functional.checksum st.regs.packet with
      | none => t.regs.stage = .checksumVerified
      | some (expected, actual) =>
        t.regs.stage = .failed ∧ t.regs.err = some .checksumMismatch ∧ t.regs.csumExpected = expected ∧
          t.regs.csumActual = actual

/-- Every call ends, after at most 12432 steps counting its start step, and the outcome then read from the registers is the
function of the call's count and capture (rules R205, R211, R216), whatever the open parameter `K_NEG1` is. -/
def Obligations.CallComputesDecodeFunction : Prop :=
  ∀ st : State, st.startsCall = true →
    ∃ (n : Nat) (t : State), 0 < n ∧ n ≤ 12432 ∧ runsBusyTo n st t ∧ t.done = true ∧ t.cap = st.cap ∧
      t.outcome = some (Functional.decode Config.kNeg1 st.readBytes.toNat st.cap)

/-! ### The functions of the call -/

/-- What PREAMBLE finds (rules R121 to R123, R130): the first start with eight matching quads in a row, its whole run, and the
position after it. -/
def Obligations.PreambleFindsFirstRun : Prop :=
  ∀ (m : List Host.Cell) (blen preEnd quality : Nat), blen ≤ 1024 →
    Functional.preamble m blen = some (preEnd, quality) →
    8 ≤ quality ∧ quality ≤ blen / 4 ∧ preEnd ≤ blen ∧
    (blen < preEnd + 4 ∨ Functional.quad m preEnd ≠ 0b1100#4) ∧
    captureBit m (preEnd - 1) = 0#1 ∧ captureBit m (preEnd - 2) = 0#1 ∧
    ∃ s0 : Nat, preEnd = s0 + 4 * quality ∧
      (∀ k, k < quality → Functional.quad m (s0 + 4 * k) = 0b1100#4) ∧
      (∀ s, s < s0 → ¬ ∀ k, k < 8 → Functional.quad m (s + 4 * k) = 0b1100#4) ∧
      (s0 < 4 ∨ Functional.quad m (s0 - 4) ≠ 0b1100#4)

/-- When PREAMBLE finds nothing (rules R124, R232): exactly when no start within the valid bits has eight matching quads in a
row. -/
def Obligations.PreambleNotFoundExactly : Prop :=
  ∀ (m : List Host.Cell) (blen : Nat), blen ≤ 1024 →
    (Functional.preamble m blen = none ↔
      ∀ s, s + 32 ≤ blen → ∃ k, k < 8 ∧ Functional.quad m (s + 4 * k) ≠ 0b1100#4)

/-- What SYNC finds (rules R140, R143, R147, R233): exactly the end of the first window of sixteen 1 bits at or after `p`. -/
def Obligations.SyncFindsFirstWindow : Prop :=
  ∀ (m : List Host.Cell) (blen p : Nat), blen ≤ 1024 → p ≤ blen →
    (∀ syncEnd, Functional.sync m blen p = some syncEnd ↔
      p + 16 ≤ syncEnd ∧ syncEnd ≤ blen ∧ (∀ i, i < 16 → captureBit m (syncEnd - 16 + i) = 1#1) ∧
        ∀ j, p ≤ j → j + 16 < syncEnd → ∃ i, i < 16 ∧ captureBit m (j + i) = 0#1) ∧
    (Functional.sync m blen p = none ↔
      ∀ j, p ≤ j → j + 16 ≤ blen → ∃ i, i < 16 ∧ captureBit m (j + i) = 0#1)

/-- Whether a walk stops at eight quads or at the first mismatch does not change what SYNC finds (rule R131). -/
def Obligations.SyncIndependentOfWalkReading : Prop :=
  ∀ (m : List Host.Cell) (blen preEnd quality : Nat), blen ≤ 1024 →
    Functional.preamble m blen = some (preEnd, quality) →
    Functional.sync m blen preEnd = Functional.sync m blen (preEnd - 4 * quality + 32)

/-- What DEMOD finds (rules R159, R167): 64 symbols of at least two bits each from a first 0 bit on, the last ones run ended by
a 0 bit or by the end of the valid bits. -/
def Obligations.DemodFoundProperties : Prop :=
  ∀ (m : List Host.Cell) (blen p : Nat) (packet : Vector Byte 8) (demodEnd : Nat), blen ≤ 1024 →
    Functional.demod m blen p = some (packet, demodEnd) →
    p + 128 ≤ demodEnd ∧ demodEnd ≤ blen ∧ captureBit m p = 0#1 ∧
      (demodEnd = blen ∨ captureBit m demodEnd = 0#1)

/-- The bits of 64 symbols (rules R85, R156, R158, R160, R168): where from `p` on the capture holds, for each data bit `n` in
turn, a run of `z n >= 1` zeros and then a run of `o n >= 1` ones, and the last ones run ends at `blen` or before a 0 bit, DEMOD
packs data bit `n` into bit `7 - (n mod 8)` of byte `floor(n / 8)`, as 0 exactly when `z n >= o n`. `at n` is where symbol `n`
begins. -/
def Obligations.DemodPacksSymbols : Prop :=
  ∀ (m : List Host.Cell) (blen p : Nat) (z o at' : Nat → Nat), blen ≤ 1024 →
    at' 0 = p → at' 64 ≤ blen → (at' 64 = blen ∨ captureBit m (at' 64) = 0#1) →
    (∀ n, n < 64 → 1 ≤ z n ∧ 1 ≤ o n ∧ at' (n + 1) = at' n + z n + o n ∧
      (∀ i, i < z n → captureBit m (at' n + i) = 0#1) ∧ (∀ i, i < o n → captureBit m (at' n + z n + i) = 1#1)) →
    ∃ packet : Vector Byte 8, Functional.demod m blen p = some (packet, at' 64) ∧
      ∀ n, n < 64 → (packetByte packet (n / 8)).getLsbD (7 - n % 8) = decide (z n < o n)

/-- DEMOD reads nothing past the bit that ends symbol 64, and nothing past the valid bits (rules R66, R156, R159, R167): captures
that agree on the valid bits from `p` up to and including that bit give the same packet. That the bit which ends the symbol counts
as read is the model's reading (assumption log 13). -/
def Obligations.DemodIgnoresTrailingBits : Prop :=
  ∀ (m m' : List Host.Cell) (blen p : Nat) (packet : Vector Byte 8) (demodEnd : Nat), blen ≤ 1024 →
    Functional.demod m blen p = some (packet, demodEnd) →
    (∀ i, p ≤ i → i ≤ demodEnd → i < blen → captureBit m i = captureBit m' i) →
    Functional.demod m' blen p = some (packet, demodEnd)

/-- A single flipped bit in any of the eight bytes of a passing packet gives a mismatch (rule R179 (c)). -/
def Obligations.ChecksumCatchesSingleFlip : Prop :=
  ∀ (p p' : Vector Byte 8) (k j : Nat), k < 8 → j < 8 → Functional.checksum p = none →
    (∀ i, i < 8 → packetByte p' i = if i = k then packetByte p i ^^^ BitVec.ofNat 8 (2 ^ j) else packetByte p i) →
    Functional.checksum p' ≠ none

/-- CHECKSUM as its rule states it (rules R175, R235): the sum of bytes 0 to 6 modulo 256 against byte 7, and the two bytes of a
mismatch, which differ. -/
def Obligations.ChecksumComparesSum : Prop :=
  ∀ p : Vector Byte 8,
    (Functional.checksum p = none ↔
      ((packetByte p 0).toNat + (packetByte p 1).toNat + (packetByte p 2).toNat + (packetByte p 3).toNat +
        (packetByte p 4).toNat + (packetByte p 5).toNat + (packetByte p 6).toNat) % 256 = (packetByte p 7).toNat) ∧
    ∀ e a : Byte, Functional.checksum p = some (e, a) →
      e.toNat = ((packetByte p 0).toNat + (packetByte p 1).toNat + (packetByte p 2).toNat + (packetByte p 3).toNat +
        (packetByte p 4).toNat + (packetByte p 5).toNat + (packetByte p 6).toNat) % 256 ∧ a = packetByte p 7 ∧ e ≠ a

/-- The outcome of a call does not depend on the capture bytes at and past the count (rules R66, R213). -/
def Obligations.OutcomeIgnoresBytesPastCount : Prop :=
  ∀ (kNeg1 n : Nat) (m m' : List Host.Cell), (∀ a, a < n → Memory.read m a = Memory.read m' a) →
    Functional.decode kNeg1 n m = Functional.decode kNeg1 n m'

/-- Every successful call (rules R37, R214, R217): at least 22 and at most 128 valid bytes, a packet whose recomputed checksum
is its byte 7, a quality of at least 8, and the power reading of that packet. -/
def Obligations.SuccessProperties : Prop :=
  ∀ (kNeg1 n : Nat) (m : List Host.Cell) (powerKw : F64) (packet : Vector Byte 8) (quality : Nat),
    Functional.decode kNeg1 n m = .ok powerKw packet quality →
    22 ≤ n ∧ n ≤ 128 ∧ 8 ≤ quality ∧ quality ≤ 256 ∧ Functional.sumOf packet = packetByte packet 7 ∧
      powerKw = Functional.value kNeg1 packet

/-- Every frame of the shape of rule R87 decodes: (a) a first run of `q >= 8` matching quads from `s0`, ended by a quad that
does not match or by the valid bits; (b) the first window of sixteen 1 bits after it, at `j0`; (c), (d) from there 64 symbols,
as in `DemodPacksSymbols`, whose data bits are the bits of `packet`; (e) byte 7 the sum of the others. Nothing is assumed of the
other bits. -/
def Obligations.FrameDecodes : Prop :=
  ∀ (kNeg1 n : Nat) (m : List Host.Cell) (s0 q j0 : Nat) (z o at' : Nat → Nat) (packet : Vector Byte 8),
    1 ≤ n → n ≤ 128 →
    8 ≤ q → s0 + 4 * q ≤ 8 * n → (∀ k, k < q → Functional.quad m (s0 + 4 * k) = 0b1100#4) →
    (8 * n < s0 + 4 * q + 4 ∨ Functional.quad m (s0 + 4 * q) ≠ 0b1100#4) →
    (∀ s, s < s0 → ∃ k, k < 8 ∧ Functional.quad m (s + 4 * k) ≠ 0b1100#4) →
    s0 + 4 * q ≤ j0 → j0 + 16 ≤ 8 * n → (∀ i, i < 16 → captureBit m (j0 + i) = 1#1) →
    (∀ j, s0 + 4 * q ≤ j → j < j0 → ∃ i, i < 16 ∧ captureBit m (j + i) = 0#1) →
    at' 0 = j0 + 16 → at' 64 ≤ 8 * n → (at' 64 = 8 * n ∨ captureBit m (at' 64) = 0#1) →
    (∀ i, i < 64 → 1 ≤ z i ∧ 1 ≤ o i ∧ at' (i + 1) = at' i + z i + o i ∧
      (∀ x, x < z i → captureBit m (at' i + x) = 0#1) ∧ (∀ x, x < o i → captureBit m (at' i + z i + x) = 1#1)) →
    (∀ i, i < 64 → (packetByte packet (i / 8)).getLsbD (7 - i % 8) = decide (z i < o i)) →
    ((packetByte packet 0).toNat + (packetByte packet 1).toNat + (packetByte packet 2).toNat + (packetByte packet 3).toNat +
      (packetByte packet 4).toNat + (packetByte packet 5).toNat + (packetByte packet 6).toNat) % 256 =
        (packetByte packet 7).toNat →
    Functional.decode kNeg1 n m = .ok (Functional.value kNeg1 packet) packet q

/-- NotEnoughData is the outcome exactly of a count of 0 or above 128 (rules R207, R231), and 1 to 3 valid bytes give
PreambleNotFound (rules R132 (a), R232). -/
def Obligations.CountDecidesEntry : Prop :=
  ∀ (kNeg1 n : Nat) (m : List Host.Cell),
    (Functional.decode kNeg1 n m = .err .notEnoughData ↔ n = 0 ∨ 128 < n) ∧
    (1 ≤ n → n ≤ 3 → Functional.decode kNeg1 n m = .err .preambleNotFound)

/-! ### VALUE -/

/-- The constant of rule R191, and results of VALUE (a sanity statement): the example of rule R185 (mantissa 0x7EB8, byte 6 equal to
1), the two ends of the range of rule R194, and from section 2.6 of the test vectors mantissa 0x7EB8 with byte 6 equal to 0, with
`K_NEG1` taken as 3 (rule R190). -/
def Obligations.ValueExamples : Prop :=
  Functional.scale = 0x3FDEB6AE7D566CF4#64 ∧
    Binary64.num Functional.scale * 2 ^ 52 = 2161277461175101 * Binary64.den ∧
    Functional.value 0 (#v[0x39#8, 0x6B#8, 0x2E#8, 0x40#8, 0x7E#8, 0xB8#8, 0x01#8, 0x49#8]) = 0x3FDE67FA5E353F7D#64 ∧
    Functional.value 0 (#v[0#8, 0#8, 0#8, 0#8, 0xFF#8, 0xFF#8, 0xFF#8, 0#8]) = 0x4FCEB68FC6A7EF9E#64 ∧
    Functional.value 0 (#v[0#8, 0#8, 0#8, 0#8, 0x00#8, 0x01#8, 0x01#8, 0#8]) = 0x3EEEB6AE7D566CF4#64 ∧
    Functional.value 3 (#v[0#8, 0#8, 0#8, 0#8, 0x7E#8, 0xB8#8, 0x00#8, 0x36#8]) = 0x3FE6CDFBC6A7EF9E#64

/-- `RN` rounds to the nearest binary64 number, ties to even (rule R192): no finite pattern lies nearer to `n / d` than the
result, and where another value lies as near, the result's last significand bit is 0. The layout of the patterns is general
knowledge (assumption log 6). -/
def Obligations.RoundingIsNearestEven : Prop :=
  ∀ (n d : Nat) (y : F64), 0 < d → Binary64.biased (Binary64.rn n d) < 2047 → Binary64.biased y < 2047 →
    |((Binary64.num (Binary64.rn n d) * d : Nat) : Int) - ((n * Binary64.den : Nat) : Int)| ≤
        |((Binary64.num y * d : Nat) : Int) - ((n * Binary64.den : Nat) : Int)| ∧
    (|((Binary64.num (Binary64.rn n d) * d : Nat) : Int) - ((n * Binary64.den : Nat) : Int)| =
        |((Binary64.num y * d : Nat) : Int) - ((n * Binary64.den : Nat) : Int)| →
      Binary64.num y ≠ Binary64.num (Binary64.rn n d) → (Binary64.rn n d).getLsbD 0 = false)

/-- The ratio is exact (rule R188): its value is `mantissa * 2^-16`. -/
def Obligations.RatioIsExact : Prop :=
  ∀ p : Vector Byte 8,
    Binary64.num (Functional.ratio (mantissa p)) * 65536 =
      (256 * (packetByte p 4).toNat + (packetByte p 5).toNat) * Binary64.den

/-- For packet byte 6 of 1 or more the second multiplication is exact (rules R189, R191):
`power_kw = RN(SCALE * mantissa * 2^-16) * 2^packet[6]`. For packet byte 6 equal to 0 (rules R190, R191) it is
`power_kw = RN(t * RN(K_NEG1))` with `t = RN(SCALE * ratio)`, for every `K_NEG1`, and +0.0 for `K_NEG1 = 0`. -/
def Obligations.ValueIsScaledProduct : Prop :=
  ∀ (kNeg1 : Nat) (p : Vector Byte 8),
    (1 ≤ (packetByte p 6).toNat →
      Binary64.num (Functional.value kNeg1 p) =
        Binary64.num (Binary64.mul Functional.scale (Functional.ratio (mantissa p))) * 2 ^ (packetByte p 6).toNat) ∧
    ((packetByte p 6).toNat = 0 →
      ∃ t : F64,
        t = Binary64.rn (Binary64.num Functional.scale * Binary64.num (Functional.ratio (mantissa p)))
          (Binary64.den * Binary64.den) ∧
        Functional.value kNeg1 p =
          Binary64.rn (Binary64.num t * Binary64.num (Binary64.rn kNeg1 1)) (Binary64.den * Binary64.den) ∧
        (kNeg1 = 0 → Functional.value kNeg1 p = 0x0000000000000000#64))

/-- The result against the exact number of the formula (rule R195): for packet byte 6 of 1 or more and a mantissa that is not 0,
the relative error against `(4799 / 10000) * (mantissa / 65536) * 2^packet[6]` is below `2^-52`. -/
def Obligations.ValueRelativeError : Prop :=
  ∀ (kNeg1 : Nat) (p : Vector Byte 8), 1 ≤ (packetByte p 6).toNat → 1 ≤ mantissa p →
    |((Binary64.num (Functional.value kNeg1 p) * (10000 * 65536) : Nat) : Int) -
        ((4799 * mantissa p * 2 ^ (packetByte p 6).toNat * Binary64.den : Nat) : Int)| * 2 ^ 52 <
      ((4799 * mantissa p * 2 ^ (packetByte p 6).toNat * Binary64.den : Nat) : Int)

/-- The range of results (rule R194), for every admitted `K_NEG1`: never negative, infinite, NaN or subnormal; +0.0 for a
mantissa of 0; for packet byte 6 of 1 or more and a mantissa that is not 0 between the two bounds that the rule gives. -/
def Obligations.ValueRange : Prop :=
  ∀ (kNeg1 : Nat) (p : Vector Byte 8), kNeg1 ≤ 2 ^ 1023 →
    (Functional.value kNeg1 p).getLsbD 63 = false ∧
    Binary64.biased (Functional.value kNeg1 p) < 2047 ∧
    (Functional.value kNeg1 p = 0#64 ∨ 1 ≤ Binary64.biased (Functional.value kNeg1 p)) ∧
    (mantissa p = 0 → Functional.value kNeg1 p = 0#64) ∧
    (1 ≤ mantissa p → 1 ≤ (packetByte p 6).toNat →
      0x3EEEB6AE7D566CF4 ≤ (Functional.value kNeg1 p).toNat ∧ (Functional.value kNeg1 p).toNat ≤ 0x4FCEB68FC6A7EF9E)

/-- Bytes 0 to 3 and byte 7 never influence `power_kw` (rule R197), and for packet byte 6 of 1 or more neither does `K_NEG1`
(rules R189, R190). -/
def Obligations.ValueReadsBytesFourToSix : Prop :=
  (∀ (kNeg1 : Nat) (p p' : Vector Byte 8), (∀ i, 4 ≤ i → i ≤ 6 → packetByte p i = packetByte p' i) →
      Functional.value kNeg1 p = Functional.value kNeg1 p') ∧
    ∀ (k k' : Nat) (p : Vector Byte 8), 1 ≤ (packetByte p 6).toNat → Functional.value k p = Functional.value k' p

/-- The open parameter lies in its domain (rules R7, R190). The constant behind it is the model's (assumption log 1). -/
def Obligations.OpenParameterInDomain : Prop :=
  Config.kNeg1 ≤ 2 ^ 1023

/-! ### Reset, outputs, the host -/

/-- The state after reset (rule R36): every register at the value of the table, every status output and every result port 0. -/
def Obligations.ResetValues : Prop :=
  Regs.reset.stage = .idle ∧ Regs.reset.sub = 0#3 ∧ Regs.reset.err = none ∧ Regs.reset.vlen = 0#8 ∧ Regs.reset.blen = 0#11 ∧
    Regs.reset.s = 0#11 ∧ Regs.reset.pos = 0#11 ∧ Regs.reset.q = 0#9 ∧ Regs.reset.preEnd = 0#11 ∧ Regs.reset.quality = 0#9 ∧
    Regs.reset.acc = 0#16 ∧ Regs.reset.syncEnd = 0#11 ∧ Regs.reset.zeros = 0#11 ∧ Regs.reset.ones = 0#11 ∧
    Regs.reset.nbits = 0#7 ∧ Regs.reset.demodEnd = 0#11 ∧ Regs.reset.sum = 0#8 ∧ Regs.reset.k = 0#3 ∧
    Regs.reset.csumExpected = 0#8 ∧ Regs.reset.csumActual = 0#8 ∧ (∀ i, i < 8 → packetByte Regs.reset.packet i = 0x00#8) ∧
    Regs.reset.powerKw = 0x0000000000000000#64 ∧ State.reset.regs = Regs.reset ∧
    State.reset.busy = false ∧ State.reset.done = false ∧ State.reset.ok = false ∧ State.reset.errPort = 0#3 ∧
    State.reset.powerKwPort = 0#64 ∧ State.reset.packetPort = 0#64 ∧ State.reset.qualityPort = 0#9 ∧
    State.reset.csumExpectedPort = 0#8 ∧ State.reset.csumActualPort = 0#8 ∧ State.reset.preEndPort = 0#11 ∧
    State.reset.syncEndPort = 0#11 ∧ State.reset.demodEndPort = 0#11

/-- Reset at any time, during a call too (rule R260): every register takes its reset value when reset is asserted and holds it
through every step while it is asserted; the capture and `read_bytes` are not touched. -/
def Obligations.ResetAtAnyTime : Prop :=
  ∀ st : State,
    hostMove (.setReset true) st = .next { st with rst := true, regs := Regs.reset } ∧
    (st.rst = true → step st = .next { st with regs := Regs.reset })

/-- The status outputs and the gated result ports (rules R28, R29, R32): a result port shows its register under its condition
and 0 outside it. The `err` port shows the code of the failure kind (rule R89). -/
def Obligations.PortsAreGated : Prop :=
  ∀ st : State,
    (st.busy = true ↔ st.regs.stage ∈
      [Stage.start, Stage.preambleFound, Stage.syncFound, Stage.symbolsDemodulated, Stage.checksumVerified]) ∧
    (st.done = true ↔ st.regs.stage ∈ [Stage.done, Stage.failed]) ∧
    (st.ok = true ↔ st.regs.stage = .done) ∧
    (st.ok = true → st.powerKwPort = st.regs.powerKw ∧ st.packetPort = packetWord st.regs.packet ∧
      st.qualityPort = st.regs.quality ∧ st.preEndPort = st.regs.preEnd ∧ st.syncEndPort = st.regs.syncEnd ∧
      st.demodEndPort = st.regs.demodEnd) ∧
    (st.ok = false → st.powerKwPort = 0#64 ∧ st.packetPort = 0#64 ∧ st.qualityPort = 0#9 ∧ st.preEndPort = 0#11 ∧
      st.syncEndPort = 0#11 ∧ st.demodEndPort = 0#11) ∧
    (st.done = true → st.ok = false →
      (st.regs.err = none → st.errPort = 0#3) ∧
      (st.regs.err = some .notEnoughData → st.errPort = 1#3) ∧
      (st.regs.err = some .preambleNotFound → st.errPort = 2#3) ∧
      (st.regs.err = some .syncNotFound → st.errPort = 3#3) ∧
      (st.regs.err = some .insufficientSymbols → st.errPort = 4#3) ∧
      (st.regs.err = some .checksumMismatch → st.errPort = 5#3)) ∧
    (st.done = false ∨ st.ok = true → st.errPort = 0#3) ∧
    (st.regs.stage = .failed → st.regs.err = some .checksumMismatch →
      st.csumExpectedPort = st.regs.csumExpected ∧ st.csumActualPort = st.regs.csumActual) ∧
    (st.regs.stage ≠ .failed ∨ st.regs.err ≠ some .checksumMismatch → st.csumExpectedPort = 0#8 ∧ st.csumActualPort = 0#8)

/-- The `packet` port (rules R29, R88): byte 0 in bits 63:56, byte 7 in bits 7:0. -/
def Obligations.PacketPortLayout : Prop :=
  ∀ (p : Vector Byte 8) (k : Nat), k < 8 → (packetWord p).extractLsb' (56 - 8 * k) 8 = packetByte p k

/-- The host's moves (rules R20, R21, R22, R70, R260), each with its whole next state: driving an input changes that input alone,
asserting reset writes every register too, releasing it writes none, and a write of the capture changes the capture alone, and is
refused while `busy = 1`; so none changes a register except by asserting reset. The refusal of every byte, and that the inputs may
change while `busy = 1`, are the model's readings (assumption logs 7 and 8). -/
def Obligations.HostMovesKeepRegisters : Prop :=
  (∀ (mv : HostMove) (st t : State), mv ≠ .setReset true → hostMove mv st = .next t → t.regs = st.regs ∧ t.bitat = st.bitat) ∧
    (∀ (a : BitVec 7) (v : Byte) (st : State), st.busy = true → hostMove (.writeByte a v) st = .refused .hostWriteWhileBusy) ∧
    (∀ (a : BitVec 7) (v : Byte) (st : State), st.busy = false →
      hostMove (.writeByte a v) st = .next { st with cap := Memory.write st.cap a.toNat v }) ∧
    (∀ (n : BitVec 8) (st : State), hostMove (.setReadBytes n) st = .next { st with readBytes := n }) ∧
    (∀ (b : Bool) (st : State), hostMove (.setStart b) st = .next { st with start := b }) ∧
    (∀ st : State, hostMove (.setReset true) st = .next { st with rst := true, regs := Regs.reset }) ∧
    ∀ st : State, hostMove (.setReset false) st = .next { st with rst := false }

/-- The capture after a host's write (rules R60, R62, R261): the byte written reads back, every other byte reads as before, and
nothing else changes. That the list is in canonical form before and after is the model's choice and no rule's (assumption log 2). -/
def Obligations.HostWriteReadsBack : Prop :=
  ∀ (a : BitVec 7) (v : Byte) (st : State), st.busy = false → Memory.wf st.cap = true →
    ∃ m : List Host.Cell, hostMove (.writeByte a v) st = .next { st with cap := m } ∧ Memory.wf m = true ∧
      ∀ x, Memory.read m x = if x = a.toNat then v else Memory.read st.cap x

/-! ### The invariant -/

/-- The invariant holds of the state after reset. -/
def Obligations.ResetMeetsInvariant : Prop :=
  State.reset.Inv

/-- Every step keeps the invariant: the reset values while reset is asserted (rule R260), the ranges of the registers (rules
R22, R24), the offsets' order (rules R27, R214), the verified checksum and the quality floor of a finished call (rule R37), the
loop invariants of the stages, and the capture's canonical form, which is the model's choice (assumption log 2). -/
def Obligations.StepKeepsInvariant : Prop :=
  ∀ st t : State, st.Inv → step st = .next t → t.Inv

/-- Every move of the host keeps the invariant, the model's canonical form of the capture in it (assumption log 2). -/
def Obligations.HostMovesKeepInvariant : Prop :=
  ∀ (mv : HostMove) (st t : State), st.Inv → hostMove mv st = .next t → t.Inv

/-- Under the invariant every step answers a next state: no BITAT of a micro-step is out of range (rules R24, R111, R245) and
every pair has its step (rule R92 (d)). -/
def Obligations.InvariantMakesStepsSafe : Prop :=
  ∀ st : State, st.Inv → st.noRequest = true → st.Safe

/-- In every state that the core and the host can bring about from reset, the next step neither faults nor is refused, and a
finished call meets the document's three invariants (rules R37, R245). -/
def Obligations.ReachableStatesAreSafe : Prop :=
  ∀ st : State, Reachable st →
    st.Safe ∧
    (st.regs.stage = .done →
      Functional.sumOf st.regs.packet = packetByte st.regs.packet 7 ∧ 8 ≤ st.regs.quality.toNat ∧
      32 ≤ st.regs.preEnd.toNat ∧ st.regs.preEnd.toNat + 16 ≤ st.regs.syncEnd.toNat ∧
      st.regs.syncEnd.toNat + 128 ≤ st.regs.demodEnd.toNat ∧ st.regs.demodEnd.toNat ≤ st.regs.blen.toNat)
end

