-- ==== Sys2Proof/Laws/State.lean ====
section
/-! SUPPORT. The fields of a state after each shared update, one lemma for each field that the update could touch, and what
completing a micro-step can answer. -/

namespace Sys2Proof.Machine

section Goto
variable (g : Stage) (r : Regs)

@[simp] theorem Regs.goto_stage : (Regs.goto g r).stage = g := rfl
@[simp] theorem Regs.goto_sub : (Regs.goto g r).sub = 0#3 := rfl
@[simp] theorem Regs.goto_err : (Regs.goto g r).err = r.err := rfl
@[simp] theorem Regs.goto_vlen : (Regs.goto g r).vlen = r.vlen := rfl
@[simp] theorem Regs.goto_blen : (Regs.goto g r).blen = r.blen := rfl
@[simp] theorem Regs.goto_s : (Regs.goto g r).s = r.s := rfl
@[simp] theorem Regs.goto_pos : (Regs.goto g r).pos = r.pos := rfl
@[simp] theorem Regs.goto_q : (Regs.goto g r).q = r.q := rfl
@[simp] theorem Regs.goto_preEnd : (Regs.goto g r).preEnd = r.preEnd := rfl
@[simp] theorem Regs.goto_quality : (Regs.goto g r).quality = r.quality := rfl
@[simp] theorem Regs.goto_acc : (Regs.goto g r).acc = r.acc := rfl
@[simp] theorem Regs.goto_syncEnd : (Regs.goto g r).syncEnd = r.syncEnd := rfl
@[simp] theorem Regs.goto_zeros : (Regs.goto g r).zeros = r.zeros := rfl
@[simp] theorem Regs.goto_ones : (Regs.goto g r).ones = r.ones := rfl
@[simp] theorem Regs.goto_nbits : (Regs.goto g r).nbits = r.nbits := rfl
@[simp] theorem Regs.goto_packet : (Regs.goto g r).packet = r.packet := rfl
@[simp] theorem Regs.goto_demodEnd : (Regs.goto g r).demodEnd = r.demodEnd := rfl
@[simp] theorem Regs.goto_sum : (Regs.goto g r).sum = r.sum := rfl
@[simp] theorem Regs.goto_k : (Regs.goto g r).k = r.k := rfl
@[simp] theorem Regs.goto_csumExpected : (Regs.goto g r).csumExpected = r.csumExpected := rfl
@[simp] theorem Regs.goto_csumActual : (Regs.goto g r).csumActual = r.csumActual := rfl
@[simp] theorem Regs.goto_powerKw : (Regs.goto g r).powerKw = r.powerKw := rfl

end Goto

section Raise
variable (e : ErrKind) (r : Regs)

@[simp] theorem Regs.raise_stage : (Regs.raise e r).stage = .failed := rfl
@[simp] theorem Regs.raise_sub : (Regs.raise e r).sub = 0#3 := rfl
@[simp] theorem Regs.raise_err : (Regs.raise e r).err = some e := rfl
@[simp] theorem Regs.raise_vlen : (Regs.raise e r).vlen = r.vlen := rfl
@[simp] theorem Regs.raise_blen : (Regs.raise e r).blen = r.blen := rfl
@[simp] theorem Regs.raise_s : (Regs.raise e r).s = r.s := rfl
@[simp] theorem Regs.raise_pos : (Regs.raise e r).pos = r.pos := rfl
@[simp] theorem Regs.raise_q : (Regs.raise e r).q = r.q := rfl
@[simp] theorem Regs.raise_preEnd : (Regs.raise e r).preEnd = r.preEnd := rfl
@[simp] theorem Regs.raise_quality : (Regs.raise e r).quality = r.quality := rfl
@[simp] theorem Regs.raise_acc : (Regs.raise e r).acc = r.acc := rfl
@[simp] theorem Regs.raise_syncEnd : (Regs.raise e r).syncEnd = r.syncEnd := rfl
@[simp] theorem Regs.raise_zeros : (Regs.raise e r).zeros = r.zeros := rfl
@[simp] theorem Regs.raise_ones : (Regs.raise e r).ones = r.ones := rfl
@[simp] theorem Regs.raise_nbits : (Regs.raise e r).nbits = r.nbits := rfl
@[simp] theorem Regs.raise_packet : (Regs.raise e r).packet = r.packet := rfl
@[simp] theorem Regs.raise_demodEnd : (Regs.raise e r).demodEnd = r.demodEnd := rfl
@[simp] theorem Regs.raise_sum : (Regs.raise e r).sum = r.sum := rfl
@[simp] theorem Regs.raise_k : (Regs.raise e r).k = r.k := rfl
@[simp] theorem Regs.raise_csumExpected : (Regs.raise e r).csumExpected = r.csumExpected := rfl
@[simp] theorem Regs.raise_csumActual : (Regs.raise e r).csumActual = r.csumActual := rfl
@[simp] theorem Regs.raise_powerKw : (Regs.raise e r).powerKw = r.powerKw := rfl

end Raise

section ApplyReset
variable (st : State)

@[simp] theorem State.applyReset_rst : st.applyReset.rst = st.rst := rfl
@[simp] theorem State.applyReset_start : st.applyReset.start = st.start := rfl
@[simp] theorem State.applyReset_readBytes : st.applyReset.readBytes = st.readBytes := rfl
@[simp] theorem State.applyReset_cap : st.applyReset.cap = st.cap := rfl
@[simp] theorem State.applyReset_regs : st.applyReset.regs = Regs.reset := rfl
@[simp] theorem State.applyReset_bitat : st.applyReset.bitat = st.bitat := rfl

end ApplyReset

/-- Completing a micro-step answers a next state exactly when the micro-step wrote registers, and then changes nothing else. -/
theorem State.finish_eq_next {st t : State} {x : Except Fault Regs} :
    st.finish x = .next t ↔ ∃ r, x = .ok r ∧ t = { st with regs := r } := by
  cases x <;> simp [State.finish, eq_comm]

@[simp] theorem State.finish_ok (st : State) (r : Regs) : st.finish (.ok r) = .next { st with regs := r } := rfl

@[simp] theorem State.finish_error (st : State) (f : Fault) : st.finish (.error f) = .fault f := rfl

/-- The bit length that a byte count gives (rule R207). -/
@[simp] theorem bitLength_toNat (n : BitVec 8) : (bitLength n).toNat = 8 * n.toNat := by
  have := n.isLt
  simp only [bitLength, BitVec.toNat_mul, BitVec.zeroExtend, BitVec.toNat_setWidth, BitVec.toNat_ofNat]
  omega

/-- The start step where the entry check passes (rules R207, R209). -/
theorem Regs.startCall_accepted {n : BitVec 8} (h : entryCheck n.toNat = true) :
    Regs.startCall n = { Regs.reset with vlen := n, blen := bitLength n, stage := .start } := by
  simp [Regs.startCall, h, Regs.reset]

/-- The start step where the entry check fails (rules R207, R209, R231). -/
theorem Regs.startCall_rejected {n : BitVec 8} (h : entryCheck n.toNat = false) :
    Regs.startCall n = { Regs.reset with vlen := n, err := some .notEnoughData, stage := .failed } := by
  simp [Regs.startCall, h, Regs.reset, Regs.raise]

end Sys2Proof.Machine
end

