-- ==== Sys2Proof/Laws/Binary64.lean ====
section
/-! SUPPORT. IEEE 754 binary64: the value of a pattern, what `rn` computes, and the exact operations of VALUE. -/

namespace Sys2Proof.Machine

set_option exponentiation.threshold 3000

/-- The common denominator. -/
theorem den_eq : Binary64.den = 2 ^ 1075 := by decide +kernel

/-- The common denominator is positive. -/
theorem den_pos : 0 < Binary64.den := by rw [den_eq]; exact Nat.two_pow_pos _

/-- The denominator of a product is positive. -/
theorem den_mul_pos : 0 < Binary64.den * Binary64.den := Nat.mul_pos den_pos den_pos

/-- The common denominator as a product of two powers. -/
theorem den_split {a b : Nat} (h : a + b = 1075) : Binary64.den = 2 ^ a * 2 ^ b := by
  rw [den_eq, ← Nat.pow_add, h]

/-- The common denominator with the divisor 65536 taken out. -/
theorem den_split16 : Binary64.den = 65536 * 2 ^ 1059 := by
  rw [den_split (a := 16) (b := 1059) (by decide), show (2 : Nat) ^ 16 = 65536 by norm_num]

/-- The two ways a quotient rounds. -/
theorem roundHalfEven_cases (N c : Nat) :
    (Binary64.roundHalfEven N c = N / c ∧ 2 * (N % c) ≤ c ∧ (2 * (N % c) = c → (N / c) % 2 = 0)) ∨
    (Binary64.roundHalfEven N c = N / c + 1 ∧ c ≤ 2 * (N % c) ∧ (2 * (N % c) = c → (N / c) % 2 = 1)) := by
  unfold Binary64.roundHalfEven
  dsimp only
  split
  · exact .inl ⟨rfl, by omega, by omega⟩
  · split
    · exact .inr ⟨rfl, by omega, by omega⟩
    · rcases Nat.mod_two_eq_zero_or_one (N / c) with h | h
      · exact .inl ⟨by omega, by omega, fun _ => h⟩
      · exact .inr ⟨by omega, by omega, fun _ => h⟩

/-- No natural number lies nearer, and a tie goes to the even one (rule R192). -/
theorem roundHalfEven_nearest (N c : Nat) (hc : 0 < c) (j : Nat) :
    |((Binary64.roundHalfEven N c * c : Nat) : Int) - (N : Int)| ≤ |((j * c : Nat) : Int) - (N : Int)| ∧
    (|((Binary64.roundHalfEven N c * c : Nat) : Int) - (N : Int)| = |((j * c : Nat) : Int) - (N : Int)| →
      j ≠ Binary64.roundHalfEven N c → Binary64.roundHalfEven N c % 2 = 0) := by
  have hN := Nat.div_add_mod N c
  have hr := Nat.mod_lt N hc
  generalize hq : N / c = q at *
  generalize hrr : N % c = r at *
  have hcases := roundHalfEven_cases N c
  rw [hq, hrr] at hcases
  generalize Binary64.roundHalfEven N c = k at *
  rw [Nat.mul_comm k c, Nat.mul_comm j c]
  simp only [abs_eq_max_neg]
  have e1 : c * (q + 1) = c * q + c := Nat.mul_succ _ _
  have hjq : c * j = c * q ∧ j = q ∨ c * j = c * q + c ∧ j = q + 1 ∨ c * j + c ≤ c * q ∧ j < q ∨ c * q + c + c ≤ c * j ∧ q + 1 < j := by
    rcases (by omega : j = q ∨ j = q + 1 ∨ j + 1 ≤ q ∨ q + 2 ≤ j) with h | h | h | h
    · exact .inl ⟨by rw [h], h⟩
    · exact .inr (.inl ⟨by rw [h, e1], h⟩)
    · have := Nat.mul_le_mul_left c h
      rw [Nat.mul_succ] at this
      exact .inr (.inr (.inl ⟨this, h⟩))
    · have := Nat.mul_le_mul_left c h
      rw [Nat.mul_succ, Nat.mul_succ] at this
      exact .inr (.inr (.inr ⟨this, h⟩))
  have hck : c * k = c * q ∧ k = q ∨ c * k = c * q + c ∧ k = q + 1 := by
    rcases hcases with h | h
    · exact .inl ⟨by rw [h.1], h.1⟩
    · exact .inr ⟨by rw [h.1, e1], h.1⟩
  clear e1
  generalize c * k = ck at *
  generalize c * j = cj at *
  generalize c * q = cq at *
  constructor <;> omega

/-- The error of a rounded quotient is at most half the unit. -/
theorem roundHalfEven_half (N c : Nat) (hc : 0 < c) : 2 * |((Binary64.roundHalfEven N c * c : Nat) : Int) -
    (N : Int)| ≤ (c : Int) := by
  have hN := Nat.div_add_mod N c
  have hr := Nat.mod_lt N hc
  rcases roundHalfEven_cases N c with ⟨h1, h2, _⟩ | ⟨h1, h2, _⟩
  · rw [h1, Nat.mul_comm, abs_eq_max_neg]; omega
  · rw [h1, Nat.mul_comm, Nat.mul_succ, abs_eq_max_neg]; omega

/-- Rounding is monotone. -/
theorem roundHalfEven_mono {N N' c : Nat} (h : N ≤ N') : Binary64.roundHalfEven N c ≤ Binary64.roundHalfEven N' c := by
  have hd : N / c ≤ N' / c := Nat.div_le_div_right h
  have h1 := roundHalfEven_cases N c
  have h2 := roundHalfEven_cases N' c
  by_cases he : N / c = N' / c
  · have hN := Nat.div_add_mod N c
    have hN' := Nat.div_add_mod N' c
    rw [he] at hN
    rw [he] at h1
    omega
  · omega

/-- An exact quotient is not changed. -/
theorem roundHalfEven_exact {N c k : Nat} (hc : 0 < c) (h : N = k * c) : Binary64.roundHalfEven N c = k := by
  subst h
  unfold Binary64.roundHalfEven
  simp [Nat.mul_div_cancel _ hc]
  omega

/-- The biased exponent as arithmetic. -/
theorem biased_eq (x : F64) : Binary64.biased x = x.toNat / 2 ^ 52 % 2 ^ 11 := by
  simp [Binary64.biased, BitVec.extractLsb'_toNat, Nat.shiftRight_eq_div_pow]

/-- The fraction as arithmetic. -/
theorem fraction_eq (x : F64) : Binary64.fraction x = x.toNat % 2 ^ 52 := by
  simp [Binary64.fraction, BitVec.extractLsb'_toNat]

/-- The value of a pattern that is built from a unit and a rounded significand. -/
theorem num_of_parts {x : F64} {e k : Nat} (he : 1 ≤ e) (hx : x.toNat = (e - 1) * 2 ^ 52 + k) (hk : k ≤ 2 ^ 53)
    (hn : 2 ^ 52 ≤ k ∨ e = 1) (hf : (e - 1) * 2 ^ 52 + k < 2047 * 2 ^ 52) :
    Binary64.num x = k * 2 ^ e ∧ Binary64.biased x < 2047 ∧ x.getLsbD 63 = false := by
  have hb := biased_eq x
  have hfr := fraction_eq x
  rw [hx] at hb hfr
  have h63 : x.getLsbD 63 = false := by
    rw [BitVec.getLsbD, hx, Nat.testBit_lt_two_pow]
    omega
  unfold Binary64.num Binary64.significand
  by_cases h1 : k < 2 ^ 52
  · have : e = 1 := by omega
    subst this
    have hb0 : Binary64.biased x = 0 := by omega
    have hf0 : Binary64.fraction x = k := by omega
    rw [hb0, hf0, if_pos rfl]
    exact ⟨rfl, by decide, h63⟩
  · by_cases h2 : k < 2 ^ 53
    · have hbe : Binary64.biased x = e := by omega
      have hfe : Binary64.fraction x = k - 2 ^ 52 := by omega
      rw [hbe, hfe, if_neg (by omega), Nat.max_eq_left he]
      refine ⟨?_, by omega, h63⟩
      rw [show 2 ^ 52 + (k - 2 ^ 52) = k by omega]
    · have hk' : k = 2 ^ 53 := by omega
      subst hk'
      have hbe : Binary64.biased x = e + 1 := by omega
      have hfe : Binary64.fraction x = 0 := by omega
      rw [hbe, hfe, if_neg (by omega), Nat.max_eq_left (by omega)]
      refine ⟨?_, by omega, h63⟩
      rw [Nat.pow_succ]
      ring

/-- The binade that holds a quotient. -/
theorem binade_spec {n d : Nat} (hd : 0 < d) :
    1 ≤ Binary64.binade n d ∧ n * Binary64.den < d * 2 ^ Binary64.binade n d * 2 ^ 53 ∧
      (Binary64.binade n d = 1 ∨ d * 2 ^ Binary64.binade n d * 2 ^ 52 ≤ n * Binary64.den) := by
  unfold Binary64.binade
  generalize n * Binary64.den = N
  have hlt : N < d * (N / d + 1) := by
    have := Nat.div_add_mod N d; have := Nat.mod_lt N hd; rw [Nat.mul_succ]; omega
  have h1 : N / d + 1 ≤ 2 ^ (Nat.log2 (N / d) + 1) := Nat.lt_log2_self
  refine ⟨Nat.le_max_left _ _, ?_, ?_⟩
  · calc N < d * (N / d + 1) := hlt
      _ ≤ d * 2 ^ (Nat.log2 (N / d) + 1) := Nat.mul_le_mul_left _ h1
      _ ≤ d * (2 ^ max 1 (Nat.log2 (N / d) - 52) * 2 ^ 53) := by
        rw [← Nat.pow_add]
        exact Nat.mul_le_mul_left _ (Nat.pow_le_pow_right (by decide) (by omega))
      _ = _ := (Nat.mul_assoc _ _ _).symm
  · by_cases h : Nat.log2 (N / d) ≤ 53
    · left; omega
    · right
      rw [Nat.max_eq_right (by omega)]
      have h0 : N / d ≠ 0 := by
        intro h0; rw [h0] at h; simp at h
      have h2 : 2 ^ Nat.log2 (N / d) ≤ N / d := Nat.log2_self_le h0
      calc d * 2 ^ (Nat.log2 (N / d) - 52) * 2 ^ 52 = d * 2 ^ Nat.log2 (N / d) := by
            rw [Nat.mul_assoc, ← Nat.pow_add]; congr 2; omega
        _ ≤ d * (N / d) := Nat.mul_le_mul_left _ h2
        _ ≤ N := Nat.mul_div_le _ _

/-- What `rn` computes: a unit, a rounded significand in it, and the pattern built from the two. -/
theorem rn_parts {n d : Nat} (hd : 0 < d) :
    ∃ e k, e = Binary64.binade n d ∧ k = Binary64.roundHalfEven (n * Binary64.den) (d * 2 ^ e) ∧ 1 ≤ e ∧ k ≤ 2 ^ 53 ∧ (2 ^ 52 ≤ k ∨ e = 1) ∧
      n * Binary64.den < d * 2 ^ e * 2 ^ 53 ∧ (e = 1 ∨ d * 2 ^ e * 2 ^ 52 ≤ n * Binary64.den) ∧
      (Binary64.rn n d).toNat = min ((e - 1) * 2 ^ 52 + k) (2047 * 2 ^ 52) := by
  obtain ⟨h1, h2, h3⟩ := binade_spec (n := n) hd
  have hc : 0 < d * 2 ^ Binary64.binade n d := Nat.mul_pos hd (Nat.two_pow_pos _)
  have hmono := @roundHalfEven_mono (n * Binary64.den) (2 ^ 53 * (d * 2 ^ Binary64.binade n d)) (d * 2 ^ Binary64.binade n d) (by rw [Nat.mul_comm (2 ^ 53)]; exact h2.le)
  rw [roundHalfEven_exact hc rfl] at hmono
  refine ⟨_, _, rfl, rfl, h1, hmono, ?_, h2, h3, ?_⟩
  · rcases h3 with h3 | h3
    · exact .inr h3
    · left
      have := @roundHalfEven_mono (2 ^ 52 * (d * 2 ^ Binary64.binade n d)) (n * Binary64.den) (d * 2 ^ Binary64.binade n d) (by rw [Nat.mul_comm (2 ^ 52)]; exact h3)
      rwa [roundHalfEven_exact hc rfl] at this
  · unfold Binary64.rn
    simp only [BitVec.toNat_ofNat]
    apply Nat.mod_eq_of_lt
    have : 2047 * 2 ^ 52 < 2 ^ 64 := by decide
    omega

/-- Below the infinity pattern the rounded number is the rounded significand in its unit. -/
theorem rn_finite {n d : Nat} (hd : 0 < d) (hf : Binary64.biased (Binary64.rn n d) < 2047) :
    ∃ e k, k = Binary64.roundHalfEven (n * Binary64.den) (d * 2 ^ e) ∧ 1 ≤ e ∧ (2 ^ 52 ≤ k ∨ e = 1) ∧ k ≤ 2 ^ 53 ∧
      n * Binary64.den < d * 2 ^ e * 2 ^ 53 ∧ (e = 1 ∨ d * 2 ^ e * 2 ^ 52 ≤ n * Binary64.den) ∧
      (Binary64.rn n d).toNat = (e - 1) * 2 ^ 52 + k ∧ Binary64.num (Binary64.rn n d) = k * 2 ^ e := by
  obtain ⟨e, k, -, hk, h1, h2, h3, h4, h5, h6⟩ := rn_parts (n := n) hd
  have hlt : (e - 1) * 2 ^ 52 + k < 2047 * 2 ^ 52 := by
    by_contra hge
    rw [Nat.min_eq_right (by omega)] at h6
    rw [biased_eq, h6] at hf
    simp at hf
  rw [Nat.min_eq_left hlt.le] at h6
  exact ⟨e, k, hk, h1, h3, h2, h4, h5, h6, (num_of_parts h1 h6 h2 h3 hlt).1⟩

/-- A significand has 53 bits. -/
theorem significand_lt (x : F64) : Binary64.significand x < 2 ^ 53 := by
  have := (x.extractLsb' 0 52).isLt
  unfold Binary64.significand Binary64.fraction
  split <;> omega

/-- A value that is a significand in an admitted unit is not changed by rounding. -/
theorem rn_exact {n d j e : Nat} (hd : 0 < d) (hj : j < 2 ^ 53) (he : 1 ≤ e) (he' : e ≤ 2046)
    (h : n * Binary64.den = d * (j * 2 ^ e)) :
    Binary64.num (Binary64.rn n d) = j * 2 ^ e ∧ Binary64.biased (Binary64.rn n d) < 2047 ∧ (Binary64.rn n d).getLsbD 63 = false := by
  obtain ⟨f, k, -, hk, h1, h2, h3, h4, h5, h6⟩ := rn_parts (n := n) hd
  have hfe : f ≤ e := by
    rcases h5 with h5 | h5
    · omega
    · by_contra hlt
      have : d * 2 ^ f * 2 ^ 52 ≤ d * (j * 2 ^ e) := by rw [← h]; exact h5
      rw [Nat.mul_assoc] at this
      have := Nat.le_of_mul_le_mul_left this hd
      have h7 : j * 2 ^ e < 2 ^ 53 * 2 ^ e := Nat.mul_lt_mul_of_pos_right hj (Nat.two_pow_pos _)
      rw [← Nat.pow_add] at this h7
      have h8 := Nat.pow_le_pow_right (show 0 < 2 by decide) (show 53 + e ≤ f + 52 by omega)
      omega
  have hc : 0 < d * 2 ^ f := Nat.mul_pos hd (Nat.two_pow_pos _)
  have hkk : k = j * 2 ^ (e - f) := by
    rw [hk]
    apply roundHalfEven_exact hc
    rw [h]
    have : (2 : Nat) ^ e = 2 ^ (e - f) * 2 ^ f := by rw [← Nat.pow_add]; congr 1; omega
    rw [this]
    ring
  have hlt : k < 2 ^ 53 := by
    rw [h] at h4
    have : d * 2 ^ f * k < d * 2 ^ f * 2 ^ 53 := by
      calc d * 2 ^ f * k = d * (j * 2 ^ e) := by
            have : (2 : Nat) ^ e = 2 ^ (e - f) * 2 ^ f := by rw [← Nat.pow_add]; congr 1; omega
            rw [hkk, this]; ring
        _ < _ := h4
    exact Nat.lt_of_mul_lt_mul_left this
  have hfin : (f - 1) * 2 ^ 52 + k < 2047 * 2 ^ 52 := by omega
  rw [Nat.min_eq_left hfin.le] at h6
  obtain ⟨a, b, c⟩ := num_of_parts h1 h6 h2 h3 hfin
  refine ⟨?_, b, c⟩
  rw [a, hkk, Nat.mul_assoc, ← Nat.pow_add]
  congr 2
  omega

/-- Zero rounds to +0.0. -/
theorem rn_zero (d : Nat) : Binary64.rn 0 d = 0#64 := by
  unfold Binary64.rn Binary64.binade Binary64.roundHalfEven
  simp

/-- The value of +0.0. -/
theorem num_zero : Binary64.num 0#64 = 0 := by decide +kernel

/-- No result is negative (rule R194). -/
theorem rn_sign (n : Nat) {d : Nat} (hd : 0 < d) : (Binary64.rn n d).getLsbD 63 = false := by
  obtain ⟨e, k, -, hk, h1, h2, h3, h4, h5, h6⟩ := rn_parts (n := n) hd
  rw [BitVec.getLsbD, Nat.testBit_lt_two_pow]
  omega

/-- A number of a lower binade lies below the least significand of a higher one. -/
theorem num_below {y : F64} {d e : Nat} (hd : 0 < d) (hey : max (Binary64.biased y) 1 < e) : Binary64.num y * d < d * 2
    ^ e * 2 ^ 52 := by
  have : Binary64.num y < 2 ^ 53 * 2 ^ (e - 1) := by
    unfold Binary64.num
    calc _ < 2 ^ 53 * 2 ^ max (Binary64.biased y) 1 := Nat.mul_lt_mul_of_pos_right (significand_lt y) (Nat.two_pow_pos _)
      _ ≤ _ := Nat.mul_le_mul_left _ (Nat.pow_le_pow_right (by decide) (by omega))
  calc _ < 2 ^ 53 * 2 ^ (e - 1) * d := Nat.mul_lt_mul_of_pos_right this hd
    _ = _ := by
      have : (2 : Nat) ^ e = 2 ^ (e - 1) * 2 := by rw [← Nat.pow_succ]; congr 1; omega
      rw [this]; ring

/-- A number below a bound lies farther from what is at or above the bound. -/
theorem farther {A B Y N : Nat} (hY : Y < B) (hB : B ≤ N) (h : |(A : Int) - (N : Int)| ≤ |(B : Int) - (N : Int)|) :
    |(A : Int) - (N : Int)| < |(Y : Int) - (N : Int)| := by
  simp only [abs_eq_max_neg] at h ⊢
  omega

/-- Of two numbers on the same side the inner one is nearer. -/
theorem nearer {A B N : Nat} (hA : B < A) (hB : N ≤ B) : |(B : Int) - (N : Int)| < |(A : Int) - (N : Int)| := by
  simp only [abs_eq_max_neg]
  omega

/-- Non-negative patterns are ordered as their values. -/
theorem num_lt_num {x y : F64} (hx : x.getLsbD 63 = false) (hy : y.getLsbD 63 = false)
    (h : x.toNat < y.toNat) : Binary64.num x < Binary64.num y := by
  have bx := biased_eq x
  have fx := fraction_eq x
  have by' := biased_eq y
  have fy := fraction_eq y
  have lx := BitVec.toNat_lt_of_msb_false (x := x) (by simpa [BitVec.msb_eq_getLsbD_last] using hx)
  have ly := BitVec.toNat_lt_of_msb_false (x := y) (by simpa [BitVec.msb_eq_getLsbD_last] using hy)
  have sx : Binary64.significand x < 2 ^ 53 := significand_lt x
  simp only [Nat.reduceSub] at lx ly
  have hle : Binary64.biased x ≤ Binary64.biased y := by omega
  by_cases heq : max (Binary64.biased x) 1 = max (Binary64.biased y) 1
  · unfold Binary64.num
    rw [heq]
    apply Nat.mul_lt_mul_of_pos_right _ (Nat.two_pow_pos _)
    unfold Binary64.significand
    split <;> split <;> omega
  · have hlt : max (Binary64.biased x) 1 + 1 ≤ max (Binary64.biased y) 1 := by omega
    have sy : 2 ^ 52 ≤ Binary64.significand y := by unfold Binary64.significand; rw [if_neg (by omega)]; omega
    unfold Binary64.num
    calc _ < 2 ^ 53 * 2 ^ max (Binary64.biased x) 1 := Nat.mul_lt_mul_of_pos_right sx (Nat.two_pow_pos _)
      _ = 2 ^ 52 * 2 ^ (max (Binary64.biased x) 1 + 1) := by rw [← Nat.pow_add, ← Nat.pow_add]; congr 1; omega
      _ ≤ 2 ^ 52 * 2 ^ max (Binary64.biased y) 1 := Nat.mul_le_mul_left _ (Nat.pow_le_pow_right (by decide) hlt)
      _ ≤ _ := Nat.mul_le_mul_right _ sy

/-- Integers below `2^53` convert exactly (rules R188, R192). -/
theorem ofNat_small {n : Nat} (h : n < 2 ^ 53) : Binary64.num (Binary64.ofNat n) = n * Binary64.den := by
  have := (rn_exact (n := n) (d := 1) (j := n) (e := 1075) (by decide) h (by decide) (by decide) (by rw [den_eq, Nat.one_mul])).1
  rw [den_eq]; exact this

/-- Powers of two convert exactly (rule R189). -/
theorem ofNat_two_pow {b : Nat} (h : b ≤ 900) : Binary64.num (Binary64.ofNat (2 ^ b)) = 2 ^ b * Binary64.den := by
  have := (rn_exact (n := 2 ^ b) (d := 1) (j := 1) (e := b + 1075) (by decide) (by decide) (by omega) (by omega) (by rw [den_eq, Nat.one_mul, Nat.one_mul, Nat.pow_add])).1
  unfold Binary64.ofNat
  rw [this, den_eq, Nat.one_mul, Nat.pow_add]

/-- The integer factor for packet byte 6 of 1 or more (rule R189). -/
theorem factor_pos {kNeg1 : Nat} {p : Vector Byte 8} (h : 1 ≤ (packetByte p 6).toNat) : Functional.factor kNeg1
    (exponent p) = 2 ^ (packetByte p 6).toNat := by
  unfold Functional.factor exponent
  rw [if_pos (by omega), Nat.shiftLeft_eq, show (((packetByte p 6).toNat : Int) - 1).toNat = (packetByte p 6).toNat - 1 by omega, ← Nat.pow_succ']
  congr 1
  omega

/-- The factor for packet byte 6 equal to 0 is the open parameter (rule R190). -/
theorem factor_zero {kNeg1 : Nat} {p : Vector Byte 8} (h : (packetByte p 6).toNat = 0) :
    Functional.factor kNeg1 (exponent p) = kNeg1 := by
  unfold Functional.factor exponent
  rw [if_neg (by omega)]

/-- The mantissa has 16 bits. -/
theorem mantissa_lt (p : Vector Byte 8) : mantissa p < 65536 := by
  have := (packetByte p 4).isLt; have := (packetByte p 5).isLt
  unfold mantissa; omega

/-- The ratio is exact (rule R188). -/
theorem ratio_num {mant : Nat} (h : mant < 65536) : Binary64.num (Functional.ratio mant) = mant * 2 ^ 1059 := by
  unfold Functional.ratio Binary64.div
  rw [ofNat_small (by omega), ofNat_small (by decide)]
  refine (rn_exact (n := mant * Binary64.den) (d := Config.mantDiv * Binary64.den) (j := mant) (e := 1059) (Nat.mul_pos (by decide) den_pos) (by omega) (by decide) (by decide) ?_).1
  have : Binary64.den = Config.mantDiv * 2 ^ 1059 := den_split16
  generalize (2 : Nat) ^ 1059 = P at *
  rw [this]
  ring

/-- The bits of `SCALE` (rule R191). -/
theorem scale_eq : Functional.scale = 0x3FDEB6AE7D566CF4#64 := by decide +kernel

/-- The value of `SCALE` (rule R191). -/
theorem scale_num : Binary64.num Functional.scale = 8645109844700404 * 2 ^ 1021 := by rw [scale_eq]; decide +kernel

/-- The exact product of `SCALE` and the ratio is an integer multiple of the unit `1 / den`. -/
theorem scaled_exact {mant : Nat} (h : mant < 65536) :
    Binary64.num Functional.scale * Binary64.num (Functional.ratio mant) * Binary64.den =
      Binary64.den * Binary64.den * (8645109844700404 * (mant * 2 ^ 1005)) := by
  rw [scale_num, ratio_num h]
  have e1 : (2 : Nat) ^ 1021 = 65536 * 2 ^ 1005 := by rw [show (65536 : Nat) = 2 ^ 16 by rfl, ← Nat.pow_add]
  have e2 : Binary64.den = 65536 * 2 ^ 1059 := den_split16
  rw [e1]
  generalize (2 : Nat) ^ 1005 = P at *
  generalize (2 : Nat) ^ 1059 = Q at *
  rw [e2]
  ring

/-- The product of `SCALE` and the ratio, rounded: its unit and its significand. -/
theorem scaled_spec {mant : Nat} (h : mant < 65536) :
    let x := Binary64.mul Functional.scale (Functional.ratio mant)
    Binary64.biased x < 2047 ∧ ∃ e k, 1 ≤ e ∧ e ≤ 1021 ∧ (2 ^ 52 ≤ k ∨ e = 1) ∧ k ≤ 2 ^ 53 ∧ Binary64.num x = k * 2 ^ e ∧
      x.toNat = (e - 1) * 2 ^ 52 + k ∧
      k = Binary64.roundHalfEven (8645109844700404 * (mant * 2 ^ 1005)) (2 ^ e) ∧
      (e = 1 ∨ 2 ^ e * 2 ^ 52 ≤ 8645109844700404 * (mant * 2 ^ 1005)) ∧ 8645109844700404 * (mant * 2 ^ 1005) < 2 ^ e * 2 ^ 53 := by
  dsimp only
  unfold Binary64.mul
  obtain ⟨e, k, -, hk, h1, h2, h3, h4, h5, h6⟩ := rn_parts (n := Binary64.num Functional.scale * Binary64.num (Functional.ratio mant)) den_mul_pos
  rw [scaled_exact h] at hk h4 h5
  generalize hE : 8645109844700404 * (mant * 2 ^ 1005) = E at *
  have hEl : E < 2 ^ 1074 := by
    rw [← hE]
    have : (2 : Nat) ^ 1074 = 2 ^ 69 * 2 ^ 1005 := by rw [← Nat.pow_add]
    rw [this, ← Nat.mul_assoc]
    exact Nat.mul_lt_mul_of_pos_right (by omega) (Nat.two_pow_pos _)
  have h5' : e = 1 ∨ 2 ^ e * 2 ^ 52 ≤ E := by
    rcases h5 with h5 | h5
    · exact .inl h5
    · right; rw [Nat.mul_assoc] at h5; exact Nat.le_of_mul_le_mul_left h5 den_mul_pos
  have h4' : E < 2 ^ e * 2 ^ 53 := by
    rw [Nat.mul_assoc _ (2 ^ e)] at h4; exact Nat.lt_of_mul_lt_mul_left h4
  have he : e ≤ 1021 := by
    by_contra hgt
    rcases h5' with h | h
    · omega
    · rw [← Nat.pow_add] at h
      have := Nat.pow_le_pow_right (show 0 < 2 by decide) (show 1074 ≤ e + 52 by omega)
      omega
  have hfin : (e - 1) * 2 ^ 52 + k < 2047 * 2 ^ 52 := by omega
  rw [Nat.min_eq_left hfin.le] at h6
  obtain ⟨a, b, c⟩ := num_of_parts h1 h6 h2 h3 hfin
  refine ⟨b, e, k, h1, he, h3, h2, a, h6, ?_, h5', h4'⟩
  rw [hk]
  unfold Binary64.roundHalfEven
  dsimp only
  have hd := den_mul_pos
  generalize Binary64.den * Binary64.den = D at *
  rw [Nat.mul_div_mul_left _ _ hd, Nat.mul_mod_mul_left]
  have e1 : 2 * (D * (E % 2 ^ e)) < D * 2 ^ e ↔ 2 * (E % 2 ^ e) < 2 ^ e := by
    rw [show 2 * (D * (E % 2 ^ e)) = D * (2 * (E % 2 ^ e)) by ring]; exact Nat.mul_lt_mul_left hd
  have e2 : D * 2 ^ e < 2 * (D * (E % 2 ^ e)) ↔ 2 ^ e < 2 * (E % 2 ^ e) := by
    rw [show 2 * (D * (E % 2 ^ e)) = D * (2 * (E % 2 ^ e)) by ring]; exact Nat.mul_lt_mul_left hd
  simp only [e1, e2]

/-- Half a unit of the product and the error of `SCALE` together stay below the bound of rule R195. -/
theorem error_sum {X Q P : Nat} (h : 2 * |(X : Int) - ((8645109844700404 * Q : Nat) : Int)| ≤ (P : Int))
    (h7 : P * 2 ^ 52 ≤ 8645109844700404 * Q)
    (hQ : 0 < Q) : |((X * (10000 * 65536) : Nat) : Int) - ((4799 * 2 ^ 70 * Q : Nat) : Int)| * 2 ^ 52 < ((4799 * 2 ^ 70 * Q : Nat) : Int) := by
  simp only [abs_eq_max_neg] at h ⊢
  norm_num at h7 ⊢
  omega

end Sys2Proof.Machine
end

