-- ==== Sys2Proof/Laws/Memory.lean ====
section
/-! SUPPORT. The capture: a read after a write, and the canonical form that every write keeps. -/

namespace Sys2Proof.Machine

/-- Below the first address of a canonical list nothing is listed. -/
theorem Memory.read_below {m : List Host.Cell} {lo x : Nat} (h : Memory.wfFrom lo m = true) (hx : x < lo) :
    Memory.read m x = Memory.unlisted := by
  induction m generalizing lo with
  | nil => rfl
  | cons c rest ih =>
    obtain ⟨a, b⟩ := c
    simp only [Memory.wfFrom, Bool.and_eq_true, decide_eq_true_eq] at h
    have hxa : x ≠ a := by omega
    simpa [Memory.read, hxa] using ih h.2 (by omega)

/-- A canonical list stays canonical for a lower bound. -/
theorem Memory.wfFrom_mono {m : List Host.Cell} {lo lo' : Nat} (h : Memory.wfFrom lo m = true) (hl : lo' ≤ lo) :
    Memory.wfFrom lo' m = true := by
  cases m with
  | nil => rfl
  | cons c rest =>
    obtain ⟨a, b⟩ := c
    simp only [Memory.wfFrom, Bool.and_eq_true, decide_eq_true_eq] at h ⊢
    exact ⟨⟨⟨by omega, h.1.1.2⟩, h.1.2⟩, h.2⟩

/-- Listing an entry first reads as the entry at its address and as the rest elsewhere. -/
theorem Memory.read_entry {rest : List Host.Cell} {x y : Nat} {v : Byte} (h : Memory.wfFrom (x + 1) rest = true) :
    Memory.read (Memory.entry x v rest) y = if y = x then v else Memory.read rest y := by
  unfold Memory.entry
  split
  · rename_i hv
    split
    · rename_i hy
      subst hy hv
      exact Memory.read_below h (by omega)
    · rfl
  · simp [Memory.read]

theorem Memory.wfFrom_entry {rest : List Host.Cell} {lo x : Nat} {v : Byte} (h : Memory.wfFrom (x + 1) rest = true)
    (hlo : lo ≤ x) (hx : x < Config.capacity) : Memory.wfFrom lo (Memory.entry x v rest) = true := by
  unfold Memory.entry
  split
  · exact Memory.wfFrom_mono h (by omega)
  · rename_i hv
    simp only [Memory.wfFrom, Bool.and_eq_true, decide_eq_true_eq]
    exact ⟨⟨⟨hlo, hx⟩, hv⟩, h⟩

/-- A write keeps the canonical form. -/
theorem Memory.wfFrom_write {m : List Host.Cell} {lo x : Nat} {v : Byte} (h : Memory.wfFrom lo m = true) (hlo : lo ≤ x)
    (hx : x < Config.capacity) : Memory.wfFrom lo (Memory.write m x v) = true := by
  induction m generalizing lo with
  | nil => exact Memory.wfFrom_entry rfl hlo hx
  | cons c rest ih =>
    obtain ⟨a, b⟩ := c
    have h' := h
    simp only [Memory.wfFrom, Bool.and_eq_true, decide_eq_true_eq] at h
    unfold Memory.write
    split
    · refine Memory.wfFrom_entry ?_ hlo hx
      simp only [Memory.wfFrom, Bool.and_eq_true, decide_eq_true_eq]
      exact ⟨⟨⟨by omega, h.1.1.2⟩, h.1.2⟩, h.2⟩
    · split
      · rename_i hxa
        subst hxa
        exact Memory.wfFrom_entry h.2 hlo hx
      · simp only [Memory.wfFrom, Bool.and_eq_true, decide_eq_true_eq]
        exact ⟨⟨⟨h.1.1.1, h.1.1.2⟩, h.1.2⟩, ih h.2 (by omega)⟩

/-- A byte reads as what was last written to it, and a write leaves every other byte alone. -/
theorem Memory.read_write_from {m : List Host.Cell} {lo x y : Nat} {v : Byte} (h : Memory.wfFrom lo m = true) :
    Memory.read (Memory.write m x v) y = if y = x then v else Memory.read m y := by
  induction m generalizing lo with
  | nil => exact Memory.read_entry rfl
  | cons c rest ih =>
    obtain ⟨a, b⟩ := c
    simp only [Memory.wfFrom, Bool.and_eq_true, decide_eq_true_eq] at h
    unfold Memory.write
    split
    · refine Memory.read_entry ?_
      simp only [Memory.wfFrom, Bool.and_eq_true, decide_eq_true_eq]
      exact ⟨⟨⟨by omega, h.1.1.2⟩, h.1.2⟩, h.2⟩
    · split
      · rename_i hxa
        subst hxa
        rw [Memory.read_entry h.2]
        by_cases hy : y = x <;> simp [Memory.read, hy]
      · rename_i hlt hne
        simp only [Memory.read, ih h.2]
        by_cases hya : y = a
        · subst hya
          have : ¬ y = x := fun e => hne e.symm
          simp [this]
        · simp [hya]

/-- The canonical form determines the capture: two canonical captures that read alike are equal. -/
theorem Memory.ext_from {m m' : List Host.Cell} {lo : Nat} (h : Memory.wfFrom lo m = true) (h' : Memory.wfFrom lo m' = true)
    (e : ∀ x, Memory.read m x = Memory.read m' x) : m = m' := by
  induction m generalizing m' lo with
  | nil =>
    cases m' with
    | nil => rfl
    | cons c rest =>
      obtain ⟨a, b⟩ := c
      simp only [Memory.wfFrom, Bool.and_eq_true, decide_eq_true_eq] at h'
      have := e a
      simp only [Memory.read, if_true] at this
      exact absurd this.symm h'.1.2
  | cons c rest ih =>
    obtain ⟨a, b⟩ := c
    have h0 := h
    simp only [Memory.wfFrom, Bool.and_eq_true, decide_eq_true_eq] at h
    cases m' with
    | nil =>
      have := e a
      simp only [Memory.read, if_true] at this
      exact absurd this h.1.2
    | cons c' rest' =>
      obtain ⟨a', b'⟩ := c'
      have h0' := h'
      simp only [Memory.wfFrom, Bool.and_eq_true, decide_eq_true_eq] at h'
      have haa : a = a' := by
        rcases Nat.lt_trichotomy a a' with hlt | heq | hgt
        · have hr := e a
          have : Memory.read ((a', b') :: rest') a = Memory.unlisted :=
            Memory.read_below (lo := a') (by
              simp only [Memory.wfFrom, Bool.and_eq_true, decide_eq_true_eq]
              exact ⟨⟨⟨le_refl _, h'.1.1.2⟩, h'.1.2⟩, h'.2⟩) hlt
          rw [this] at hr
          simp only [Memory.read, if_true] at hr
          exact absurd hr h.1.2
        · exact heq
        · have hr := e a'
          have : Memory.read ((a, b) :: rest) a' = Memory.unlisted :=
            Memory.read_below (lo := a) (by
              simp only [Memory.wfFrom, Bool.and_eq_true, decide_eq_true_eq]
              exact ⟨⟨⟨le_refl _, h.1.1.2⟩, h.1.2⟩, h.2⟩) hgt
          rw [this] at hr
          simp only [Memory.read, if_true] at hr
          exact absurd hr.symm h'.1.2
      subst haa
      have hb : b = b' := by simpa [Memory.read] using e a
      subst hb
      have hrest : rest = rest' := by
        refine ih h.2 h'.2 fun x => ?_
        by_cases hx : x = a
        · subst hx
          rw [Memory.read_below h.2 (by omega), Memory.read_below h'.2 (by omega)]
        · simpa [Memory.read, hx] using e x
      rw [hrest]

end Sys2Proof.Machine
end

