-- ==== Sys2Proof/Laws/Bits.lean ====
section
/-! SUPPORT. BITAT and QUAD: what each answers, and that the valid bits alone decide it. -/

namespace Sys2Proof.Machine

/-- BITAT in range is a bit of the capture (rule R110). -/
theorem bitAt_ok {m : List Host.Cell} {blen i : Nat} (h : i < blen) (hb : blen ≤ 1024) :
    bitAt m blen i = .ok (captureBit m i) := by
  have : i < 1024 := by omega
  simp [bitAt, h, this]

/-- BITAT out of range faults (rule R111). -/
theorem bitAt_error {m : List Host.Cell} {blen i : Nat} (h : blen ≤ i) :
    bitAt m blen i = .error .bitIndexOutOfRange := by
  have : ¬ i < blen := by omega
  simp [bitAt, this]

/-- QUAD in range is four bits of the capture (rule R112). -/
theorem quad_ok {m : List Host.Cell} {blen i : Nat} (h : i + 4 ≤ blen) (hb : blen ≤ 1024) :
    quad m blen i = .ok (Functional.quad m i) := by
  unfold quad
  rw [bitAt_ok (by omega) hb, bitAt_ok (by omega) hb, bitAt_ok (by omega) hb, bitAt_ok (by omega) hb]
  rfl

/-- A bit is 0 or 1. -/
theorem bit_cases (b : Bit) : b = 0#1 ∨ b = 1#1 := by
  revert b
  decide

theorem bit_ne_one {b : Bit} : b ≠ 1#1 ↔ b = 0#1 := by
  revert b
  decide

theorem bit_ne_zero {b : Bit} : b ≠ 0#1 ↔ b = 1#1 := by
  revert b
  decide

/-- A quad matches exactly when its four bits are 1, 1, 0, 0 (rule R112). -/
theorem Functional.quad_eq_pattern {m : List Host.Cell} {i : Nat} :
    Functional.quad m i = Config.prePattern ↔
      captureBit m i = 1#1 ∧ captureBit m (i + 1) = 1#1 ∧ captureBit m (i + 2) = 0#1 ∧ captureBit m (i + 3) = 0#1 := by
  unfold Functional.quad
  generalize captureBit m i = a
  generalize captureBit m (i + 1) = b
  generalize captureBit m (i + 2) = c
  generalize captureBit m (i + 3) = d
  revert a b c d
  decide

/-- A bit of the capture depends on its byte alone. -/
theorem captureBit_congr {m m' : List Host.Cell} {i : Nat} (h : Memory.read m (i / 8) = Memory.read m' (i / 8)) :
    captureBit m i = captureBit m' i := by
  simp [captureBit, h]

end Sys2Proof.Machine
end

