-- ==== Sys2Proof/Laws/Functions.lean ====
section
/-! SUPPORT. The functional rules of PREAMBLE, SYNC, DEMOD and CHECKSUM: what each loop answers, and that the valid bits alone
decide it. -/

namespace Sys2Proof.Machine

/-- Everything a walk answers: its length, that its quads match, and what ends it (rule R122). -/
theorem walk_spec {m : List Host.Cell} {blen fuel i q : Nat} (hf : blen < i + 4 * fuel + 4) (hi : i ≤ blen) {w : Nat × Nat}
    (hw : Functional.walk m blen fuel i q = w) :
    w.1 = i + 4 * (w.2 - q) ∧ q ≤ w.2 ∧ w.1 ≤ blen ∧ (∀ k, k < w.2 - q → Functional.quad m (i + 4 * k) = Config.prePattern) ∧
      (blen < w.1 + 4 ∨ Functional.quad m w.1 ≠ Config.prePattern) := by
  induction fuel generalizing i q with
  | zero =>
    simp only [Functional.walk] at hw
    subst hw
    exact ⟨by simp, le_refl _, hi, by simp, .inl (by dsimp only; omega)⟩
  | succ fuel ih =>
    simp only [Functional.walk, Config.preQuad] at hw
    split at hw
    · rename_i h
      obtain ⟨a, b, c, d, e⟩ := ih (by omega) h.1 hw
      refine ⟨by omega, by omega, c, fun k hk => ?_, e⟩
      cases k with
      | zero => exact h.2
      | succ k =>
        have := d k (by omega)
        rwa [show i + 4 + 4 * k = i + 4 * (k + 1) by omega] at this
    · rename_i h
      subst hw
      refine ⟨by simp, le_refl _, hi, by simp, ?_⟩
      by_cases h4 : i + 4 ≤ blen
      · exact .inr fun hq => h ⟨h4, hq⟩
      · exact .inl (by dsimp only; omega)

/-- A candidate is accepted exactly when its first eight quads match (rules R121, R123). -/
theorem walk_eight {m : List Host.Cell} {blen s : Nat} (hb : blen ≤ 1024) (hs : s + 32 ≤ blen) :
    8 ≤ (Functional.walk m blen 1024 s 0).2 ↔ ∀ k, k < 8 → Functional.quad m (s + 4 * k) = 0b1100#4 := by
  obtain ⟨a, _, c, d, e⟩ := walk_spec (m := m) (fuel := 1024) (i := s) (q := 0) (blen := blen) (by omega) (by omega) rfl
  constructor
  · intro h k hk; exact d k (by omega)
  · intro h
    by_contra hlt
    rcases e with e | e
    · omega
    · apply e
      rw [a]
      exact h _ (by omega)

/-- Everything the search over the candidates answers (rules R121, R123, R124). -/
theorem preambleFrom_spec {m : List Host.Cell} {blen fuel s : Nat} (hf : blen < s + fuel + 32) :
    match Functional.preambleFrom m blen fuel s with
    | some w => ∃ s0, s ≤ s0 ∧ s0 + 32 ≤ blen ∧ Functional.walk m blen 1024 s0 0 = w ∧ 8 ≤ w.2 ∧
        ∀ s', s ≤ s' → s' < s0 → ¬ 8 ≤ (Functional.walk m blen 1024 s' 0).2
    | none => ∀ s', s ≤ s' → s' + 32 ≤ blen → ¬ 8 ≤ (Functional.walk m blen 1024 s' 0).2 := by
  induction fuel generalizing s with
  | zero => simp only [Functional.preambleFrom]; intro s' h1 h2; omega
  | succ fuel ih =>
    simp only [Functional.preambleFrom, Config.preMinBits, Config.preMinQuality, Config.maxBits]
    by_cases hc : s + 32 ≤ blen
    · rw [if_pos hc]
      by_cases hq : 8 ≤ (Functional.walk m blen 1024 s 0).2
      · rw [if_pos hq]
        exact ⟨s, le_refl _, hc, rfl, hq, fun s' h1 h2 => by omega⟩
      · rw [if_neg hq]
        have := @ih (s + 1) (by omega)
        split at this
        · rename_i w hw
          obtain ⟨s0, h1, h2, h3, h4, h5⟩ := this
          refine ⟨s0, by omega, h2, h3, h4, fun s' h6 h7 => ?_⟩
          by_cases hss : s' = s
          · subst hss; exact hq
          · exact h5 s' (by omega) h7
        · rename_i hw
          intro s' h6 h7
          by_cases hss : s' = s
          · subst hss; exact hq
          · exact this s' (by omega) h7
    · rw [if_neg hc]
      intro s' h1 h2
      omega

/-- A window matches exactly when its sixteen bits are 1 (rules R84, R140). -/
theorem windowAt_iff {m : List Host.Cell} {j : Nat} : Functional.windowAt m j = true ↔ ∀ i, i < 16 → captureBit m
    (j + i) = 1#1 := by
  simp [Functional.windowAt]

/-- A window that does not match holds a 0 bit. -/
theorem not_windowAt {m : List Host.Cell} {j : Nat} : ¬ Functional.windowAt m j = true ↔ ∃ i, i < 16 ∧ captureBit m
    (j + i) = 0#1 := by
  rw [windowAt_iff]
  push Not
  simp only [ne_eq, ← bit_ne_one]

/-- Everything the search over the windows answers (rules R140, R143). -/
theorem syncFrom_spec {m : List Host.Cell} {blen fuel j : Nat} (hf : blen < j + fuel + 16) :
    match Functional.syncFrom m blen fuel j with
    | some e => j + 16 ≤ e ∧ e ≤ blen ∧ Functional.windowAt m (e - 16) = true ∧
        ∀ j', j ≤ j' → j' + 16 < e → ¬ Functional.windowAt m j' = true
    | none => ∀ j', j ≤ j' → j' + 16 ≤ blen → ¬ Functional.windowAt m j' = true := by
  induction fuel generalizing j with
  | zero => simp only [Functional.syncFrom]; intro s' h1 h2; omega
  | succ fuel ih =>
    simp only [Functional.syncFrom, Config.syncBits]
    by_cases hc : j + 16 ≤ blen
    · rw [if_pos hc]
      by_cases hq : Functional.windowAt m j = true
      · rw [if_pos hq]
        exact ⟨le_refl _, hc, by rwa [Nat.add_sub_cancel], fun s' h1 h2 => by omega⟩
      · rw [if_neg hq]
        have := @ih (j + 1) (by omega)
        split at this
        · rename_i w hw
          obtain ⟨h1, h2, h3, h5⟩ := this
          refine ⟨by omega, h2, h3, fun s' h6 h7 => ?_⟩
          by_cases hss : s' = j
          · subst hss; exact hq
          · exact h5 s' (by omega) h7
        · rename_i hw
          intro s' h6 h7
          by_cases hss : s' = j
          · subst hss; exact hq
          · exact this s' (by omega) h7
    · rw [if_neg hc]
      intro s' h1 h2
      omega

/-- Everything a run measures (rule R156). -/
theorem runLength_spec {m : List Host.Cell} {blen fuel pos : Nat} {v : Bit} (hp : pos ≤ blen) (hf : blen ≤ pos + fuel) :
    pos + Functional.runLength m blen v fuel pos ≤ blen ∧
    (∀ i, i < Functional.runLength m blen v fuel pos → captureBit m (pos + i) = v) ∧
    (pos + Functional.runLength m blen v fuel pos = blen ∨ captureBit m (pos + Functional.runLength m blen v fuel pos) ≠ v) := by
  induction fuel generalizing pos with
  | zero => simp only [Functional.runLength]; exact ⟨hp, fun i hi => by omega, .inl (by omega)⟩
  | succ fuel ih =>
    simp only [Functional.runLength]
    split
    · rename_i h
      obtain ⟨a, b, c⟩ := @ih (pos + 1) (by omega) (by omega)
      rw [show pos + (Functional.runLength m blen v fuel (pos + 1) + 1) = pos + 1 + Functional.runLength m blen v fuel (pos + 1) by omega]
      refine ⟨a, fun i hi => ?_, c⟩
      cases i with
      | zero => exact h.2
      | succ i => rw [show pos + (i + 1) = pos + 1 + i by omega]; exact b i (by omega)
    · rename_i h
      refine ⟨hp, fun i hi => by omega, ?_⟩
      by_cases hb : pos < blen
      · exact .inr fun hv => h ⟨hb, hv⟩
      · exact .inl (by omega)

/-- The measured length is the only one that fits (rule R156). -/
theorem runLength_unique {m : List Host.Cell} {blen fuel pos l : Nat} {v : Bit} (hp : pos + l ≤ blen) (hf : blen ≤ pos + fuel)
    (h1 : ∀ i, i < l → captureBit m (pos + i) = v) (h2 : pos + l = blen ∨ captureBit m (pos + l) ≠ v) :
    Functional.runLength m blen v fuel pos = l := by
  obtain ⟨a, b, c⟩ := runLength_spec (m := m) (v := v) (pos := pos) (by omega) hf
  generalize Functional.runLength m blen v fuel pos = l' at *
  rcases Nat.lt_trichotomy l' l with hlt | heq | hgt
  · rcases c with c | c
    · omega
    · exact absurd (h1 _ hlt) c
  · exact heq
  · rcases h2 with c | c
    · omega
    · exact absurd (b _ hgt) c

/-- Where the symbol loop ends (rules R159, R167). -/
theorem demodFrom_spec {m : List Host.Cell} {blen left pos : Nat} {pkt : Vector Byte 8}
    (hb : blen ≤ 1024) {pkt' : Vector Byte 8} {e : Nat} (hp : pos ≤ blen)
    (h : Functional.demodFrom m blen left pkt pos = some (pkt', e)) :
    pos + 2 * left ≤ e ∧ e ≤ blen ∧ (0 < left → captureBit m pos = 0#1 ∧ (e = blen ∨ captureBit m e = 0#1)) := by
  induction left generalizing pkt pos with
  | zero => simp only [Functional.demodFrom, Option.some.injEq, Prod.mk.injEq] at h; omega
  | succ left ih =>
    simp only [Functional.demodFrom] at h
    split at h
    · rename_i hlt
      obtain ⟨a, b, c⟩ := runLength_spec (m := m) (v := 0#1) (fuel := 1024) hp (by omega)
      simp only [Config.maxBits] at h
      generalize Functional.runLength m blen 0#1 1024 pos = z at *
      obtain ⟨a', b', c'⟩ := runLength_spec (m := m) (v := 1#1) (fuel := 1024) a (by omega)
      generalize Functional.runLength m blen 1#1 1024 (pos + z) = o at *
      split at h
      · cases h
      · rename_i hzo
        obtain ⟨i1, i2, i3⟩ := ih a' h
        refine ⟨by omega, i2, fun _ => ⟨b 0 (by omega), ?_⟩⟩
        cases left with
        | zero =>
          simp only [Functional.demodFrom, Option.some.injEq, Prod.mk.injEq] at h
          rw [← h.2]
          rcases c' with c' | c'
          · exact .inl c'
          · exact .inr (bit_ne_one.mp c')
        | succ left => exact (i3 (by omega)).2
    · cases h

/-- Adding a power of two whose bit is clear sets that bit. -/
theorem addBit_getLsbD (x : Byte) (j i : Nat) (hj : j < 8) (hx : x.getLsbD j = false) :
    (x + BitVec.ofNat 8 (2 ^ j)).getLsbD i = (decide (i = j) || x.getLsbD i) := by
  have h : x &&& BitVec.ofNat 8 (2 ^ j) = 0#8 := by
    apply BitVec.eq_of_getLsbD_eq
    intro k hk
    simp only [BitVec.getLsbD_and, BitVec.getLsbD_ofNat, Nat.testBit_two_pow, hk]
    by_cases hkj : j = k
    · subst hkj; simp [hx]
    · simp [hkj]
  rw [BitVec.add_eq_or_of_and_eq_zero _ _ h]
  simp only [BitVec.getLsbD_or, BitVec.getLsbD_ofNat, Nat.testBit_two_pow]
  by_cases hi : i = j
  · subst hi; simp [hj]
  · simp [hi, Ne.symm hi]

/-- Packing adds the data bit to its own byte (rules R160, R165). -/
theorem packetByte_packBit_same (p : Vector Byte 8) (n : Nat) (b : Bit) (hn : n < 64) :
    packetByte (packBit p n b) (n / 8) = packetByte p (n / 8) + BitVec.ofNat 8 (b.toNat * 2 ^ (7 - n % 8)) := by
  have hx : n / 8 < 8 := by omega
  unfold packBit packetByte
  simp [List.getD_eq_getElem?_getD, hx]

/-- Packing leaves every other byte alone (rule R160). -/
theorem packetByte_packBit_other (p : Vector Byte 8) (n k : Nat) (b : Bit) (hk : k ≠ n / 8) :
    packetByte (packBit p n b) k = packetByte p k := by
  unfold packBit packetByte
  simp only [List.getD_eq_getElem?_getD, Vector.getElem?_toList, Vector.getElem?_setIfInBounds]
  rw [if_neg (Ne.symm hk)]

/-- Data bit `n` of a packet. -/
def dataBit (p : Vector Byte 8) (n : Nat) : Bool := (packetByte p (n / 8)).getLsbD (7 - n % 8)

/-- Packing writes its own data bit and no other (rule R160). -/
theorem dataBit_packBit {p : Vector Byte 8} {n k : Nat} (hn : n < 64) (h : dataBit p n = false) (b : Bit) :
    dataBit (packBit p n b) k = if k = n then decide (b = 1#1) else dataBit p k := by
  unfold dataBit at *
  by_cases h8 : k / 8 = n / 8
  · rw [h8, packetByte_packBit_same _ _ _ hn]
    rcases bit_cases b with hb | hb
    · subst hb
      by_cases hkn : k = n
      · subst hkn; simp [h]
      · simp [hkn]
    · subst hb
      simp only [BitVec.toNat_ofNat, Nat.reducePow, Nat.one_mod, one_mul]
      rw [addBit_getLsbD _ _ _ (by omega) h]
      by_cases hkn : k = n
      · subst hkn; simp
      · rw [if_neg hkn]
        have : ¬ (7 - k % 8 = 7 - n % 8) := by omega
        simp [this]
  · rw [packetByte_packBit_other _ _ _ _ h8, if_neg (by rintro rfl; exact h8 rfl)]

/-- A packet is determined by its 64 data bits. -/
theorem packet_ext {p p' : Vector Byte 8} (h : ∀ i, i < 64 → (packetByte p (i / 8)).getLsbD (7 - i % 8) = (packetByte
    p' (i / 8)).getLsbD (7 - i % 8)) : p = p' := by
  have hb : ∀ k, k < 8 → packetByte p k = packetByte p' k := by
    intro k hk
    apply BitVec.eq_of_getLsbD_eq
    intro j hj
    have := h (8 * k + (7 - j)) (by omega)
    rwa [show (8 * k + (7 - j)) / 8 = k by omega, show 7 - (8 * k + (7 - j)) % 8 = j by omega] at this
  apply Vector.ext
  intro i hi
  have := hb i hi
  unfold packetByte at this
  simp only [List.getD_eq_getElem?_getD, Vector.getElem?_toList] at this
  simpa [hi] using this

/-- The recomputed sum as a number (rule R175). -/
theorem sumOf_toNat (p : Vector Byte 8) : (Functional.sumOf p).toNat =
      ((packetByte p 0).toNat + (packetByte p 1).toNat + (packetByte p 2).toNat + (packetByte p 3).toNat +
        (packetByte p 4).toNat + (packetByte p 5).toNat + (packetByte p 6).toNat) % 256 := by
  simp [Functional.sumOf, List.range, List.range.loop]
  omega

/-- A flipped bit changes a byte. -/
theorem xor_flip (x : Byte) (j : Nat) (hj : j < 8) : (x ^^^ BitVec.ofNat 8 (2 ^ j)) ≠ x := by
  intro h
  have := congrArg (fun y => y.getLsbD j) h
  simp only [BitVec.getLsbD_xor, BitVec.getLsbD_ofNat, Nat.testBit_two_pow_self, hj, decide_true, Bool.and_self, Bool.xor_true] at this
  simp at this

/-- A walk depends on the valid bits alone. -/
theorem walk_congr {m m' : List Host.Cell} {blen fuel i q : Nat} (h : ∀ i, i < blen → captureBit m i = captureBit m' i) :
    Functional.walk m blen fuel i q = Functional.walk m' blen fuel i q := by
  induction fuel generalizing i q with
  | zero => rfl
  | succ fuel ih =>
    simp only [Functional.walk, Config.preQuad]
    by_cases hc : i + 4 ≤ blen
    · have : Functional.quad m i = Functional.quad m' i := by
        unfold Functional.quad
        rw [h _ (by omega), h _ (by omega), h _ (by omega), h _ (by omega)]
      rw [this, ih]
    · rw [if_neg (fun x => hc x.1), if_neg (fun x => hc x.1)]

/-- The search over the candidates depends on the valid bits alone. -/
theorem preambleFrom_congr {m m' : List Host.Cell} {blen fuel s : Nat} (h : ∀ i, i < blen → captureBit m i = captureBit m' i) :
    Functional.preambleFrom m blen fuel s = Functional.preambleFrom m' blen fuel s := by
  induction fuel generalizing s with
  | zero => rfl
  | succ fuel ih => simp only [Functional.preambleFrom]; rw [walk_congr h, ih]

/-- The search over the windows depends on the valid bits alone. -/
theorem syncFrom_congr {m m' : List Host.Cell} {blen fuel s : Nat} (h : ∀ i, i < blen → captureBit m i = captureBit m' i) :
    Functional.syncFrom m blen fuel s = Functional.syncFrom m' blen fuel s := by
  induction fuel generalizing s with
  | zero => rfl
  | succ fuel ih =>
    simp only [Functional.syncFrom, Config.syncBits]
    rw [ih]
    by_cases hc : s + 16 ≤ blen
    · have : Functional.windowAt m s = Functional.windowAt m' s := by
        rw [Bool.eq_iff_iff, windowAt_iff, windowAt_iff]
        constructor <;> intro hh i hi
        · rw [← h _ (by omega)]; exact hh i hi
        · rw [h _ (by omega)]; exact hh i hi
      rw [this]
    · rw [if_neg hc, if_neg hc]

/-- A run depends on the valid bits alone. -/
theorem runLength_congr {m m' : List Host.Cell} {blen fuel s : Nat} {v : Bit}
    (h : ∀ i, i < blen → captureBit m i = captureBit m' i) :
    Functional.runLength m blen v fuel s = Functional.runLength m' blen v fuel s := by
  induction fuel generalizing s with
  | zero => rfl
  | succ fuel ih =>
    simp only [Functional.runLength]
    by_cases hc : s < blen
    · rw [h _ hc, ih]
    · rw [if_neg (fun x => hc x.1), if_neg (fun x => hc x.1)]

/-- The symbol loop depends on the valid bits alone. -/
theorem demodFrom_congr_valid {m m' : List Host.Cell} {blen left pos : Nat} {pkt : Vector Byte 8}
    (h : ∀ i, i < blen → captureBit m i = captureBit m' i) :
    Functional.demodFrom m blen left pkt pos = Functional.demodFrom m' blen left pkt pos := by
  induction left generalizing pos pkt with
  | zero => rfl
  | succ fuel ih =>
    simp only [Functional.demodFrom]
    rw [runLength_congr h, runLength_congr h, ih]

end Sys2Proof.Machine
end

