-- ==== Sys2Proof/Laws/Step.lean ====
section
/-! SUPPORT. What a step selects: the sequencing registers, the command inputs and the request wires, read through the decoder.
-/

namespace Sys2Proof.Machine

/-- The STAGE word of a pair decodes to the stage's operation where rule R91 lists the pair, and is rejected elsewhere. -/
theorem decode_encodeStage (g : Stage) (sub : BitVec 3) :
    decode .stage (encodeStage g sub).toNat =
      if g.lists sub then .ok (g.operation sub) else .error .unlistedSubState := by
  revert sub
  cases g <;> decide

/-- A CALL word with `start = 1` decodes to the command. -/
theorem decode_encodeCall (n : BitVec 8) : decode .call (encodeCall 1#1 n).toNat = .ok (.decode n) := by
  revert n
  decide +kernel

/-- A BITIDX word decodes to its two fields. -/
theorem decode_bitIdx (i : BitVec 10) :
    decode .bitIdx i.toNat = .ok (.bitat (i.extractLsb' 3 7) (i.extractLsb' 0 3)) := by
  have := i.isLt
  simp [decode, Format.width, decodeBitIdx, this]

/-- The operation of a listed pair is well formed, and of no other pair. -/
theorem operation_wf (g : Stage) (sub : BitVec 3) : (g.operation sub).wf = g.lists sub := by
  cases g <;> rfl

/-- A step while reset is asserted (rule R260). -/
theorem step_of_rst {st : State} (h : st.rst = true) : step st = .next st.applyReset := by
  simp [step, State.select, h]

/-- A step with a BITAT on the request wires. -/
theorem step_of_request {st : State} {i : BitVec 10} (h : st.rst = false) (hi : st.bitat = .request i) :
    step st = exec (.bitat (i.extractLsb' 3 7) (i.extractLsb' 0 3)) st := by
  simp [step, State.select, h, hi, Action.ofDecoded, decode_bitIdx]

/-- A step that samples the host's command (rule R209). -/
theorem step_of_sampled {st : State} (h : st.rst = false) (hr : st.noRequest = true) (hs : st.sampled = true) :
    step st = exec (.decode st.readBytes) st := by
  unfold State.noRequest at hr
  simp only [step, State.select, h, hs, decode_encodeCall]
  cases hb : st.bitat <;> simp_all [Action.ofDecoded]

/-- A step that runs the operation of the sequencing registers (rule R80). -/
theorem step_of_stage {st : State} (h : st.rst = false) (hr : st.noRequest = true) (hs : st.sampled = false)
    (hl : st.regs.stage.lists st.regs.sub = true) :
    step st = exec (st.regs.stage.operation st.regs.sub) st := by
  unfold State.noRequest at hr
  simp only [step, State.select, h, hs, decode_encodeStage, hl]
  cases hb : st.bitat <;> simp_all [Action.ofDecoded]

/-- A pair that rule R91 does not list has no step (rule R92 (d)). -/
theorem step_of_unlisted {st : State} (h : st.rst = false) (hr : st.noRequest = true) (hs : st.sampled = false)
    (hl : st.regs.stage.lists st.regs.sub = false) : step st = .refused .unlistedSubState := by
  unfold State.noRequest at hr
  simp only [step, State.select, h, hs, decode_encodeStage, hl]
  cases hb : st.bitat <;> simp_all [Action.ofDecoded]

end Sys2Proof.Machine
end

