-- ==== Sys2Proof/Laws/MicroStep.lean ====
section
/-! SUPPORT. The micro-steps of all stages as one function on the registers, and what a step can do, said once: every invariant
and every frame is derived from `step_next_cases`. -/

namespace Sys2Proof.Machine

/-- The micro-step of a (stage, sub) pair that rule R91 lists; a holding stage changes no register. -/
def microStep (m : List Host.Cell) (r : Regs) : Except Fault Regs :=
  match r.stage with
  | .start =>
    match r.sub.toNat with
    | 0 => .ok (pCand r)
    | 1 => pWalk m r
    | _ => .ok (pJudge r)
  | .preambleFound =>
    match r.sub.toNat with
    | 0 => .ok (sCheck r)
    | _ => sShift m r
  | .syncFound =>
    match r.sub.toNat with
    | 0 => .ok (mInit r)
    | 1 => .ok (mSymbol r)
    | 2 => mZeros m r
    | 3 => mOnes m r
    | _ => .ok (mJudge r)
  | .symbolsDemodulated =>
    match r.sub.toNat with
    | 0 => .ok (kInit r)
    | 1 => .ok (kAdd r)
    | _ => .ok (kCmp r)
  | .checksumVerified => .ok (vEval r)
  | .idle => .ok r
  | .done => .ok r
  | .failed => .ok r

/-- The eight values of a sub-state. -/
theorem sub_cases (sub : BitVec 3) :
    sub = 0#3 ∨ sub = 1#3 ∨ sub = 2#3 ∨ sub = 3#3 ∨ sub = 4#3 ∨ sub = 5#3 ∨ sub = 6#3 ∨ sub = 7#3 := by
  revert sub
  decide

/-- The operation of a listed pair is its micro-step. -/
theorem exec_operation {st : State} (hl : st.regs.stage.lists st.regs.sub = true) :
    exec (st.regs.stage.operation st.regs.sub) st = st.finish (microStep st.cap st.regs) := by
  obtain ⟨rst, start, n, cap, r, w⟩ := st
  obtain ⟨g, sub⟩ := r
  dsimp only at hl ⊢
  rcases sub_cases sub with h | h | h | h | h | h | h | h <;> subst h <;> cases g <;>
    first
    | rfl
    | exact absurd hl (by decide)

/-- What a step out of reset can do, whole: present the result of a BITAT on the model's wires, start a call, or run the
micro-step of a listed pair. -/
theorem step_next_cases {st t : State} (h : st.rst = false) (hs : step st = .next t) :
    (∃ i b, st.bitat = .request i ∧ bitAt st.cap st.regs.blen.toNat i.toNat = .ok b ∧
      t = { st with bitat := .result i b }) ∨
    (st.noRequest = true ∧ st.sampled = true ∧ st.busy = false ∧ t = st.withRegs (Regs.startCall st.readBytes)) ∨
    (st.noRequest = true ∧ st.sampled = false ∧ st.regs.stage.lists st.regs.sub = true ∧
      ∃ r, microStep st.cap st.regs = .ok r ∧ t = st.withRegs r) := by
  by_cases hr : st.noRequest = true
  · cases hsam : st.sampled
    · cases hl : st.regs.stage.lists st.regs.sub
      · rw [step_of_unlisted h hr hsam hl] at hs
        cases hs
      · rw [step_of_stage h hr hsam hl, exec_operation hl] at hs
        obtain ⟨r, h1, h2⟩ := State.finish_eq_next.mp hs
        exact .inr (.inr ⟨hr, rfl, rfl, r, h1, h2⟩)
    · have hb : st.busy = false := by
        simp only [State.sampled, Bool.and_eq_true, Bool.not_eq_true'] at hsam
        exact hsam.1.2
      rw [step_of_sampled h hr hsam] at hs
      simp only [exec, execDecode, hb] at hs
      cases hs
      exact .inr (.inl ⟨hr, rfl, hb, rfl⟩)
  · unfold State.noRequest at hr
    split at hr
    · rename_i i hi
      rw [step_of_request h hi] at hs
      have hx : bitIndex (i.extractLsb' 3 7) (i.extractLsb' 0 3) = i := by
        unfold bitIndex
        ext k hk
        simp only [BitVec.getElem_append, BitVec.getElem_extractLsb']
        split
        · simp [BitVec.getLsbD, BitVec.getElem_eq_testBit_toNat]
        · rename_i hk3
          have : 3 + (k - 3) = k := by omega
          simp [this, BitVec.getLsbD, BitVec.getElem_eq_testBit_toNat]
      simp only [exec, execBitat, hx] at hs
      left
      cases hb : bitAt st.cap st.regs.blen.toNat i.toNat with
      | error f => rw [hb] at hs; cases hs
      | ok b =>
        rw [hb] at hs
        cases hs
        exact ⟨i, b, hi, hb, rfl⟩
    · exact absurd rfl hr

end Sys2Proof.Machine
end

