-- ==== Sys2Proof/Laws/Invariant.lean ====
section
/-! SUPPORT. The invariant, micro-step by micro-step: each keeps the ranges and establishes what holds of the registers in the
stage it leads to; and under the invariant each micro-step answers. -/

namespace Sys2Proof.Machine

/-- The sync window as a number (rule R142). -/
theorem shiftIn_toNat (acc : BitVec 16) (b : Bit) : (shiftIn acc b).toNat = (acc.toNat * 2 + b.toNat) % 65536 := by
  simp [shiftIn]

/-- One K_ADD step extends the sum by one byte (rules R177, R179 (a)). -/
theorem partialSum_succ (p : Vector Byte 8) (k : Nat) : partialSum p (k + 1) = addByte (partialSum p k) (packetByte p k) := by
  apply BitVec.eq_of_toNat_eq
  simp [partialSum, addByte, List.range_succ, BitVec.toNat_add]

/-- The reset values are in range. -/
theorem reset_range : Regs.reset.InRange := by constructor <;> decide

/-- The start step establishes the invariant, whatever the registers held (rules R207, R209). -/
theorem startCall_meets_inv (n : BitVec 8) : (Regs.startCall n).InRange ∧ (Regs.startCall n).InStage := by
  cases h : entryCheck n.toNat
  · rw [Regs.startCall_rejected h]
    refine ⟨?_, ?_⟩
    · constructor <;> simp [Regs.reset]
    · show Regs.FailedCall _
      refine ⟨rfl, by simp, by simp [h], by simp⟩
  · rw [Regs.startCall_accepted h]
    simp only [entryCheck, Bool.and_eq_true, decide_eq_true_eq, Config.capacity] at h
    refine ⟨?_, ?_⟩
    · constructor <;> (simp [Regs.reset]; try omega)
    · show Regs.Entered _ ∧ Regs.InPreamble _
      refine ⟨⟨by simp; omega, by simp; omega, by simp, rfl⟩, ?_⟩
      simp [Regs.InPreamble, Regs.reset]

/-- A call that was entered passed the entry check. -/
theorem entered_entryCheck {r : Regs} (h : r.Entered) : entryCheck r.vlen.toNat = true := by
  have := h.vlen_pos; have := h.vlen_le
  simp [entryCheck]; omega

/-- `raise` from an entered call keeps the invariant (rule R236). -/
theorem raise_meets_inv {r : Regs} (hr : r.InRange) (he : r.Entered) {e : ErrKind} (h1 : e ≠ .notEnoughData)
    (hm : e = .checksumMismatch → r.csumExpected = Functional.sumOf r.packet ∧ r.csumActual = packetByte r.packet 7 ∧ r.csumExpected ≠ r.csumActual) :
    (r.raise e).InRange ∧ (r.raise e).InStage := by
  refine ⟨?_, ?_⟩
  · obtain ⟨a,b,c,d,e1,f,g,h,i,j,k,l,m⟩ := hr
    exact ⟨by simp, b,c,d,e1,f,g,h,i,j,k,l,m⟩
  · show Regs.FailedCall _
    refine ⟨rfl, by simp, ?_, ?_⟩
    · simp [h1, entered_entryCheck he]
    · intro h; exact hm (by simpa using h)

/-- P_CAND keeps the invariant. -/
theorem pCand_keeps_inv {r : Regs} (hr : r.InRange) (he : r.Entered) (hs : r.stage = .start) :
    (pCand r).InRange ∧ (pCand r).InStage := by
  unfold pCand
  split
  · rename_i hc
    simp only [Config.preMinBits] at hc
    obtain ⟨a,b,c,d,e1,f,g,h,i,j,k,l,m⟩ := hr
    refine ⟨⟨by simp, b,c,d,by show r.s.toNat ≤ r.blen.toNat; omega,by simp,g,h,i,j,k,l,m⟩, ?_⟩
    simp only [Regs.InStage, hs]
    obtain ⟨e1,e2,e3,e4⟩ := he
    refine ⟨⟨e1,e2,e3,e4⟩, ?_⟩
    simp [Regs.InPreamble, hc]
  · exact raise_meets_inv hr he (by simp) (by simp)

/-- P_WALK keeps the invariant. -/
theorem pWalk_keeps_inv {m : List Host.Cell} {r r' : Regs} (hr : r.InRange) (he : r.Entered) (hs : r.stage = .start)
    (h : r.sub = 1#3) (hp : r.InPreamble)
    (hm : pWalk m r = .ok r') : r'.InRange ∧ r'.InStage := by
  simp only [Regs.InPreamble, h] at hp
  have hp : r.s.toNat + 32 ≤ r.blen.toNat ∧ r.pos.toNat = r.s.toNat + 4 * r.q.toNat := hp
  have stay : ({ r with sub := 2#3 } : Regs).InRange ∧ ({ r with sub := 2#3 } : Regs).InStage := by
    obtain ⟨a,b,c,d,e1,f,g,h,i,j,k,l,m⟩ := hr
    refine ⟨⟨by simp, b,c,d,e1,f,g,h,i,j,k,l,m⟩, ?_⟩
    simp only [Regs.InStage, hs]
    obtain ⟨e1,e2,e3,e4⟩ := he
    exact ⟨⟨e1,e2,e3,e4⟩, by simp [Regs.InPreamble, hp]⟩
  unfold pWalk at hm
  split at hm
  · rename_i hc
    simp only [Config.preQuad] at hc
    split at hm
    · split at hm
      · cases hm
        obtain ⟨a,b,c,d,e1,f,g,h',i,j,k,l,m⟩ := hr
        have hq : (r.q + 1#9).toNat = r.q.toNat + 1 := by simp [BitVec.toNat_add]; omega
        have hpos : (r.pos + 4#11).toNat = r.pos.toNat + 4 := by simp [BitVec.toNat_add]; omega
        refine ⟨⟨a, b,c,d,by simp only [hpos]; omega,by simp only [hq]; omega,g,h',i,j,k,l,m⟩, ?_⟩
        simp only [Regs.InStage, hs]
        obtain ⟨e1,e2,e3,e4⟩ := he
        refine ⟨⟨e1,e2,e3,e4⟩, ?_⟩
        simp only [Regs.InPreamble, h, hq, hpos]
        exact ⟨hp.1, by omega⟩
      · cases hm; exact stay
    · cases hm
  · cases hm; exact stay

/-- P_JUDGE keeps the invariant. -/
theorem pJudge_keeps_inv {r : Regs} (hr : r.InRange) (he : r.Entered) (hs : r.stage = .start) (h : r.sub = 2#3)
    (hp : r.InPreamble) :
    (pJudge r).InRange ∧ (pJudge r).InStage := by
  simp only [Regs.InPreamble, h] at hp
  have hp : r.s.toNat + 32 ≤ r.blen.toNat ∧ r.pos.toNat = r.s.toNat + 4 * r.q.toNat := hp
  unfold pJudge
  split
  · rename_i hc
    simp only [Config.preMinQuality] at hc
    obtain ⟨a,b,c,d,e1,f,g,h,i,j,k,l,m⟩ := hr
    refine ⟨⟨by simp, b,c,d,e1,f, .inr ⟨by simp; omega, by simp; omega⟩, .inr ⟨by simpa using hc, by simpa using f⟩, i,j,k,l,m⟩, ?_⟩
    simp only [Regs.InStage, Regs.goto_stage]
    obtain ⟨e1,e2,e3,e4⟩ := he
    refine ⟨⟨⟨e1,e2,e3,e4⟩, hc, f, hp.2, by simp; omega⟩, ?_⟩
    simp [Regs.InSync]
  · obtain ⟨a,b,c,d,e1,f,g,h,i,j,k,l,m⟩ := hr
    have hss : (r.s + 1#11).toNat = r.s.toNat + 1 := by simp [BitVec.toNat_add]; omega
    refine ⟨⟨by simp, b,c,by simp only [hss]; omega,e1,f,g,h,i,j,k,l,m⟩, ?_⟩
    simp only [Regs.InStage, hs]
    obtain ⟨e1,e2,e3,e4⟩ := he
    refine ⟨⟨e1,e2,e3,e4⟩, ?_⟩
    simp only [Regs.InPreamble, hss]
    exact .inr (by omega)

/-- S_CHECK keeps the invariant. -/
theorem sCheck_keeps_inv {r : Regs} (hr : r.InRange) (hd : r.PreambleDone) (hs : r.stage = .preambleFound) :
    (sCheck r).InRange ∧ (sCheck r).InStage := by
  unfold sCheck
  split
  · exact raise_meets_inv hr hd.entered (by simp) (by simp)
  · obtain ⟨a,b,c,d,e1,f,g,h,i,j,k,l,m⟩ := hr
    refine ⟨⟨by simp, b,c,d,hd.preEnd_le,f,g,h,i,j,k,l,m⟩, ?_⟩
    simp only [Regs.InStage, hs]
    obtain ⟨⟨e1,e2,e3,e4⟩, p1,p2,p3,p4⟩ := hd
    refine ⟨⟨⟨e1,e2,e3,e4⟩, p1,p2,p3,p4⟩, ?_⟩
    simp [Regs.InSync]

/-- S_SHIFT keeps the invariant: the accumulator cannot be full before sixteen shifts. -/
theorem sShift_keeps_inv {m : List Host.Cell} {r r' : Regs} (hr : r.InRange) (hd : r.PreambleDone)
    (hs : r.stage = .preambleFound) (h : r.sub = 1#3) (hp : r.InSync)
    (hm : sShift m r = .ok r') : r'.InRange ∧ r'.InStage := by
  simp only [Regs.InSync, h] at hp
  have hp : r.preEnd.toNat ≤ r.pos.toNat ∧ r.acc.toNat < 2 ^ (r.pos.toNat - r.preEnd.toNat) := hp
  unfold sShift at hm
  split at hm
  · rename_i hc
    split at hm
    · rename_i bb hbb
      have hacc : (shiftIn r.acc bb).toNat < 2 ^ (r.pos.toNat + 1 - r.preEnd.toNat) := by
        rw [shiftIn_toNat]
        have : r.pos.toNat + 1 - r.preEnd.toNat = (r.pos.toNat - r.preEnd.toNat) + 1 := by omega
        rw [this, Nat.pow_succ]
        have := Nat.mod_le (r.acc.toNat * 2 + bb.toNat) 65536
        have := bb.isLt
        omega
      have hb := hr.blen_le
      have hpos : (r.pos + 1#11).toNat = r.pos.toNat + 1 := by simp [BitVec.toNat_add]; omega
      dsimp only at hm
      split at hm
      · rename_i hmk
        cases hm
        have h16 : r.preEnd.toNat + 16 ≤ r.pos.toNat + 1 := by
          rw [hmk] at hacc
          by_contra hlt
          have : r.pos.toNat + 1 - r.preEnd.toNat ≤ 15 := by omega
          have := Nat.pow_le_pow_right (show 0 < 2 by decide) this
          simp at hacc
          omega
        have h32 : 32 ≤ r.preEnd.toNat := by have := hd.preEnd_eq; have := hd.quality_ge; omega
        obtain ⟨a,b,c,d,e1,f,g,h',i,j,k,l,m⟩ := hr
        refine ⟨⟨by simp, b,c,d,by simp only [Regs.goto_pos, hpos, Regs.goto_blen]; omega,f,g,h',.inr ⟨by simp only [Regs.goto_syncEnd, hpos]; omega, by simp only [Regs.goto_syncEnd, hpos]; omega⟩,j,k,l,m⟩, ?_⟩
        simp only [Regs.InStage, Regs.goto_stage]
        obtain ⟨⟨e1,e2,e3,e4⟩, p1,p2,p3,p4⟩ := hd
        refine ⟨⟨⟨⟨e1,e2,e3,e4⟩, p1,p2,p3,p4⟩, ?_, ?_⟩, ?_⟩
        · simp only [Regs.goto_syncEnd, Regs.goto_preEnd, hpos]; omega
        · simp only [Regs.goto_syncEnd, Regs.goto_blen, hpos]; omega
        · simp [Regs.InDemod]
      · cases hm
        obtain ⟨a,b,c,d,e1,f,g,h',i,j,k,l,m⟩ := hr
        refine ⟨⟨a, b,c,d,by simp only [hpos]; omega,f,g,h',i,j,k,l,m⟩, ?_⟩
        simp only [Regs.InStage, hs]
        obtain ⟨⟨e1,e2,e3,e4⟩, p1,p2,p3,p4⟩ := hd
        refine ⟨⟨⟨e1,e2,e3,e4⟩, p1,p2,p3,p4⟩, ?_⟩
        simp only [Regs.InSync, h, hpos]
        exact ⟨by omega, hacc⟩
    · cases hm
  · cases hm; exact raise_meets_inv hr hd.entered (by simp) (by simp)

/-- M_INIT keeps the invariant. -/
theorem mInit_keeps_inv {r : Regs} (hr : r.InRange) (hd : r.SyncDone) (hs : r.stage = .syncFound) :
    (mInit r).InRange ∧ (mInit r).InStage := by
  unfold mInit
  obtain ⟨a,b,c,d,e1,f,g,h,i,j,k,l,m⟩ := hr
  refine ⟨⟨by simp, b,c,d,hd.syncEnd_le,f,g,h,i,j,k,by simp,m⟩, ?_⟩
  simp only [Regs.InStage, hs]
  obtain ⟨⟨⟨e1,e2,e3,e4⟩, p1,p2,p3,p4⟩, q1, q2⟩ := hd
  refine ⟨⟨⟨⟨e1,e2,e3,e4⟩, p1,p2,p3,p4⟩, q1, q2⟩, ?_⟩
  simp [Regs.InDemod]

/-- M_SYMBOL keeps the invariant. -/
theorem mSymbol_keeps_inv {r : Regs} (hr : r.InRange) (hd : r.SyncDone) (hs : r.stage = .syncFound) (h : r.sub = 1#3)
    (hp : r.InDemod) :
    (mSymbol r).InRange ∧ (mSymbol r).InStage := by
  simp only [Regs.InDemod, h] at hp
  have hp : r.syncEnd.toNat + 2 * r.nbits.toNat ≤ r.pos.toNat := hp
  have h48 : 48 ≤ r.syncEnd.toNat := by
    have := hd.preamble.preEnd_eq; have := hd.preamble.quality_ge; have := hd.syncEnd_ge; omega
  unfold mSymbol
  split
  · rename_i hc
    simp only [Config.pktBits] at hc
    obtain ⟨a,b,c,d,e1,f,g,h,i,j,k,l,m⟩ := hr
    refine ⟨⟨by simp, b,c,d,e1,f,g,h,i,j,k,l,.inr ⟨?_, ?_⟩⟩, ?_⟩
    · simp; omega
    · simp; omega
    simp only [Regs.InStage, Regs.goto_stage]
    obtain ⟨⟨⟨e1,e2,e3,e4⟩, p1,p2,p3,p4⟩, q1, q2⟩ := hd
    refine ⟨⟨⟨⟨⟨e1,e2,e3,e4⟩, p1,p2,p3,p4⟩, q1, q2⟩, ?_, ?_⟩, ?_⟩
    · simp; omega
    · simp; omega
    · simp [Regs.InChecksum]
  · rename_i hn
    simp only [Config.pktBits] at hn
    split
    · exact raise_meets_inv hr hd.preamble.entered (by simp) (by simp)
    · obtain ⟨a,b,c,d,e1,f,g,h,i,j,k,l,m⟩ := hr
      refine ⟨⟨by simp, b,c,d,e1,f,g,h,i,by simp,by simp,l,m⟩, ?_⟩
      simp only [Regs.InStage, hs]
      obtain ⟨⟨⟨e1,e2,e3,e4⟩, p1,p2,p3,p4⟩, q1, q2⟩ := hd
      refine ⟨⟨⟨⟨e1,e2,e3,e4⟩, p1,p2,p3,p4⟩, q1, q2⟩, ?_⟩
      have : r.nbits.toNat < 64 := by omega
      simp [Regs.InDemod, hp, this]

/-- M_ZEROS keeps the invariant. -/
theorem mZeros_keeps_inv {m : List Host.Cell} {r r' : Regs} (hr : r.InRange) (hd : r.SyncDone)
    (hs : r.stage = .syncFound) (h : r.sub = 2#3) (hp : r.InDemod)
    (hm : mZeros m r = .ok r') : r'.InRange ∧ r'.InStage := by
  simp only [Regs.InDemod, h] at hp
  have hp : r.nbits.toNat < 64 ∧ r.ones.toNat = 0 ∧ r.syncEnd.toNat + 2 * r.nbits.toNat + r.zeros.toNat ≤ r.pos.toNat := hp
  have h48 : 48 ≤ r.syncEnd.toNat := by
    have := hd.preamble.preEnd_eq; have := hd.preamble.quality_ge; have := hd.syncEnd_ge; omega
  have stay : ({ r with sub := 3#3 } : Regs).InRange ∧ ({ r with sub := 3#3 } : Regs).InStage := by
    obtain ⟨a,b,c,d,e1,f,g,h,i,j,k,l,m⟩ := hr
    refine ⟨⟨by simp, b,c,d,e1,f,g,h,i,j,k,l,m⟩, ?_⟩
    simp only [Regs.InStage, hs]
    obtain ⟨⟨⟨e1,e2,e3,e4⟩, p1,p2,p3,p4⟩, q1, q2⟩ := hd
    refine ⟨⟨⟨⟨e1,e2,e3,e4⟩, p1,p2,p3,p4⟩, q1, q2⟩, ?_⟩
    show r.nbits.toNat < 64 ∧ _
    exact ⟨hp.1, by show r.syncEnd.toNat + 2 * r.nbits.toNat + r.zeros.toNat + r.ones.toNat ≤ r.pos.toNat; omega⟩
  unfold mZeros at hm
  split at hm
  · rename_i hc
    split at hm
    · split at hm
      · cases hm
        obtain ⟨a,b,c,d,e1,f,g,h',i,j,k,l,m⟩ := hr
        have hz : (r.zeros + 1#11).toNat = r.zeros.toNat + 1 := by simp [BitVec.toNat_add]; omega
        have hpos : (r.pos + 1#11).toNat = r.pos.toNat + 1 := by simp [BitVec.toNat_add]; omega
        refine ⟨⟨a, b,c,d,by simp only [hpos]; omega,f,g,h',i,by simp only [hz]; omega,k,l,m⟩, ?_⟩
        simp only [Regs.InStage, hs]
        obtain ⟨⟨⟨e1,e2,e3,e4⟩, p1,p2,p3,p4⟩, q1, q2⟩ := hd
        refine ⟨⟨⟨⟨e1,e2,e3,e4⟩, p1,p2,p3,p4⟩, q1, q2⟩, ?_⟩
        simp only [Regs.InDemod, h, hz, hpos]
        exact ⟨hp.1, hp.2.1, by omega⟩
      · cases hm; exact stay
    · cases hm
  · cases hm; exact stay

/-- M_ONES keeps the invariant. -/
theorem mOnes_keeps_inv {m : List Host.Cell} {r r' : Regs} (hr : r.InRange) (hd : r.SyncDone)
    (hs : r.stage = .syncFound) (h : r.sub = 3#3) (hp : r.InDemod)
    (hm : mOnes m r = .ok r') : r'.InRange ∧ r'.InStage := by
  simp only [Regs.InDemod, h] at hp
  have hp : r.nbits.toNat < 64 ∧ r.syncEnd.toNat + 2 * r.nbits.toNat + r.zeros.toNat + r.ones.toNat ≤ r.pos.toNat := hp
  have h48 : 48 ≤ r.syncEnd.toNat := by
    have := hd.preamble.preEnd_eq; have := hd.preamble.quality_ge; have := hd.syncEnd_ge; omega
  have stay : ({ r with sub := 4#3 } : Regs).InRange ∧ ({ r with sub := 4#3 } : Regs).InStage := by
    obtain ⟨a,b,c,d,e1,f,g,h,i,j,k,l,m⟩ := hr
    refine ⟨⟨by simp, b,c,d,e1,f,g,h,i,j,k,l,m⟩, ?_⟩
    simp only [Regs.InStage, hs]
    obtain ⟨⟨⟨e1,e2,e3,e4⟩, p1,p2,p3,p4⟩, q1, q2⟩ := hd
    refine ⟨⟨⟨⟨e1,e2,e3,e4⟩, p1,p2,p3,p4⟩, q1, q2⟩, ?_⟩
    exact hp
  unfold mOnes at hm
  split at hm
  · rename_i hc
    split at hm
    · split at hm
      · cases hm
        obtain ⟨a,b,c,d,e1,f,g,h',i,j,k,l,m⟩ := hr
        have hz : (r.ones + 1#11).toNat = r.ones.toNat + 1 := by simp [BitVec.toNat_add]; omega
        have hpos : (r.pos + 1#11).toNat = r.pos.toNat + 1 := by simp [BitVec.toNat_add]; omega
        refine ⟨⟨a, b,c,d,by simp only [hpos]; omega,f,g,h',i,j,by simp only [hz]; omega,l,m⟩, ?_⟩
        simp only [Regs.InStage, hs]
        obtain ⟨⟨⟨e1,e2,e3,e4⟩, p1,p2,p3,p4⟩, q1, q2⟩ := hd
        refine ⟨⟨⟨⟨e1,e2,e3,e4⟩, p1,p2,p3,p4⟩, q1, q2⟩, ?_⟩
        simp only [Regs.InDemod, h, hz, hpos]
        exact ⟨hp.1, by omega⟩
      · cases hm; exact stay
    · cases hm
  · cases hm; exact stay

/-- M_JUDGE keeps the invariant. -/
theorem mJudge_keeps_inv {r : Regs} (hr : r.InRange) (hd : r.SyncDone) (hs : r.stage = .syncFound) (h : r.sub = 4#3)
    (hp : r.InDemod) :
    (mJudge r).InRange ∧ (mJudge r).InStage := by
  simp only [Regs.InDemod, h] at hp
  have hp : r.nbits.toNat < 64 ∧ r.syncEnd.toNat + 2 * r.nbits.toNat + r.zeros.toNat + r.ones.toNat ≤ r.pos.toNat := hp
  unfold mJudge
  split
  · exact raise_meets_inv hr hd.preamble.entered (by simp) (by simp)
  · rename_i hz
    have hz : 1 ≤ r.zeros.toNat ∧ 1 ≤ r.ones.toNat := by
      simp only [← BitVec.toNat_inj, BitVec.toNat_ofNat] at hz
      omega
    obtain ⟨a,b,c,d,e1,f,g,h',i,j,k,l,m⟩ := hr
    have hn : (r.nbits + 1#7).toNat = r.nbits.toNat + 1 := by simp [BitVec.toNat_add]; omega
    refine ⟨⟨by simp, b,c,d,e1,f,g,h',i,j,k,by simp only [hn]; omega,m⟩, ?_⟩
    simp only [Regs.InStage, hs]
    obtain ⟨⟨⟨e1,e2,e3,e4⟩, p1,p2,p3,p4⟩, q1, q2⟩ := hd
    refine ⟨⟨⟨⟨e1,e2,e3,e4⟩, p1,p2,p3,p4⟩, q1, q2⟩, ?_⟩
    show r.syncEnd.toNat + 2 * (r.nbits + 1#7).toNat ≤ r.pos.toNat
    omega

/-- CHECKSUM's own registers are free of every bound but their widths. -/
theorem checksum_registers_keep_inv {r : Regs} {sub : BitVec 3} {sum : BitVec 8} {k : BitVec 3} (hr : r.InRange)
    (hd : r.DemodDone) (hsub : sub.toNat ≤ 4) :
   ({ r with sum := sum, k := k, sub := sub } : Regs).InRange ∧ ({ r with sum := sum, k := k, sub := sub } : Regs).DemodDone := by
  obtain ⟨a,b,c,d,e1,f,g,h,i,j,k,l,m⟩ := hr
  refine ⟨⟨hsub, b,c,d,e1,f,g,h,i,j,k,l,m⟩, ?_⟩
  obtain ⟨⟨⟨⟨e1,e2,e3,e4⟩, p1,p2,p3,p4⟩, q1, q2⟩, s1, s2⟩ := hd
  exact ⟨⟨⟨⟨e1,e2,e3,e4⟩, p1,p2,p3,p4⟩, q1, q2⟩, s1, s2⟩

/-- K_INIT keeps the invariant. -/
theorem kInit_keeps_inv {r : Regs} (hr : r.InRange) (hd : r.DemodDone) (hs : r.stage = .symbolsDemodulated) :
    (kInit r).InRange ∧ (kInit r).InStage := by
  have := checksum_registers_keep_inv (sub := 1#3) (sum := 0#8) (k := 0#3) hr hd (by decide)
  refine ⟨this.1, ?_⟩
  simp only [Regs.InStage, kInit, hs]
  refine ⟨by simpa only [hs] using this.2, ?_⟩
  show 0#8 = partialSum r.packet (0#3).toNat
  rfl

/-- K_ADD keeps the invariant. -/
theorem kAdd_keeps_inv {r : Regs} (hr : r.InRange) (hd : r.DemodDone) (hs : r.stage = .symbolsDemodulated)
    (h : r.sub = 1#3) (hp : r.InChecksum) :
    (kAdd r).InRange ∧ (kAdd r).InStage := by
  simp only [Regs.InChecksum, h] at hp
  have hp : r.sum = partialSum r.packet r.k.toNat := hp
  unfold kAdd
  split
  · rename_i hk
    simp only [Config.csumBytes] at hk
    have := checksum_registers_keep_inv (sub := r.sub) (sum := addByte r.sum (packetByte r.packet r.k.toNat)) (k := r.k + 1#3) hr hd (by rw [h]; decide)
    refine ⟨this.1, ?_⟩
    simp only [Regs.InStage, hs]
    refine ⟨by simpa only [hs] using this.2, ?_⟩
    have hkk : (r.k + 1#3).toNat = r.k.toNat + 1 := by simp [BitVec.toNat_add]; omega
    simp only [Regs.InChecksum, h, hkk]
    show addByte _ _ = partialSum r.packet _
    rw [partialSum_succ, hp]
  · rename_i hk
    simp only [Config.csumBytes] at hk
    have := checksum_registers_keep_inv (sub := 2#3) (sum := r.sum) (k := r.k) hr hd (by decide)
    refine ⟨this.1, ?_⟩
    simp only [Regs.InStage, hs]
    refine ⟨by simpa only [hs] using this.2, ?_⟩
    show r.sum = partialSum r.packet 7
    have := r.k.isLt
    rw [hp, show r.k.toNat = 7 by omega]

/-- K_CMP keeps the invariant, on a mismatch with both bytes reported. -/
theorem kCmp_keeps_inv {r : Regs} (hr : r.InRange) (hd : r.DemodDone) (h : r.sub = 2#3) (hp : r.InChecksum) :
    (kCmp r).InRange ∧ (kCmp r).InStage := by
  simp only [Regs.InChecksum, h] at hp
  have hp : r.sum = partialSum r.packet 7 := hp
  have hp : r.sum = Functional.sumOf r.packet := hp
  unfold kCmp
  split
  · rename_i hc
    have := checksum_registers_keep_inv (sub := 0#3) (sum := r.sum) (k := r.k) hr hd (by decide)
    refine ⟨?_, ?_⟩
    · obtain ⟨a,b,c,d,e1,f,g,h,i,j,k,l,m⟩ := hr
      exact ⟨by simp, b,c,d,e1,f,g,h,i,j,k,l,m⟩
    · simp only [Regs.InStage, Regs.goto_stage]
      obtain ⟨⟨⟨⟨e1,e2,e3,e4⟩, p1,p2,p3,p4⟩, q1, q2⟩, s1, s2⟩ := hd
      exact ⟨⟨⟨⟨⟨⟨e1,e2,e3,e4⟩, p1,p2,p3,p4⟩, q1, q2⟩, s1, s2⟩, hp.symm.trans hc⟩, rfl⟩
  · rename_i hc
    refine raise_meets_inv ?_ ?_ (by simp) (fun _ => ⟨hp, rfl, hc⟩)
    · obtain ⟨a,b,c,d,e1,f,g,h,i,j,k,l,m⟩ := hr
      exact ⟨a, b,c,d,e1,f,g,h,i,j,k,l,m⟩
    · obtain ⟨⟨⟨⟨e1,e2,e3,e4⟩, p1,p2,p3,p4⟩, q1, q2⟩, s1, s2⟩ := hd
      exact ⟨e1,e2,e3,e4⟩

/-- V_EVAL keeps the invariant. -/
theorem vEval_keeps_inv {r : Regs} (hr : r.InRange) (hd : r.ChecksumDone) : (vEval r).InRange ∧ (vEval r).InStage := by
  obtain ⟨a,b,c,d,e1,f,g,h,i,j,k,l,m⟩ := hr
  refine ⟨⟨by simp [vEval], b,c,d,e1,f,g,h,i,j,k,l,m⟩, ?_⟩
  obtain ⟨⟨⟨⟨⟨e1,e2,e3,e4⟩, p1,p2,p3,p4⟩, q1, q2⟩, s1, s2⟩, hc⟩ := hd
  exact ⟨⟨⟨⟨⟨⟨e1,e2,e3,e4⟩, p1,p2,p3,p4⟩, q1, q2⟩, s1, s2⟩, hc⟩, rfl, rfl⟩

/-- Under the invariant the pair (stage, sub) is one that rule R91 lists. -/
theorem listed_of_inStage {r : Regs} (h : r.InStage) : r.stage.lists r.sub = true := by
  unfold Regs.InStage at h
  cases hg : r.stage <;> rw [hg] at h <;> dsimp only at h
  · rw [h]; decide
  · have := h.2; unfold Regs.InPreamble at this
    simp only [Stage.lists, Stage.subStates]
    split at this <;> simp_all
  · have := h.2; unfold Regs.InSync at this
    simp only [Stage.lists, Stage.subStates]
    split at this <;> simp_all
  · have := h.2; unfold Regs.InDemod at this
    simp only [Stage.lists, Stage.subStates]
    split at this <;> simp_all
  · have := h.2; unfold Regs.InChecksum at this
    simp only [Stage.lists, Stage.subStates]
    split at this <;> simp_all
  · rw [h.2]; decide
  · rw [h.2.1]; decide
  · rw [h.sub_zero]; decide

/-- Within the capacity every micro-step answers: its guards keep BITAT in range (rules R24, R111). -/
theorem microStep_total (m : List Host.Cell) {r : Regs} (hb : r.blen.toNat ≤ 1024) : ∃ r', microStep m r = .ok r' := by
  have w : ∃ r', pWalk m r = .ok r' := by
    unfold pWalk; split
    · rename_i h; rw [quad_ok h hb]; dsimp only; split <;> exact ⟨_, rfl⟩
    · exact ⟨_, rfl⟩
  have s : ∃ r', sShift m r = .ok r' := by
    unfold sShift; split
    · rename_i h; rw [bitAt_ok h hb]; dsimp only; split <;> exact ⟨_, rfl⟩
    · exact ⟨_, rfl⟩
  have z : ∃ r', mZeros m r = .ok r' := by
    unfold mZeros; split
    · rename_i h; rw [bitAt_ok h hb]; dsimp only; split <;> exact ⟨_, rfl⟩
    · exact ⟨_, rfl⟩
  have o : ∃ r', mOnes m r = .ok r' := by
    unfold mOnes; split
    · rename_i h; rw [bitAt_ok h hb]; dsimp only; split <;> exact ⟨_, rfl⟩
    · exact ⟨_, rfl⟩
  unfold microStep
  split
  · split; exacts [⟨_, rfl⟩, w, ⟨_, rfl⟩]
  · split; exacts [⟨_, rfl⟩, s]
  · split; exacts [⟨_, rfl⟩, ⟨_, rfl⟩, z, o, ⟨_, rfl⟩]
  · split; exacts [⟨_, rfl⟩, ⟨_, rfl⟩, ⟨_, rfl⟩]
  all_goals exact ⟨_, rfl⟩

end Sys2Proof.Machine
end

