-- ==== Sys2Proof/Laws/PerInstr.lean ====
section
/-! SUPPORT. Per instruction: the encoded word lies in its format's width and carries the fixed bits of its row of
spec/opcode_table.json. -/

namespace Sys2Proof.Laws.CarriesRow

/-- The word of an operation has its row's format, fits the format's width, and shows the row's match under the row's mask. -/
def Statement (i : Instr) : Prop :=
  (encode i).1 = i.row.format ∧ (encode i).2 < 2 ^ i.row.format.width ∧ (encode i).2 &&& i.row.mask = i.row.bits

theorem decode (n : BitVec 8) : Statement (.decode n) := by
  revert n
  unfold Statement
  decide +kernel

theorem bitat (a : BitVec 7) (j : BitVec 3) : Statement (.bitat a j) :=
  ⟨rfl, (encodeBitIdx a j).isLt, Nat.and_zero _⟩

theorem holdIdle (sub : BitVec 3) : Statement (.holdIdle sub) := by
  revert sub
  unfold Statement
  decide

theorem preamble (sub : BitVec 3) : Statement (.preamble sub) := by
  revert sub
  unfold Statement
  decide

theorem sync (sub : BitVec 3) : Statement (.sync sub) := by
  revert sub
  unfold Statement
  decide

theorem demod (sub : BitVec 3) : Statement (.demod sub) := by
  revert sub
  unfold Statement
  decide

theorem checksum (sub : BitVec 3) : Statement (.checksum sub) := by
  revert sub
  unfold Statement
  decide

theorem value (sub : BitVec 3) : Statement (.value sub) := by
  revert sub
  unfold Statement
  decide

theorem holdDone (sub : BitVec 3) : Statement (.holdDone sub) := by
  revert sub
  unfold Statement
  decide

theorem holdFailed (sub : BitVec 3) : Statement (.holdFailed sub) := by
  revert sub
  unfold Statement
  decide

end Sys2Proof.Laws.CarriesRow
end

