-- ==== Sys2Proof/Laws/Runs.lean ====
section
/-! SUPPORT. Runs of micro-steps: what they are, how they compose, and that each is a run of the core. -/

namespace Sys2Proof.Machine

/-- `n` micro-steps of busy stages lead from one register file to another. -/
def MicroRuns (m : List Host.Cell) : Nat → Regs → Regs → Prop
  | 0, r, r' => r = r'
  | n + 1, r, r' =>
    stageBusy r.stage = true ∧ r.stage.lists r.sub = true ∧ ∃ r1, microStep m r = .ok r1 ∧ MicroRuns m n r1 r'

/-- Runs compose. -/
theorem MicroRuns.trans {m : List Host.Cell} {a b : Nat} {r r' r'' : Regs} (h : MicroRuns m a r r')
    (h' : MicroRuns m b r' r'') :
    MicroRuns m (a + b) r r'' := by
  induction a generalizing r with
  | zero => cases h; simpa using h'
  | succ a ih =>
    obtain ⟨hb, hl, r1, hm, hr⟩ := h
    rw [Nat.add_right_comm]
    exact ⟨hb, hl, r1, hm, ih hr⟩

/-- One micro-step is a run. -/
theorem MicroRuns.one {m : List Host.Cell} {r r' : Regs} (hb : stageBusy r.stage = true) (hl : r.stage.lists r.sub = true)
    (hm : microStep m r = .ok r') : MicroRuns m 1 r r' := ⟨hb, hl, r', hm, rfl⟩

/-- A run of micro-steps is a run of the core, busy before its last state. -/
theorem MicroRuns.lift {n : Nat} {st : State} {r' : Regs} (h : MicroRuns st.cap n st.regs r') (hrst : st.rst = false)
    (hr : st.noRequest = true) :
    Host.Core.run Sys2Proof.core n st = .next (st.withRegs r') ∧
      ∀ j, j < n → ∃ u, Host.Core.run Sys2Proof.core j st = .next u ∧ u.busy = true := by
  induction n generalizing st with
  | zero => cases h; exact ⟨rfl, fun j hj => absurd hj (by omega)⟩
  | succ n ih =>
    obtain ⟨hb, hl, r1, hm, hrun⟩ := h
    have hs : step st = .next (st.withRegs r1) := by
      rw [step_of_stage hrst hr (by simp [State.sampled, State.busy, hb]) hl, exec_operation hl, hm]
      rfl
    have hi := ih (st := st.withRegs r1) hrun hrst hr
    have hrunS : ∀ j, Host.Core.run Sys2Proof.core (j + 1) st = Host.Core.run Sys2Proof.core j (st.withRegs r1) := by
      intro j
      have hs' : Sys2Proof.core.step st = .next (st.withRegs r1) := hs
      simp only [Host.Core.run, hs']
    refine ⟨by rw [hrunS]; exact hi.1, fun j hj => ?_⟩
    cases j with
    | zero => exact ⟨st, rfl, hb⟩
    | succ j => rw [hrunS]; exact hi.2 j (by omega)

/-- A run of micro-steps, as the statements say it. -/
theorem MicroRuns.runsBusyTo {n : Nat} {st : State} {r' : Regs} (h : MicroRuns st.cap n st.regs r') (hrst : st.rst = false)
    (hr : st.noRequest = true) : runsBusyTo n st (st.withRegs r') :=
  ⟨(h.lift hrst hr).1, fun j _ hj => (h.lift hrst hr).2 j hj⟩

/-- The step P_CAND. -/
theorem MicroRuns.cand {m : List Host.Cell} {r r' : Regs} (hs : r.stage = .start) (h0 : r.sub = 0#3) (h : pCand r = r') :
    MicroRuns m 1 r r' := by
  refine .one (by rw [hs]; rfl) (by rw [hs, h0]; rfl) ?_
  unfold microStep
  rw [hs, h0]
  exact congrArg Except.ok h

/-- The step P_WALK. -/
theorem MicroRuns.walk {m : List Host.Cell} {r r' : Regs} (hs : r.stage = .start) (h0 : r.sub = 1#3) (h : pWalk m r = .ok r') :
    MicroRuns m 1 r r' := by
  refine .one (by rw [hs]; rfl) (by rw [hs, h0]; rfl) ?_
  unfold microStep
  rw [hs, h0]
  exact h

/-- The step P_JUDGE. -/
theorem MicroRuns.judge {m : List Host.Cell} {r r' : Regs} (hs : r.stage = .start) (h0 : r.sub = 2#3) (h : pJudge r = r') :
    MicroRuns m 1 r r' := by
  refine .one (by rw [hs]; rfl) (by rw [hs, h0]; rfl) ?_
  unfold microStep
  rw [hs, h0]
  exact congrArg Except.ok h

/-- The step S_CHECK. -/
theorem MicroRuns.check {m : List Host.Cell} {r r' : Regs} (hs : r.stage = .preambleFound) (h0 : r.sub = 0#3)
    (h : sCheck r = r') :
    MicroRuns m 1 r r' := by
  refine .one (by rw [hs]; rfl) (by rw [hs, h0]; rfl) ?_
  unfold microStep
  rw [hs, h0]
  exact congrArg Except.ok h

/-- The step S_SHIFT. -/
theorem MicroRuns.shift {m : List Host.Cell} {r r' : Regs} (hs : r.stage = .preambleFound) (h0 : r.sub = 1#3)
    (h : sShift m r = .ok r') :
    MicroRuns m 1 r r' := by
  refine .one (by rw [hs]; rfl) (by rw [hs, h0]; rfl) ?_
  unfold microStep
  rw [hs, h0]
  exact h

/-- The step M_INIT. -/
theorem MicroRuns.init {m : List Host.Cell} {r r' : Regs} (hs : r.stage = .syncFound) (h0 : r.sub = 0#3) (h : mInit r = r') :
    MicroRuns m 1 r r' := by
  refine .one (by rw [hs]; rfl) (by rw [hs, h0]; rfl) ?_
  unfold microStep
  rw [hs, h0]
  exact congrArg Except.ok h

/-- The step M_SYMBOL. -/
theorem MicroRuns.symbol {m : List Host.Cell} {r r' : Regs} (hs : r.stage = .syncFound) (h0 : r.sub = 1#3)
    (h : mSymbol r = r') :
    MicroRuns m 1 r r' := by
  refine .one (by rw [hs]; rfl) (by rw [hs, h0]; rfl) ?_
  unfold microStep
  rw [hs, h0]
  exact congrArg Except.ok h

/-- The step M_ZEROS. -/
theorem MicroRuns.zeros {m : List Host.Cell} {r r' : Regs} (hs : r.stage = .syncFound) (h0 : r.sub = 2#3)
    (h : mZeros m r = .ok r') :
    MicroRuns m 1 r r' := by
  refine .one (by rw [hs]; rfl) (by rw [hs, h0]; rfl) ?_
  unfold microStep
  rw [hs, h0]
  exact h

/-- The step M_ONES. -/
theorem MicroRuns.ones {m : List Host.Cell} {r r' : Regs} (hs : r.stage = .syncFound) (h0 : r.sub = 3#3)
    (h : mOnes m r = .ok r') :
    MicroRuns m 1 r r' := by
  refine .one (by rw [hs]; rfl) (by rw [hs, h0]; rfl) ?_
  unfold microStep
  rw [hs, h0]
  exact h

/-- The step M_JUDGE. -/
theorem MicroRuns.judgeSymbol {m : List Host.Cell} {r r' : Regs} (hs : r.stage = .syncFound) (h0 : r.sub = 4#3)
    (h : mJudge r = r') :
    MicroRuns m 1 r r' := by
  refine .one (by rw [hs]; rfl) (by rw [hs, h0]; rfl) ?_
  unfold microStep
  rw [hs, h0]
  exact congrArg Except.ok h

/-- The step K_INIT. -/
theorem MicroRuns.sumInit {m : List Host.Cell} {r r' : Regs} (hs : r.stage = .symbolsDemodulated) (h0 : r.sub = 0#3)
    (h : kInit r = r') :
    MicroRuns m 1 r r' := by
  refine .one (by rw [hs]; rfl) (by rw [hs, h0]; rfl) ?_
  unfold microStep
  rw [hs, h0]
  exact congrArg Except.ok h

/-- The step K_ADD. -/
theorem MicroRuns.sumAdd {m : List Host.Cell} {r r' : Regs} (hs : r.stage = .symbolsDemodulated) (h0 : r.sub = 1#3)
    (h : kAdd r = r') :
    MicroRuns m 1 r r' := by
  refine .one (by rw [hs]; rfl) (by rw [hs, h0]; rfl) ?_
  unfold microStep
  rw [hs, h0]
  exact congrArg Except.ok h

/-- The step K_CMP. -/
theorem MicroRuns.sumCmp {m : List Host.Cell} {r r' : Regs} (hs : r.stage = .symbolsDemodulated) (h0 : r.sub = 2#3)
    (h : kCmp r = r') :
    MicroRuns m 1 r r' := by
  refine .one (by rw [hs]; rfl) (by rw [hs, h0]; rfl) ?_
  unfold microStep
  rw [hs, h0]
  exact congrArg Except.ok h

/-- The step V_EVAL. -/
theorem MicroRuns.eval {m : List Host.Cell} {r r' : Regs} (hs : r.stage = .checksumVerified) (h0 : r.sub = 0#3)
    (h : vEval r = r') :
    MicroRuns m 1 r r' := by
  refine .one (by rw [hs]; rfl) (by rw [hs, h0]; rfl) ?_
  unfold microStep
  rw [hs, h0]
  exact congrArg Except.ok h

end Sys2Proof.Machine
end

