-- ==== Sys2Proof/Laws/StageRuns.lean ====
section
/-! SUPPORT. The loops of the stages: the micro-steps of each compute the loop of its functional rule (rules R129, R146, R166,
R179 (a)), and how many steps they take. -/

namespace Sys2Proof.Machine

/-- The P_WALK steps compute the walk of a candidate, one quad each, and leave to P_JUDGE (rules R122, R129). -/
theorem walk_runs {m : List Host.Cell} (fuel : Nat) {r : Regs} (hs : r.stage = .start) (h1 : r.sub = 1#3)
    (hb : r.blen.toNat ≤ 1024) (hp : r.pos.toNat ≤ r.blen.toNat) (hq : r.q.toNat * 4 ≤ r.pos.toNat)
    (hf : r.blen.toNat < r.pos.toNat + 4 * fuel + 4) :
    ∃ n r', MicroRuns m n r r' ∧ n + r.q.toNat = r'.q.toNat + 1 ∧
      r' = { r with sub := 2#3, pos := r'.pos, q := r'.q } ∧
      Functional.walk m r.blen.toNat fuel r.pos.toNat r.q.toNat = (r'.pos.toNat, r'.q.toNat) := by
  induction fuel generalizing r with
  | zero =>
    refine ⟨1, { r with sub := 2#3 }, .walk hs h1 ?_, ?_, rfl, rfl⟩
    · unfold pWalk
      rw [if_neg (by simp only [Config.preQuad]; omega)]
    · exact Nat.add_comm _ _
  | succ fuel ih =>
    simp only [Functional.walk, Config.preQuad]
    by_cases hc : r.pos.toNat + 4 ≤ r.blen.toNat ∧ Functional.quad m r.pos.toNat = Config.prePattern
    · rw [if_pos hc]
      have hpos : (r.pos + 4#11).toNat = r.pos.toNat + 4 := by simp [BitVec.toNat_add]; omega
      have hqq : (r.q + 1#9).toNat = r.q.toNat + 1 := by simp [BitVec.toNat_add]; omega
      have hm : pWalk m r = .ok { r with q := r.q + 1#9, pos := r.pos + 4#11 } := by
        unfold pWalk
        rw [if_pos (by simpa using hc.1), quad_ok hc.1 hb]
        dsimp only
        rw [if_pos hc.2]
      obtain ⟨n, r', hr, hn, he, hw⟩ := @ih { r with q := r.q + 1#9, pos := r.pos + 4#11 } hs h1 hb (by simp only [hpos]; omega)
        (by simp only [hpos, hqq]; omega) (by simp only [hpos]; omega)
      simp only [hpos, hqq] at hn hw
      exact ⟨_, r', (MicroRuns.walk hs h1 hm).trans hr, by omega, he, hw⟩
    · rw [if_neg hc]
      refine ⟨1, { r with sub := 2#3 }, .walk hs h1 ?_, ?_, rfl, rfl⟩
      · unfold pWalk
        split
        · rename_i h4
          rw [quad_ok h4 hb]
          dsimp only
          rw [if_neg (fun h => hc ⟨h4, h⟩)]
        · rfl
      · exact Nat.add_comm _ _

/-- From P_CAND on, the micro-steps compute the search over the candidates (rule R129). -/
theorem cand_runs {m : List Host.Cell} (fuel : Nat) {r : Regs} (hs : r.stage = .start) (h0 : r.sub = 0#3)
    (hb : r.blen.toNat ≤ 1024) (hlt : r.s.toNat ≤ 993) (hf : r.blen.toNat < r.s.toNat + fuel + 32) :
    ∃ n r', MicroRuns m n r r' ∧ n + 10 * r.s.toNat ≤ 10189 ∧
      match Functional.preambleFrom m r.blen.toNat fuel r.s.toNat with
      | some (preEnd, quality) =>
        r' = { r with stage := .preambleFound, sub := 0#3, pos := r'.pos, q := r'.q, s := r'.s, preEnd := r'.preEnd, quality := r'.quality } ∧
        r'.preEnd.toNat = preEnd ∧ r'.quality.toNat = quality
      | none =>
        r' = { r with stage := .failed, sub := 0#3, err := some .preambleNotFound, pos := r'.pos, q := r'.q, s := r'.s } := by
  induction fuel generalizing r with
  | zero =>
    simp only [Functional.preambleFrom]
    refine ⟨1, _, .cand hs h0 (by unfold pCand; rw [if_neg (by simp only [Config.preMinBits]; omega)]), by omega, rfl⟩
  | succ fuel ih =>
    simp only [Functional.preambleFrom, Config.preMinBits]
    by_cases hc : r.s.toNat + 32 ≤ r.blen.toNat
    · rw [if_pos hc]
      let r1 : Regs := { r with pos := r.s, q := 0#9, sub := 1#3 }
      have run1 : MicroRuns m 1 r r1 := .cand hs h0 (by unfold pCand; rw [if_pos (by simpa using hc)])
      obtain ⟨n2, r2, run2, hn2, he, hw⟩ := walk_runs (m := m) 1024 (r := r1) hs rfl hb (by show r.s.toNat ≤ r.blen.toNat; omega) (by simp [r1]) (by show r.blen.toNat < r.s.toNat + _ + _; omega)
      change Functional.walk m r.blen.toNat 1024 r.s.toNat 0 = _ at hw
      change n2 + 0 = _ at hn2
      have hwb := walk_spec (by omega) (by omega) hw
      simp only [Config.maxBits, hw]
      have hs2 : r2.stage = .start := by rw [he]; exact hs
      have h02 : r2.sub = 2#3 := by rw [he]
      simp only [Config.preMinQuality]
      by_cases hq : 8 ≤ r2.q.toNat
      · rw [if_pos hq]
        dsimp only at hwb ⊢
        refine ⟨_, _, (run1.trans run2).trans (.judge hs2 h02 (by unfold pJudge; rw [if_pos hq])), by omega, ?_, rfl, rfl⟩
        rw [he]
        rfl
      · rw [if_neg hq]
        have hss : (r2.s + 1#11).toNat = r.s.toNat + 1 := by rw [he]; show (r.s + 1#11).toNat = _; simp [BitVec.toNat_add]; omega
        have run3 : MicroRuns m 1 r2 { r2 with s := r2.s + 1#11, sub := 0#3 } := .judge hs2 h02 (by unfold pJudge; rw [if_neg hq])
        have hbl : r2.blen = r.blen := by rw [he]
        obtain ⟨n, r', run4, hn, hx⟩ := @ih { r2 with s := r2.s + 1#11, sub := 0#3 } hs2 rfl (by show r2.blen.toNat ≤ 1024; rw [hbl]; exact hb)
          (by show (r2.s + 1#11).toNat ≤ _; omega) (by show r2.blen.toNat < (r2.s + 1#11).toNat + _ + _; rw [hbl, hss]; omega)
        simp only [hbl, hss] at hn hx
        refine ⟨_, r', ((run1.trans run2).trans run3).trans run4, by omega, ?_⟩
        cases hpf : Functional.preambleFrom m r.blen.toNat fuel (r.s.toNat + 1) with
        | none => rw [hpf] at hx; dsimp only at hx ⊢; rw [hx, he]
        | some w =>
          rw [hpf] at hx; dsimp only at hx ⊢
          refine ⟨?_, hx.2⟩
          have h1 := hx.1
          rw [he] at h1
          exact h1
    · rw [if_neg hc]
      refine ⟨1, _, .cand hs h0 (by unfold pCand; rw [if_neg (by simpa using hc)]), by omega, rfl⟩

/-- The sync window bit by bit: the new bit enters at the least significant end (rule R142). -/
theorem shiftIn_getLsbD (acc : BitVec 16) (b : Bit) (i : Nat) (hi : i < 16) :
    (shiftIn acc b).getLsbD i = if i = 0 then decide (b = 1#1) else acc.getLsbD (i - 1) := by
  have hb := b.isLt
  simp only [shiftIn, BitVec.getLsbD, BitVec.toNat_ofNat, Nat.mod_mod]
  rw [show (65536 : Nat) = 2 ^ 16 by rfl, Nat.testBit_mod_two_pow]
  cases i with
  | zero =>
    rcases bit_cases b with h | h <;> subst h <;> simp [Nat.testBit_zero]
  | succ i =>
    simp only [Nat.testBit_succ, hi, decide_true, Bool.true_and]
    rw [show (acc.toNat * 2 + b.toNat) / 2 = acc.toNat by omega]
    simp

/-- All sixteen bits set. -/
theorem acc_full (acc : BitVec 16) : acc = 0xFFFF#16 ↔ ∀ i, i < 16 → acc.getLsbD i = true := by
  constructor
  · intro h; subst h; decide
  · intro h
    apply BitVec.eq_of_getLsbD_eq
    intro i hi
    rw [h i hi]
    revert i
    decide

/-- What the accumulator holds at an S_SHIFT step. -/
def AccHolds (m : List Host.Cell) (p pos : Nat) (acc : BitVec 16) : Prop :=
  ∀ i, i < 16 → acc.getLsbD i = (decide (p + i < pos) && decide (captureBit m (pos - 1 - i) = 1#1))

/-- One shift keeps what the accumulator holds. -/
theorem AccHolds.shift {m : List Host.Cell} {p pos : Nat} {acc : BitVec 16} (h : AccHolds m p pos acc) (hp : p ≤ pos) :
    AccHolds m p (pos + 1) (shiftIn acc (captureBit m pos)) := by
  intro i hi
  rw [shiftIn_getLsbD _ _ _ hi]
  cases i with
  | zero => simp; omega
  | succ i =>
    rw [if_neg (by omega), show i + 1 - 1 = i by omega, h i (by omega)]
    congr 1
    · simp; omega
    · rw [show pos + 1 - 1 - (i + 1) = pos - 1 - i by omega]

/-- The accumulator is full exactly when the sixteen bits before `pos` form a window of 1 bits (rule R146). -/
theorem AccHolds.full {m : List Host.Cell} {p pos : Nat} {acc : BitVec 16} (h : AccHolds m p pos acc) :
    acc = 0xFFFF#16 ↔ p + 16 ≤ pos ∧ Functional.windowAt m (pos - 16) = true := by
  rw [acc_full, windowAt_iff]
  constructor
  · intro hx
    have h15 := hx 15 (by omega)
    rw [h 15 (by omega)] at h15
    simp only [Bool.and_eq_true, decide_eq_true_eq] at h15
    refine ⟨by omega, fun i hi => ?_⟩
    have := hx (15 - i) (by omega)
    rw [h (15 - i) (by omega)] at this
    simp only [Bool.and_eq_true, decide_eq_true_eq] at this
    rw [← this.2]
    congr 1
    omega
  · rintro ⟨h1, h2⟩ i hi
    rw [h i hi]
    simp only [Bool.and_eq_true, decide_eq_true_eq]
    refine ⟨by omega, ?_⟩
    rw [← h2 (15 - i) (by omega)]
    congr 1
    omega

/-- The S_SHIFT steps compute the search over the windows (rule R146). -/
theorem shift_runs {m : List Host.Cell} (left : Nat) {r : Regs} (fuel j : Nat) (hs : r.stage = .preambleFound)
    (h1 : r.sub = 1#3)
    (hb : r.blen.toNat ≤ 1024) (hl : r.pos.toNat + left = r.blen.toNat) (hp : r.preEnd.toNat ≤ r.pos.toNat)
    (ha : AccHolds m r.preEnd.toNat r.pos.toNat r.acc)
    (hj : j = max r.preEnd.toNat (r.pos.toNat - 15)) (hent : r.preEnd.toNat + 16 ≤ r.blen.toNat)
    (hf : r.blen.toNat < j + fuel + 16) :
    ∃ n r', MicroRuns m n r r' ∧ n ≤ left + 1 ∧
      match Functional.syncFrom m r.blen.toNat fuel j with
      | some syncEnd => r' = { r with stage := .syncFound, sub := 0#3, pos := r'.pos, acc := r'.acc, syncEnd := r'.syncEnd } ∧ r'.syncEnd.toNat = syncEnd
      | none => r' = { r with stage := .failed, sub := 0#3, err := some .syncNotFound, pos := r'.pos, acc := r'.acc } := by
  induction left generalizing r fuel j with
  | zero =>
    refine ⟨1, _, .shift hs h1 (by unfold sShift; rw [if_neg (by omega)]), by omega, ?_⟩
    have : Functional.syncFrom m r.blen.toNat fuel j = none := by
      cases fuel with
      | zero => rfl
      | succ f => simp only [Functional.syncFrom, Config.syncBits]; rw [if_neg (by omega)]
    rw [this]
    rfl
  | succ left ih =>
    have hpos : (r.pos + 1#11).toNat = r.pos.toNat + 1 := by simp [BitVec.toNat_add]; omega
    have ha' := ha.shift hp
    by_cases hm : shiftIn r.acc (captureBit m r.pos.toNat) = 0xFFFF#16
    · obtain ⟨h16, hw⟩ := ha'.full.mp hm
      have hjj : j = r.pos.toNat + 1 - 16 := by omega
      refine ⟨1, _, .shift hs h1 (by
        unfold sShift
        rw [if_pos (by omega), bitAt_ok (by omega) hb]
        dsimp only
        rw [if_pos hm]), by omega, ?_⟩
      have : Functional.syncFrom m r.blen.toNat fuel j = some (r.pos.toNat + 1) := by
        cases fuel with
        | zero => omega
        | succ f =>
          simp only [Functional.syncFrom, Config.syncBits]
          rw [if_pos (by omega), hjj, if_pos hw]
          congr 1
          omega
      rw [this]
      exact ⟨rfl, hpos⟩
    · have run1 : MicroRuns m 1 r { r with acc := shiftIn r.acc (captureBit m r.pos.toNat), pos := r.pos + 1#11 } := .shift hs h1 (by
        unfold sShift
        rw [if_pos (by omega), bitAt_ok (by omega) hb]
        dsimp only
        rw [if_neg hm])
      by_cases h16 : r.preEnd.toNat + 16 ≤ r.pos.toNat + 1
      · have hw : ¬ Functional.windowAt m (r.pos.toNat + 1 - 16) = true := fun hw => hm (ha'.full.mpr ⟨h16, hw⟩)
        have hjj : j = r.pos.toNat + 1 - 16 := by omega
        cases fuel with
        | zero => omega
        | succ f =>
          obtain ⟨n, r', run2, hn, hx⟩ := @ih { r with acc := shiftIn r.acc (captureBit m r.pos.toNat), pos := r.pos + 1#11 } f (j + 1) hs h1 hb
            (by simp only [hpos]; omega) (by simp only [hpos]; omega) (by simp only [hpos]; exact ha') (by simp only [hpos]; omega) hent (by simp only; omega)
          refine ⟨_, r', run1.trans run2, by omega, ?_⟩
          simp only [Functional.syncFrom, Config.syncBits]
          rw [if_pos (by omega), hjj, if_neg hw, ← hjj]
          cases hsf : Functional.syncFrom m r.blen.toNat f (j + 1) with
          | none => simp only [hsf] at hx ⊢; exact hx
          | some w => simp only [hsf] at hx ⊢; exact hx
      · obtain ⟨n, r', run2, hn, hx⟩ := @ih { r with acc := shiftIn r.acc (captureBit m r.pos.toNat), pos := r.pos + 1#11 } fuel j hs h1 hb
            (by simp only [hpos]; omega) (by simp only [hpos]; omega) (by simp only [hpos]; exact ha') (by simp only [hpos]; omega) hent (by simp only; omega)
        refine ⟨_, r', run1.trans run2, by omega, ?_⟩
        cases hsf : Functional.syncFrom m r.blen.toNat fuel j with
        | none => simp only [hsf] at hx ⊢; exact hx
        | some w => simp only [hsf] at hx ⊢; exact hx

/-- The M_ZEROS steps count the zeros run (rule R166). -/
theorem zeros_runs {m : List Host.Cell} (fuel : Nat) {r : Regs} (hs : r.stage = .syncFound) (h1 : r.sub = 2#3)
    (hb : r.blen.toNat ≤ 1024) (hp : r.pos.toNat ≤ r.blen.toNat) (hz : r.zeros.toNat ≤ r.pos.toNat)
    (hf : r.blen.toNat ≤ r.pos.toNat + fuel) :
    ∃ r', MicroRuns m (Functional.runLength m r.blen.toNat 0#1 fuel r.pos.toNat + 1) r r' ∧ r' = { r with sub := 3#3, zeros := r'.zeros, pos := r'.pos } ∧
      r'.zeros.toNat = r.zeros.toNat + Functional.runLength m r.blen.toNat 0#1 fuel r.pos.toNat ∧
      r'.pos.toNat = r.pos.toNat + Functional.runLength m r.blen.toNat 0#1 fuel r.pos.toNat ∧ r'.pos.toNat ≤ r.blen.toNat := by
  induction fuel generalizing r with
  | zero =>
    refine ⟨{ r with sub := 3#3 }, .zeros hs h1 ?_, rfl, rfl, rfl, hp⟩
    unfold mZeros
    rw [if_neg (by omega)]
  | succ fuel ih =>
    simp only [Functional.runLength]
    by_cases hc : r.pos.toNat < r.blen.toNat ∧ captureBit m r.pos.toNat = 0#1
    · rw [if_pos hc]
      have hpos : (r.pos + 1#11).toNat = r.pos.toNat + 1 := by simp [BitVec.toNat_add]; omega
      have hzz : (r.zeros + 1#11).toNat = r.zeros.toNat + 1 := by simp [BitVec.toNat_add]; omega
      have hm : mZeros m r = .ok { r with zeros := r.zeros + 1#11, pos := r.pos + 1#11 } := by
        unfold mZeros
        rw [if_pos hc.1, bitAt_ok hc.1 hb]
        dsimp only
        rw [if_pos hc.2]
      obtain ⟨r', hr, he, ha, hc', hd⟩ := @ih { r with zeros := r.zeros + 1#11, pos := r.pos + 1#11 } hs h1 hb (by simp only [hpos]; omega)
        (by simp only [hpos, hzz]; omega) (by simp only [hpos]; omega)
      simp only [hpos, hzz] at hr ha hc' hd
      refine ⟨r', ?_, he, by omega, by omega, hd⟩
      rw [Nat.add_comm]
      exact (MicroRuns.zeros hs h1 hm).trans hr
    · rw [if_neg hc]
      refine ⟨{ r with sub := 3#3 }, .zeros hs h1 ?_, rfl, rfl, rfl, hp⟩
      unfold mZeros
      split
      · rename_i h4
        rw [bitAt_ok h4 hb]
        dsimp only
        rw [if_neg (fun h => hc ⟨h4, h⟩)]
      · rfl

/-- The M_ONES steps count the ones run (rule R166). -/
theorem ones_runs {m : List Host.Cell} (fuel : Nat) {r : Regs} (hs : r.stage = .syncFound) (h1 : r.sub = 3#3)
    (hb : r.blen.toNat ≤ 1024) (hp : r.pos.toNat ≤ r.blen.toNat) (hz : r.ones.toNat ≤ r.pos.toNat)
    (hf : r.blen.toNat ≤ r.pos.toNat + fuel) :
    ∃ r', MicroRuns m (Functional.runLength m r.blen.toNat 1#1 fuel r.pos.toNat + 1) r r' ∧ r' = { r with sub := 4#3, ones := r'.ones, pos := r'.pos } ∧
      r'.ones.toNat = r.ones.toNat + Functional.runLength m r.blen.toNat 1#1 fuel r.pos.toNat ∧
      r'.pos.toNat = r.pos.toNat + Functional.runLength m r.blen.toNat 1#1 fuel r.pos.toNat ∧ r'.pos.toNat ≤ r.blen.toNat := by
  induction fuel generalizing r with
  | zero =>
    refine ⟨{ r with sub := 4#3 }, .ones hs h1 ?_, rfl, rfl, rfl, hp⟩
    unfold mOnes
    rw [if_neg (by omega)]
  | succ fuel ih =>
    simp only [Functional.runLength]
    by_cases hc : r.pos.toNat < r.blen.toNat ∧ captureBit m r.pos.toNat = 1#1
    · rw [if_pos hc]
      have hpos : (r.pos + 1#11).toNat = r.pos.toNat + 1 := by simp [BitVec.toNat_add]; omega
      have hzz : (r.ones + 1#11).toNat = r.ones.toNat + 1 := by simp [BitVec.toNat_add]; omega
      have hm : mOnes m r = .ok { r with ones := r.ones + 1#11, pos := r.pos + 1#11 } := by
        unfold mOnes
        rw [if_pos hc.1, bitAt_ok hc.1 hb]
        dsimp only
        rw [if_pos hc.2]
      obtain ⟨r', hr, he, ha, hc', hd⟩ := @ih { r with ones := r.ones + 1#11, pos := r.pos + 1#11 } hs h1 hb (by simp only [hpos]; omega)
        (by simp only [hpos, hzz]; omega) (by simp only [hpos]; omega)
      simp only [hpos, hzz] at hr ha hc' hd
      refine ⟨r', ?_, he, by omega, by omega, hd⟩
      rw [Nat.add_comm]
      exact (MicroRuns.ones hs h1 hm).trans hr
    · rw [if_neg hc]
      refine ⟨{ r with sub := 4#3 }, .ones hs h1 ?_, rfl, rfl, rfl, hp⟩
      unfold mOnes
      split
      · rename_i h4
        rw [bitAt_ok h4 hb]
        dsimp only
        rw [if_neg (fun h => hc ⟨h4, h⟩)]
      · rfl

/-- From M_SYMBOL on, the micro-steps compute the symbol loop (rule R166). -/
theorem symbols_runs {m : List Host.Cell} (left : Nat) {r : Regs} (hs : r.stage = .syncFound) (h1 : r.sub = 1#3)
    (hb : r.blen.toNat ≤ 1024) (hp : r.pos.toNat ≤ r.blen.toNat) (hl : r.nbits.toNat + left = 64) :
    ∃ n r', MicroRuns m n r r' ∧ n ≤ (r.blen.toNat - r.pos.toNat) + 4 * left + 1 ∧
      match Functional.demodFrom m r.blen.toNat left r.packet r.pos.toNat with
      | some (packet, demodEnd) =>
        r' = { r with stage := .symbolsDemodulated, sub := 0#3, pos := r'.pos, zeros := r'.zeros, ones := r'.ones, nbits := r'.nbits, packet := packet, demodEnd := r'.demodEnd } ∧
          r'.demodEnd.toNat = demodEnd
      | none =>
        r' = { r with stage := .failed, sub := 0#3, err := some .insufficientSymbols, pos := r'.pos, zeros := r'.zeros, ones := r'.ones, nbits := r'.nbits, packet := r'.packet } := by
  induction left generalizing r with
  | zero =>
    exact ⟨1, _, .symbol hs h1 (by unfold mSymbol; rw [if_pos (by simpa using hl)]), by omega, rfl, rfl⟩
  | succ left ih =>
    simp only [Functional.demodFrom]
    by_cases hc : r.pos.toNat < r.blen.toNat
    · rw [if_pos hc]
      let r1 : Regs := { r with zeros := 0#11, ones := 0#11, sub := 2#3 }
      have run1 : MicroRuns m 1 r r1 := .symbol hs h1 (by
        unfold mSymbol; rw [if_neg (by simp only [Config.pktBits]; omega), if_neg (by omega)])
      obtain ⟨r2, run2, he2, hz2, hp2, hb2⟩ := zeros_runs (m := m) 1024 (r := r1) hs rfl hb hp (by simp [r1]) (by show r.blen.toNat ≤ _ + _; omega)
      change MicroRuns m (Functional.runLength m r.blen.toNat 0#1 1024 r.pos.toNat + 1) r1 r2 at run2
      change r2.zeros.toNat = 0 + Functional.runLength m r.blen.toNat 0#1 1024 r.pos.toNat at hz2
      change r2.pos.toNat = r.pos.toNat + Functional.runLength m r.blen.toNat 0#1 1024 r.pos.toNat at hp2
      change r2.pos.toNat ≤ r.blen.toNat at hb2
      simp only [Config.maxBits]
      generalize Functional.runLength m r.blen.toNat 0#1 1024 r.pos.toNat = z at *
      have hs2 : r2.stage = .syncFound := by rw [he2]; exact hs
      have h12 : r2.sub = 3#3 := by rw [he2]
      have hbl2 : r2.blen = r.blen := by rw [he2]
      have ho2 : r2.ones = 0#11 := by rw [he2]
      obtain ⟨r3, run3, he3, hz3, hp3, hb3⟩ := ones_runs (m := m) 1024 (r := r2) hs2 h12 (by rw [hbl2]; exact hb) (by rw [hbl2]; exact hb2) (by simp [ho2]) (by rw [hbl2]; omega)
      rw [hbl2, hp2] at run3 hz3 hp3
      rw [hbl2] at hb3
      rw [ho2] at hz3
      simp only [BitVec.toNat_ofNat, Nat.zero_mod] at hz3
      generalize Functional.runLength m r.blen.toNat 1#1 1024 (r.pos.toNat + z) = o at *
      have hs3 : r3.stage = .syncFound := by rw [he3]; exact hs2
      have h13 : r3.sub = 4#3 := by rw [he3]
      have hbl3 : r3.blen = r.blen := by rw [he3]; exact hbl2
      have hn3 : r3.nbits = r.nbits := by rw [he3]; show r2.nbits = _; rw [he2]
      have hk3 : r3.packet = r.packet := by rw [he3]; show r2.packet = _; rw [he2]
      have hzz3 : r3.zeros.toNat = z := by rw [he3]; show r2.zeros.toNat = _; omega
      by_cases hzo : z = 0 ∨ o = 0
      · rw [if_pos hzo]
        refine ⟨_, _, ((run1.trans run2).trans run3).trans (.judgeSymbol hs3 h13 (by
          unfold mJudge
          rw [if_pos (by
            simp only [← BitVec.toNat_inj, BitVec.toNat_ofNat]
            omega)])), by omega, ?_⟩
        rw [he3, he2]
        rfl
      · rw [if_neg hzo]
        have hnn : (r3.nbits + 1#7).toNat = r.nbits.toNat + 1 := by rw [hn3]; simp [BitVec.toNat_add]; omega
        have run4 : MicroRuns m 1 r3 { r3 with packet := packBit r3.packet r3.nbits.toNat (symbolBit r3.zeros.toNat r3.ones.toNat), nbits := r3.nbits + 1#7, sub := 1#3 } :=
          .judgeSymbol hs3 h13 (by
            unfold mJudge
            rw [if_neg (by
              simp only [← BitVec.toNat_inj, BitVec.toNat_ofNat]
              omega)])
        obtain ⟨n, r', run5, hn, hx⟩ := @ih { r3 with packet := packBit r3.packet r3.nbits.toNat (symbolBit r3.zeros.toNat r3.ones.toNat), nbits := r3.nbits + 1#7, sub := 1#3 }
          hs3 rfl (by simp only [hbl3]; exact hb) (by simp only [hbl3]; omega) (by simp only [hnn]; omega)
        simp only [hbl3, hk3, hzz3, hz3, hp3, Nat.zero_add] at hn hx
        rw [hn3] at hx
        refine ⟨_, r', (((run1.trans run2).trans run3).trans run4).trans run5, by omega, ?_⟩
        simp only [Config.pktBits]
        rw [show 64 - (left + 1) = r.nbits.toNat by omega]
        cases hdf : Functional.demodFrom m r.blen.toNat left (packBit r.packet r.nbits.toNat (symbolBit z o)) (r.pos.toNat + z + o) with
        | none =>
          simp only [hdf] at hx ⊢
          rw [he3, he2] at hx; exact hx
        | some w =>
          simp only [hdf] at hx ⊢
          refine ⟨?_, hx.2⟩
          have h1 := hx.1
          rw [he3, he2] at h1; exact h1
    · rw [if_neg hc]
      refine ⟨1, _, .symbol hs h1 (by unfold mSymbol; rw [if_neg (by simp only [Config.pktBits]; omega), if_pos (by omega)]), by omega, rfl⟩

/-- The K_ADD steps compute the sum (rule R179 (a)). -/
theorem adds_runs {m : List Host.Cell} (left : Nat) {r : Regs} (hs : r.stage = .symbolsDemodulated) (h1 : r.sub = 1#3)
    (hl : r.k.toNat + left = 7) (ha : r.sum = partialSum r.packet r.k.toNat) :
    ∃ r', MicroRuns m (left + 1) r r' ∧ r' = { r with sub := 2#3, sum := Functional.sumOf r.packet, k := r'.k } := by
  induction left generalizing r with
  | zero =>
    refine ⟨{ r with sub := 2#3 }, .sumAdd hs h1 (by unfold kAdd; rw [if_neg (by simp only [Config.csumBytes]; omega)]), ?_⟩
    have : r.sum = Functional.sumOf r.packet := by rw [ha, show r.k.toNat = 7 by omega]; rfl
    rw [← this]
  | succ left ih =>
    have hk : (r.k + 1#3).toNat = r.k.toNat + 1 := by simp [BitVec.toNat_add]; omega
    obtain ⟨r', run, he⟩ := @ih { r with sum := addByte r.sum (packetByte r.packet r.k.toNat), k := r.k + 1#3 } hs h1 (by simp only [hk]; omega)
      (by simp only [hk]; rw [ha, partialSum_succ])
    refine ⟨r', ?_, he⟩
    rw [Nat.add_comm]
    exact (MicroRuns.sumAdd hs h1 (by unfold kAdd; rw [if_pos (by simp only [Config.csumBytes]; omega)])).trans run

end Sys2Proof.Machine
end

