-- ==== Sys2Proof/Machine/TextForm.lean ====
section
/-! DEFINITION. The notation of 30_encoding.md rule R94 for calls, operations and outcomes, as a model's printed traces write
them. Nothing in the machine reads it. Where the rule shows `power_kw=...` without a form for the number, its 64 bits are
written in hexadecimal (DESIGN CHOICE, safe, assumption log 15). -/

namespace Sys2Proof.Machine

/-- One hexadecimal digit, in the capitals of rule R10's listings. -/
def Text.hexDigit (n : Nat) : Char :=
  if n < 10 then Char.ofNat (48 + n) else Char.ofNat (55 + n)

/-- The `digits` low hexadecimal digits of a number, the most significant first. -/
def Text.hex : Nat → Nat → List Char
  | 0, _ => []
  | digits + 1, n => Text.hex digits (n / 16) ++ [Text.hexDigit (n % 16)]

/-- A number in decimal (rule R10); the fuel bounds its digits. -/
def Text.decimal : Nat → Nat → List Char
  | 0, _ => []
  | fuel + 1, n => (if n < 10 then [] else Text.decimal fuel (n / 10)) ++ [Char.ofNat (48 + n % 10)]

/-- Bytes as two hexadecimal digits each, separated by spaces, byte 0 first (rules R10, R94). -/
def Text.bytes : List Byte → List Char
  | [] => []
  | [b] => Text.hex 2 b.toNat
  | b :: rest => Text.hex 2 b.toNat ++ (' ' :: Text.bytes rest)

/-- The two braces of rule R94's outcomes. -/
def Text.braced (inner : List Char) : List Char := Char.ofNat 123 :: inner ++ [Char.ofNat 125]

/-- `DECODE n : b0 b1 ...`, with the first `count` bytes of the capture. -/
def Text.call (n count : Nat) (m : List Host.Cell) : String :=
  String.ofList ("DECODE ".toList ++ Text.decimal 4 n ++ " : ".toList ++
    Text.bytes ((List.range count).map fun a => Memory.read m a))

/-- The internal operations: `BITAT i`, `PREAMBLE`, `SYNC p`, `DEMOD p`, `CHECKSUM P`, `VALUE P`, with the operands that the
registers hold; DECODE is written as its command, without a capture listing, and a holding state by its table mnemonic. -/
def Text.operation (r : Regs) : Instr → String
  | .decode n => String.ofList ("DECODE ".toList ++ Text.decimal 4 n.toNat)
  | .bitat a j => String.ofList ("BITAT ".toList ++ Text.decimal 4 (bitIndex a j).toNat)
  | .holdIdle _ => "HOLD.IDLE"
  | .preamble _ => "PREAMBLE"
  | .sync _ => String.ofList ("SYNC ".toList ++ Text.decimal 4 r.preEnd.toNat)
  | .demod _ => String.ofList ("DEMOD ".toList ++ Text.decimal 4 r.syncEnd.toNat)
  | .checksum _ => String.ofList ("CHECKSUM ".toList ++ Text.bytes r.packet.toList)
  | .value _ => String.ofList ("VALUE ".toList ++ Text.bytes r.packet.toList)
  | .holdDone _ => "HOLD.DONE"
  | .holdFailed _ => "HOLD.FAILED"

/-- The name of a failure kind, with the payload of ChecksumMismatch. -/
def Text.failure : DecodeError → List Char
  | .notEnoughData => "NotEnoughData".toList
  | .preambleNotFound => "PreambleNotFound".toList
  | .syncNotFound => "SyncNotFound".toList
  | .insufficientSymbols => "InsufficientSymbols".toList
  | .checksumMismatch e a =>
    "ChecksumMismatch".toList ++
      Text.braced ("expected=0x".toList ++ Text.hex 2 e.toNat ++ ", actual=0x".toList ++ Text.hex 2 a.toNat)

/-- `Ok` with the three fields of the result, or `Err(Kind)`. -/
def Text.outcome : CallOutcome → String
  | .ok powerKw packet quality =>
    String.ofList ("Ok".toList ++ Text.braced ("power_kw=0x".toList ++ Text.hex 16 powerKw.toNat ++ ", packet=".toList ++
      Text.bytes packet.toList ++ ", quality=".toList ++ Text.decimal 4 quality))
  | .err e => String.ofList ("Err(".toList ++ Text.failure e ++ [')'])

end Sys2Proof.Machine
end

