-- ==== Sys2Proof/Tests/Slice0.lean ====
section
/-! SUPPORT. Tests of the model's own text, with expected values from 95_test_vectors.md and the rules' examples, and for every
obligation with hypotheses a state and operands that meet them (theorems `witness_…`). -/

namespace Sys2Proof.Tests

/- The theorems below are checked one after another: each `decide +kernel` waits for the checks before it, and many waiting
at once would take a thread each. -/
set_option Elab.async false

open Sys2Proof Sys2Proof.Machine

/-- A capture in canonical form from the bytes at an address and on. -/
def capture : Nat → List Byte → List Host.Cell
  | _, [] => []
  | a, b :: rest => Memory.entry a b (capture (a + 1) rest)

/-- The same byte several times. -/
def times (n : Nat) (b : Byte) : List Byte := List.replicate n b

/-- The capture of program P0 (95_test_vectors.md section 3). -/
def p0 : List Host.Cell := capture 0 (times 4 0xCC#8 ++ times 2 0xFF#8 ++ times 16 0x55#8)

/-- The capture of program P1. -/
def p1 : List Host.Cell :=
  capture 0 (times 4 0xCC#8 ++ times 2 0xFF#8 ++ times 8 0x55#8 ++ times 1 0x6A#8 ++ times 5 0xAA#8 ++
    [0xDA#8, 0xAA#8, 0xB0#8])

/-- A frame of rule R87 whose preamble begins at bit 1, with three 0 bits before the marker and four bits after symbol 64. -/
def shifted (last : Byte) : List Host.Cell :=
  capture 0 (times 5 0x66#8 ++ [0x0F#8, 0xFF#8, 0xF5#8] ++ times 15 0x55#8 ++ [last])

/-- A packet from its bytes. -/
def packetOf (b0 b1 b2 b3 b4 b5 b6 b7 : Byte) : Vector Byte 8 := #v[b0, b1, b2, b3, b4, b5, b6, b7]

/-- The packet of the document's vector, completed by the spec (program P2). -/
def p2Packet : Vector Byte 8 := packetOf 0x39#8 0x6B#8 0x2E#8 0x40#8 0x7E#8 0xB8#8 0x01#8 0x49#8

/-- The registers in a stage and sub-state of a call over 22 bytes, all others at reset. -/
def regsIn (g : Stage) (sub : BitVec 3) : Regs :=
  { Regs.reset with stage := g, sub := sub, vlen := 22#8, blen := 176#11 }

/-- A state with the capture of P0 and given registers. -/
def stateWith (r : Regs) : State := { State.reset with cap := p0, regs := r }

/-- A state that presents the command `DECODE n` in a stage. -/
def commandIn (g : Stage) (n : BitVec 8) : State :=
  { stateWith { Regs.reset with stage := g } with start := true, readBytes := n }

/-- What a test asks of the registers after one operation. -/
def after (i : Instr) (st : State) (p : Regs → Bool) : Bool :=
  match exec i st with
  | .next t => p t.regs
  | _ => false

/-- The bit that a BITAT run on its own returns. -/
def bitOf (i : Instr) (st : State) : Option Bit :=
  match exec i st with
  | .next t =>
    match t.bitat with
    | .result _ b => some b
    | _ => none
  | _ => none

/-! ### Well-formedness: each check refuses an ill-formed term -/

theorem test_wf_holdIdle : (Instr.holdIdle 0#3).wf = true ∧ (Instr.holdIdle 1#3).wf = false := by decide
theorem test_wf_preamble : (Instr.preamble 2#3).wf = true ∧ (Instr.preamble 3#3).wf = false := by decide
theorem test_wf_sync : (Instr.sync 1#3).wf = true ∧ (Instr.sync 2#3).wf = false := by decide
theorem test_wf_demod : (Instr.demod 4#3).wf = true ∧ (Instr.demod 5#3).wf = false := by decide
theorem test_wf_checksum : (Instr.checksum 2#3).wf = true ∧ (Instr.checksum 3#3).wf = false := by decide
theorem test_wf_value : (Instr.value 0#3).wf = true ∧ (Instr.value 1#3).wf = false := by decide
theorem test_wf_holdDone : (Instr.holdDone 0#3).wf = true ∧ (Instr.holdDone 1#3).wf = false := by decide
theorem test_wf_holdFailed : (Instr.holdFailed 0#3).wf = true ∧ (Instr.holdFailed 7#3).wf = false := by decide

/-! ### Decoding: words written out from rules R81, R90 and R91 -/

/-- Program P0's CALL word is `1 0001 0110`. -/
theorem test_decode_call : decode .call 0b100010110 = .ok (.decode 22#8) := by decide

/-- Section 2.1: `i = 23` is `0000010 111`. -/
theorem test_decode_bitIdx : decode .bitIdx 0b0000010111 = .ok (.bitat 2#7 7#3) := by decide

theorem test_decode_holdIdle : decode .stage 0b000000 = .ok (.holdIdle 0#3) := by decide
theorem test_decode_preamble : decode .stage 0b001010 = .ok (.preamble 2#3) := by decide
theorem test_decode_sync : decode .stage 0b010001 = .ok (.sync 1#3) := by decide
theorem test_decode_demod : decode .stage 0b011011 = .ok (.demod 3#3) := by decide
theorem test_decode_checksum : decode .stage 0b100001 = .ok (.checksum 1#3) := by decide
theorem test_decode_value : decode .stage 0b101000 = .ok (.value 0#3) := by decide
theorem test_decode_holdDone : decode .stage 0b110000 = .ok (.holdDone 0#3) := by decide
theorem test_decode_holdFailed : decode .stage 0b111000 = .ok (.holdFailed 0#3) := by decide

/-- `start = 0` is no operation, an unlisted pair is refused, a word too wide is no word (rules R92 (a), R92 (d), R81). -/
theorem test_decode_rejects :
    decode .call 0b000010110 = .error .noStart ∧ decode .stage 0b101001 = .error .unlistedSubState ∧
      decode .bitIdx 1024 = .error .notAWord := by decide

/-! ### One step of each operation -/

/-- The start step of P0: `vlen = 22`, `blen = 176`, stage Start (rule R209). -/
theorem test_decode_starts :
    after (.decode 22#8) (stateWith (regsIn .done 0#3)) (fun r =>
      decide (r.vlen = 22#8 ∧ r.blen = 176#11 ∧ r.stage = .start ∧ r.err = none)) = true := by decide +kernel

/-- P8: a count above 128 is NotEnoughData. -/
theorem test_decode_rejects_129 :
    after (.decode 129#8) State.reset (fun r => decide (r.stage = .failed ∧ r.err = some .notEnoughData)) = true := by
  decide +kernel

/-- Section 2.1: capture `33 80 01 A5`: `BITAT 0, 7, 8, 23, 31`, and the fault of `BITAT 32`. -/
theorem test_bitat :
    let st := { State.reset with
      cap := capture 0 [0x33#8, 0x80#8, 0x01#8, 0xA5#8], regs := { Regs.reset with vlen := 4#8, blen := 32#11 } }
    bitOf (.bitat 0#7 0#3) st = some 0#1 ∧ bitOf (.bitat 0#7 7#3) st = some 1#1 ∧ bitOf (.bitat 1#7 0#3) st = some 1#1 ∧
      bitOf (.bitat 2#7 7#3) st = some 1#1 ∧ bitOf (.bitat 3#7 7#3) st = some 1#1 ∧ bitOf (.bitat 3#7 6#3) st = some 0#1 ∧
      exec (.bitat 4#7 0#3) st = .fault .bitIndexOutOfRange := by
  refine ⟨by decide +kernel, by decide +kernel, by decide +kernel, by decide +kernel, by decide +kernel, by decide +kernel, rfl⟩

/-- Section 2.1: `QUAD(2) = 0b1100`, `QUAD(0) = 0b0011`. -/
theorem test_quad :
    let m := capture 0 [0x33#8, 0x80#8, 0x01#8, 0xA5#8]
    Functional.quad m 2 = 0b1100#4 ∧ Functional.quad m 0 = 0b0011#4 := by decide +kernel

theorem test_holdIdle : exec (.holdIdle 0#3) State.reset = .next State.reset := rfl
theorem test_holdDone : exec (.holdDone 0#3) (stateWith (regsIn .done 0#3)) = .next (stateWith (regsIn .done 0#3)) := rfl
theorem test_holdFailed :
    exec (.holdFailed 0#3) (stateWith (regsIn .failed 0#3)) = .next (stateWith (regsIn .failed 0#3)) := rfl

/-- One matching quad of P0's preamble (rule R127). -/
theorem test_preamble_walk :
    after (.preamble 1#3) (stateWith { regsIn .start 1#3 with pos := 4#11, q := 1#9 }) (fun r =>
      decide (r.q = 2#9 ∧ r.pos = 8#11 ∧ r.sub = 1#3)) = true := by decide +kernel

/-- P0: eight quads are accepted with `pre_end = 32`, `quality = 8` (rule R128). -/
theorem test_preamble_judge :
    after (.preamble 2#3) (stateWith { regsIn .start 2#3 with pos := 32#11, q := 8#9 }) (fun r =>
      decide (r.preEnd = 32#11 ∧ r.quality = 8#9 ∧ r.stage = .preambleFound ∧ r.sub = 0#3)) = true := by decide +kernel

/-- P0: the sixteenth 1 bit completes the marker, `sync_end = 48` (rule R145). -/
theorem test_sync_shift :
    after (.sync 1#3) (stateWith { regsIn .preambleFound 1#3 with preEnd := 32#11, pos := 47#11, acc := 0x7FFF#16 }) (fun r =>
      decide (r.acc = 0xFFFF#16 ∧ r.syncEnd = 48#11 ∧ r.pos = 48#11 ∧ r.stage = .syncFound ∧ r.sub = 0#3)) = true := by
  decide +kernel

/-- Section 2.3, `p = 41` with `blen = 56`: 15 bits remain, SyncNotFound in S_CHECK. -/
theorem test_sync_check :
    after (.sync 0#3) (stateWith { regsIn .preambleFound 0#3 with vlen := 7#8, blen := 56#11, preEnd := 41#11 }) (fun r =>
      decide (r.stage = .failed ∧ r.err = some .syncNotFound)) = true := by decide +kernel

/-- A tie of the two runs is data bit 0; (2,5) as symbol 2 of P2 is data bit 1, at bit 5 of byte 0 (rules R158, R165). -/
theorem test_demod_judge :
    after (.demod 4#3) (stateWith { regsIn .syncFound 4#3 with zeros := 2#11, ones := 2#11, nbits := 2#7 }) (fun r =>
        decide (packetByte r.packet 0 = 0x00#8 ∧ r.nbits = 3#7 ∧ r.sub = 1#3)) = true ∧
      after (.demod 4#3) (stateWith { regsIn .syncFound 4#3 with zeros := 2#11, ones := 5#11, nbits := 2#7 }) (fun r =>
        decide (packetByte r.packet 0 = 0x20#8 ∧ r.nbits = 3#7 ∧ r.sub = 1#3)) = true := by decide +kernel

/-- 64 bits packed at the end of P0's capture is success, though no bit remains (rules R159, R162). -/
theorem test_demod_symbol :
    after (.demod 1#3) (stateWith { regsIn .syncFound 1#3 with pos := 176#11, nbits := 64#7 }) (fun r =>
      decide (r.stage = .symbolsDemodulated ∧ r.demodEnd = 176#11 ∧ r.err = none)) = true := by decide +kernel

/-- The carry out of `80 + 80` is discarded (rule R177, section 2.5). -/
theorem test_checksum_add :
    after (.checksum 1#3)
      (stateWith { regsIn .symbolsDemodulated 1#3 with
        packet := packetOf 0x80#8 0x80#8 0#8 0#8 0#8 0#8 0#8 0x01#8, sum := 0x80#8, k := 1#3 }) (fun r =>
      decide (r.sum = 0x00#8 ∧ r.k = 2#3 ∧ r.sub = 1#3)) = true := by decide +kernel

/-- Section 2.5: `FFx8` is `Mismatch` with expected F9 and actual FF (rule R178). -/
theorem test_checksum_compare :
    after (.checksum 2#3)
      (stateWith { regsIn .symbolsDemodulated 2#3 with packet := Vector.replicate 8 0xFF#8, sum := 0xF9#8, k := 7#3 }) (fun r =>
      decide (r.stage = .failed ∧ r.err = some .checksumMismatch ∧ r.csumExpected = 0xF9#8 ∧ r.csumActual = 0xFF#8)) = true := by
  decide +kernel

/-- VALUE ends the call (rule R196). -/
theorem test_value_done :
    after (.value 0#3) (stateWith { regsIn .checksumVerified 0#3 with packet := p2Packet }) (fun r =>
      decide (r.stage = .done ∧ r.sub = 0#3 ∧ r.err = none)) = true := rfl

/-- Section 2.6: mantissa 0x7EB8 with byte 6 equal to 1, and with byte 6 equal to 0 for `K_NEG1 = 3`. -/
theorem test_value :
    Functional.value 1 p2Packet = 0x3FDE67FA5E353F7D#64 ∧
      Functional.value 3 (packetOf 0#8 0#8 0#8 0#8 0x7E#8 0xB8#8 0x00#8 0x36#8) = 0x3FE6CDFBC6A7EF9E#64 := by decide +kernel

/-! ### The stages' functions on short vectors of sections 2.2 to 2.5, and whole calls -/

/-- `33x8 30 00` and `CC CC CC CD 99 99 99 98` of section 2.2. -/
theorem test_preamble_function :
    Functional.preamble (capture 0 (times 8 0x33#8 ++ [0x30#8, 0x00#8])) 80 = some (70, 17) ∧
      Functional.preamble (capture 0 (times 3 0xCC#8 ++ [0xCD#8] ++ times 3 0x99#8 ++ [0x98#8])) 64 = some (63, 8) := by
  decide +kernel

/-- `CCx4 FF FF 80` from 33 and from 40, section 2.3. -/
theorem test_sync_function :
    let m := capture 0 (times 4 0xCC#8 ++ [0xFF#8, 0xFF#8, 0x80#8])
    Functional.sync m 56 33 = some 49 ∧ Functional.sync m 56 40 = none := by decide +kernel

/-- `CCx4 FF FF 55x15 54 03` and `CCx4 FF FF 55x15 54 FF`, section 2.4: a 64th symbol cut by the end of the valid bits counts.
-/
theorem test_demod_function :
    let m (b : Byte) := capture 0 (times 4 0xCC#8 ++ times 2 0xFF#8 ++ times 15 0x55#8 ++ [0x54#8, b])
    Functional.demod (m 0x03#8) 184 48 = some (Vector.replicate 8 0#8, 184) ∧
      Functional.demod (m 0xFF#8) 184 48 = some (packetOf 0#8 0#8 0#8 0#8 0#8 0#8 0#8 1#8, 184) ∧
      Functional.demod (m 0x00#8) 184 48 = none := by decide +kernel

/-- Section 2.5: bytes 0 to 6 sum to 0x249, byte 7 is 0x49. -/
theorem test_checksum_function : Functional.checksum p2Packet = none := by decide

/-- P1, and its first 21 bytes. -/
theorem test_call :
    Functional.decode 1 23 p1 = .ok 0x3FDEB6AE7D566CF4#64 (packetOf 0#8 0#8 0#8 0#8 0x80#8 0#8 1#8 0x81#8) 8 ∧
      Functional.decode 1 21 p1 = .err .insufficientSymbols := by decide +kernel

/-! ### Moves of the host and the printed form -/

/-- Writing the byte that an unlisted address reads as removes the entry. -/
theorem test_write_canonical :
    Memory.write (Memory.write [(3, 0x11#8)] 127 0xA5#8) 127 0x00#8 = [(3, 0x11#8)] ∧
      Memory.write [(3, 0x11#8)] 0 0xA5#8 = [(0, 0xA5#8), (3, 0x11#8)] := by decide

/-- The command of P7 and the failure without payload as rule R94 writes them. -/
theorem test_text :
    Text.call 3 3 (capture 0 (times 3 0xCC#8)) = "DECODE 3 : CC CC CC" ∧
      Text.outcome (.err .syncNotFound) = "Err(SyncNotFound)" := by decide +kernel

/-! ### Witnesses: for each obligation with hypotheses, inputs that meet them -/

theorem witness_DecodeEncodeAgree :
    (Instr.demod 4#3).wf = true ∧ decode .bitIdx 1023 = .ok (.bitat 127#7 7#3) ∧ decode .call 0x1FF = .ok (.decode 255#8) := by
  decide

theorem witness_StepRunsSelectedOperation :
    { State.reset with rst := true }.rst = true ∧
      ({ State.reset with bitat := .request 5#10 } : State).bitat = .request 5#10 ∧
      ((commandIn .done 22#8).busy = false ∧ (commandIn .done 22#8).regs.sub = 0#3 ∧ (commandIn .done 22#8).start = true ∧
        (commandIn .done 22#8).noRequest = true ∧ (commandIn .done 22#8).rst = false) ∧
      ((stateWith (regsIn .syncFound 4#3)).busy = true ∧ (stateWith (regsIn .syncFound 4#3)).noRequest = true ∧
        (regsIn .syncFound 4#3).stage.lists (regsIn .syncFound 4#3).sub = true) := by decide

theorem witness_PlacedWordRuns :
    decodeTableWord 9 0x116 = some (.decode 22#8) ∧ decodeTableWord 16 0x116 = some (.decode 22#8) ∧
      decodeTableWord 16 0x017 = some (.bitat 2#7 7#3) ∧ decodeTableWord 8 0x09 = some (.preamble 1#3) := by decide

theorem witness_UnlistedPairsHaveNoStep :
    (stateWith (regsIn .checksumVerified 1#3)).rst = false ∧ (stateWith (regsIn .checksumVerified 1#3)).noRequest = true ∧
      Stage.checksumVerified.lists 1#3 = false := by decide

theorem witness_CommandIgnoredWhileBusy :
    (stateWith (regsIn .start 0#3)).busy = true ∧ ∃ t, step (stateWith (regsIn .start 0#3)) = .next t :=
  ⟨rfl, _, rfl⟩

theorem witness_CoreNeverWritesCapture :
    (∃ t, exec (.demod 0#3) (stateWith (regsIn .syncFound 0#3)) = .next t) ∧ ∃ t, step (commandIn .idle 22#8) = .next t :=
  ⟨⟨_, rfl⟩, _, rfl⟩

theorem witness_StagesWriteOnlyTheirRegisters :
    (∃ t, exec (.preamble 2#3) (stateWith (regsIn .start 2#3)) = .next t) ∧
      (∃ t, exec (.sync 0#3) (stateWith (regsIn .preambleFound 0#3)) = .next t) ∧
      (∃ t, exec (.demod 4#3) (stateWith (regsIn .syncFound 4#3)) = .next t) ∧
      (∃ t, exec (.checksum 2#3) (stateWith (regsIn .symbolsDemodulated 2#3)) = .next t) ∧
      ∃ t, exec (.value 0#3) (stateWith (regsIn .checksumVerified 0#3)) = .next t :=
  ⟨⟨_, rfl⟩, ⟨_, rfl⟩, ⟨_, rfl⟩, ⟨_, rfl⟩, _, rfl⟩

/-- A step that changes the stage: from a holding state, and between two busy stages. -/
theorem witness_StageTransitions :
    (∃ t, step (commandIn .failed 22#8) = .next t ∧ t.regs.stage = .start ∧ (commandIn .failed 22#8).busy = false) ∧
      ∃ t, step (stateWith { regsIn .start 2#3 with q := 8#9 }) = .next t ∧ t.regs.stage = .preambleFound :=
  ⟨⟨_, rfl, rfl, rfl⟩, _, rfl, rfl⟩

/-- A failing step with a payload and one without. -/
theorem witness_FailureKindFollowsStage :
    (∃ t, step (stateWith { regsIn .symbolsDemodulated 2#3 with sum := 1#8 }) = .next t ∧ t.regs.stage = .failed ∧
        t.regs.err = some .checksumMismatch) ∧
      ∃ t, step (stateWith (regsIn .syncFound 4#3)) = .next t ∧ t.regs.stage = .failed ∧
        t.regs.err = some .insufficientSymbols ∧ (stateWith (regsIn .syncFound 4#3)).busy = true :=
  ⟨⟨_, rfl, rfl, rfl⟩, _, rfl, rfl, rfl, rfl⟩

/-- Counts at the edges of the entry check, in each stage that is not busy. -/
theorem witness_StartStep :
    (commandIn .idle 0#8).busy = false ∧ (0#8).toNat = 0 ∧ (commandIn .done 1#8).busy = false ∧ ¬ (1#8).toNat = 0 ∧
      (commandIn .failed 128#8).busy = false ∧ ¬ 128 < (128#8).toNat ∧ 128 < (129#8).toNat := by decide

theorem witness_CommandWhileBusyIsNoOperation : (stateWith (regsIn .checksumVerified 0#3)).busy = true := by decide

theorem witness_HoldingStatesHold :
    ((stateWith (regsIn .failed 0#3)).rst = false ∧ (stateWith (regsIn .failed 0#3)).noRequest = true ∧
        (stateWith (regsIn .failed 0#3)).busy = false ∧ (stateWith (regsIn .failed 0#3)).start = false) ∧
      ∃ t, step State.reset = .next t ∧ t.regs.stage = .idle ∧ State.reset.rst = false :=
  ⟨by decide, _, rfl, rfl, rfl⟩

theorem witness_StartStepForgetsRegisters :
    (commandIn .done 22#8).startsCall = true ∧
      ({ commandIn .failed 22#8 with regs := { regsIn .failed 0#3 with acc := 7#16, s := 9#11 } } : State).startsCall = true := by
  decide

/-- `blen = 176`: the bit indices 175 and 176, and with `blen = 1024` the last index of the capture. -/
theorem witness_BitatReadsOneBit :
    8 * (21#7).toNat + (7#3).toNat < (stateWith (regsIn .start 0#3)).regs.blen.toNat ∧
      (stateWith (regsIn .start 0#3)).regs.blen.toNat ≤ 8 * (22#7).toNat + (0#3).toNat ∧
      8 * (127#7).toNat + (7#3).toNat < (1024#11).toNat := by decide

theorem witness_BitOrderMostSignificantFirst :
    captureBit [(1, 0x80#8)] (8 * 1 + 0) = 1#1 ∧ captureBit [(1, 0x01#8)] (8 * 1 + 7) = 1#1 ∧ 7 ≤ 7 := by decide +kernel

/-- `QUAD(1020)` of a full capture and the first index with fewer than four bits. -/
theorem witness_QuadIsFourBits : 1024 ≤ 1024 ∧ 1020 + 4 ≤ 1024 ∧ 1024 < 1021 + 4 := by decide

/-- Each clause's condition at the edge: 32 and 31 bits left, 4 and 3 bits left, 8 and 7 quads. -/
theorem witness_PreambleMicroSteps :
    (let r := { regsIn .start 0#3 with s := 144#11 };
      r.s.toNat + 32 ≤ r.blen.toNat ∧ ¬ (r.s + 1#11).toNat + 32 ≤ r.blen.toNat) ∧
      (let r := { regsIn .start 1#3 with blen := 32#11, pos := 28#11 };
        r.blen.toNat ≤ 1024 ∧ r.pos.toNat + 4 ≤ r.blen.toNat ∧ ¬ (r.pos + 1#11).toNat + 4 ≤ r.blen.toNat ∧
        captureBit p0 28 = 1#1 ∧ captureBit p0 29 = 1#1 ∧ captureBit p0 30 = 0#1 ∧ captureBit p0 31 = 0#1) ∧
      8 ≤ (8#9).toNat ∧ ¬ 8 ≤ (7#9).toNat := by decide +kernel

/-- 16 and 15 bits left; a last bit that completes the marker, and no bit left. -/
theorem witness_SyncMicroSteps :
    (let r := { regsIn .preambleFound 0#3 with preEnd := 160#11 };
      r.preEnd.toNat ≤ r.blen.toNat ∧ ¬ r.blen.toNat - r.preEnd.toNat < 16 ∧ r.blen.toNat - (r.preEnd + 1#11).toNat < 16) ∧
      (let r := { regsIn .preambleFound 1#3 with blen := 48#11, pos := 47#11, acc := 0x7FFF#16 };
        r.blen.toNat ≤ 1024 ∧ r.pos.toNat < r.blen.toNat ∧ ¬ (r.pos + 1#11).toNat < r.blen.toNat ∧
        BitVec.ofNat 16 (r.acc.toNat * 2 + (captureBit p0 r.pos.toNat).toNat) = 0xFFFF#16 ∧
        BitVec.ofNat 16 (0x3FFF * 2 + (captureBit p0 r.pos.toNat).toNat) ≠ 0xFFFF#16) := by decide +kernel

/-- 64 and 63 bits packed, no bit and one bit left, a 0 bit and a 1 bit at the position, runs of length 0 and 1, a tie and not.
-/
theorem witness_DemodMicroSteps :
    ((64#7).toNat = 64 ∧ ¬ (63#7).toNat = 64 ∧ (176#11).toNat ≤ (176#11).toNat ∧ ¬ (176#11).toNat ≤ (175#11).toNat) ∧
      ((176#11).toNat ≤ 1024 ∧ captureBit p0 174 = 0#1 ∧ captureBit p0 175 = 1#1) ∧
      ((0#11).toNat = 0 ∧ ¬ (1#11).toNat = 0 ∧ (1#11).toNat ≤ (1#11).toNat ∧ ¬ (2#11).toNat ≤ (1#11).toNat) := by decide +kernel

theorem witness_PackingAddsOneBit : 0 < 64 ∧ 63 < 64 ∧ 7 = 63 / 8 ∧ 7 < 8 ∧ ¬ 0 = 63 / 8 := by decide

/-- Index 6 and 7; a sum that is byte 7 and one that is not. -/
theorem witness_ChecksumMicroSteps :
    (6#3).toNat < 7 ∧ ¬ (7#3).toNat < 7 ∧ packetByte p2Packet 7 = 0x49#8 ∧ packetByte p2Packet 7 ≠ 0x48#8 := by decide

/-- The state right after P0's start step meets the premises of PREAMBLE's run. -/
theorem witness_PreambleStepsComputeFunction :
    ∃ st : State, st.Inv ∧ st.rst = false ∧ st.noRequest = true ∧ st.regs.stage = .start ∧ st.regs.sub = 0#3 ∧ st.regs.s = 0#11 :=
  ⟨stateWith (Regs.startCall 22#8),
    ⟨by decide +kernel, fun h => absurd h (by decide), (startCall_meets_inv 22#8).1, (startCall_meets_inv 22#8).2⟩,
    rfl, rfl, by decide, by decide, by decide⟩

/-- P0's registers when its preamble has been found. -/
def found : Regs :=
  { regsIn .preambleFound 0#3 with pos := 32#11, q := 8#9, preEnd := 32#11, quality := 8#9 }

theorem found_preambleDone : found.PreambleDone := by
  refine ⟨⟨?_, ?_, ?_, ?_⟩, ?_, ?_, ?_, ?_⟩ <;> decide

theorem found_inv : (stateWith found).Inv :=
  ⟨by decide +kernel, fun h => absurd h (by decide), by constructor <;> decide, ⟨found_preambleDone, trivial⟩⟩

theorem witness_SyncStepsComputeFunction :
    ∃ st : State, st.Inv ∧ st.rst = false ∧ st.noRequest = true ∧ st.regs.stage = .preambleFound ∧ st.regs.sub = 0#3 :=
  ⟨stateWith found, found_inv, rfl, rfl, rfl, rfl⟩

/-- P0's registers when its marker has been found. -/
def synced : Regs := { found with stage := .syncFound, pos := 48#11, acc := 0xFFFF#16, syncEnd := 48#11 }

theorem synced_syncDone : synced.SyncDone := by
  refine ⟨⟨⟨?_, ?_, ?_, ?_⟩, ?_, ?_, ?_, ?_⟩, ?_, ?_⟩ <;> decide

theorem synced_inv : (stateWith synced).Inv :=
  ⟨by decide +kernel, fun h => absurd h (by decide), by constructor <;> decide, ⟨synced_syncDone, trivial⟩⟩

theorem witness_DemodStepsComputeFunction :
    ∃ st : State, st.Inv ∧ st.rst = false ∧ st.noRequest = true ∧ st.regs.stage = .syncFound ∧ st.regs.sub = 0#3 :=
  ⟨stateWith synced, synced_inv, rfl, rfl, rfl, rfl⟩

theorem witness_ChecksumStepsComputeFunction :
    (stateWith (regsIn .symbolsDemodulated 0#3)).rst = false ∧ (stateWith (regsIn .symbolsDemodulated 0#3)).noRequest = true ∧
      Functional.checksum p2Packet = none ∧ Functional.checksum (Vector.replicate 8 0xFF#8) = some (0xF9#8, 0xFF#8) := by
  decide

theorem witness_CallComputesDecodeFunction :
    (commandIn .idle 22#8).startsCall = true ∧ (commandIn .done 0#8).startsCall = true ∧
      (commandIn .failed 129#8).startsCall = true := by decide

theorem witness_PreambleFindsFirstRun :
    Functional.preamble (shifted 0x50#8) 192 = some (41, 10) ∧
      Functional.preamble (capture 0 (times 4 0xCC#8)) 32 = some (32, 8) := by decide +kernel

theorem witness_PreambleNotFoundExactly :
    Functional.preamble (capture 0 (times 3 0xCC#8 ++ [0xC8#8])) 32 = none ∧ 32 ≤ 1024 := by decide +kernel

/-- A first window, a marker that ends at `blen`, and 15 bits left. -/
theorem witness_SyncFindsFirstWindow :
    Functional.sync (shifted 0x50#8) 192 41 = some 60 ∧ Functional.sync p0 48 32 = some 48 ∧ Functional.sync p0 48 33 = none := by
  decide +kernel

theorem witness_SyncIndependentOfWalkReading : Functional.preamble (shifted 0x50#8) 192 = some (41, 10) ∧ 192 ≤ 1024 := by
  decide +kernel

/-- An end at `blen`, and one before it. -/
theorem witness_DemodFoundProperties :
    Functional.demod p0 176 48 = some (Vector.replicate 8 0#8, 176) ∧
      Functional.demod (shifted 0x50#8) 192 60 = some (Vector.replicate 8 0#8, 188) := by decide +kernel

/-- Data bit `n` of P1's packet `00 00 00 00 80 00 01 81` is 1. -/
def p1Bit (n : Nat) : Bool := n == 32 || n == 55 || n == 56 || n == 63

/-- Where P1's symbol `n` begins: 0 is coded (1,1), 1 is coded (1,2). -/
def p1At (n : Nat) : Nat := 48 + 2 * n + ((List.range n).filter p1Bit).length

theorem witness_DemodPacksSymbols :
    184 ≤ 1024 ∧ p1At 0 = 48 ∧ p1At 64 ≤ 184 ∧ captureBit p1 (p1At 64) = 0#1 ∧
      ∀ n, n < 64 → 1 ≤ 1 ∧ 1 ≤ (if p1Bit n then 2 else 1) ∧ p1At (n + 1) = p1At n + 1 + (if p1Bit n then 2 else 1) ∧
        (∀ i, i < 1 → captureBit p1 (p1At n + i) = 0#1) ∧
        (∀ i, i < (if p1Bit n then 2 else 1) → captureBit p1 (p1At n + 1 + i) = 1#1) := by decide +kernel

/-- A last run that a 0 bit ends, with other bits after it, and a last run that the end of the valid bits cuts (P0), with the bit
at `blen` another. -/
theorem witness_DemodIgnoresTrailingBits :
    (Functional.demod (shifted 0x50#8) 192 60 = some (Vector.replicate 8 0#8, 188) ∧
      ∀ i, 60 ≤ i → i ≤ 188 → i < 192 → captureBit (shifted 0x50#8) i = captureBit (shifted 0x57#8) i) ∧
      Functional.demod p0 176 48 = some (Vector.replicate 8 0#8, 176) ∧
      captureBit p0 176 ≠ captureBit (Memory.write p0 22 0xFF#8) 176 ∧
      ∀ i, 48 ≤ i → i ≤ 176 → i < 176 → captureBit p0 i = captureBit (Memory.write p0 22 0xFF#8) i := by
  have h : ∀ x, x < 189 → captureBit (shifted 0x50#8) x = captureBit (shifted 0x57#8) x := by decide +kernel
  have h' : ∀ x, x < 176 → captureBit p0 x = captureBit (Memory.write p0 22 0xFF#8) x := by decide +kernel
  exact ⟨⟨by decide +kernel, fun i _ hi _ => h i (by omega)⟩, by decide +kernel, by decide +kernel, fun i _ _ hi => h' i hi⟩

/-- One bit of the checksum byte, and one of byte 0, flipped. -/
theorem witness_ChecksumCatchesSingleFlip :
    Functional.checksum p2Packet = none ∧
      (∀ i, i < 8 → packetByte (packetOf 0x39#8 0x6B#8 0x2E#8 0x40#8 0x7E#8 0xB8#8 0x01#8 0xC9#8) i =
        if i = 7 then packetByte p2Packet i ^^^ BitVec.ofNat 8 (2 ^ 7) else packetByte p2Packet i) ∧
      ∀ i, i < 8 → packetByte (packetOf 0x38#8 0x6B#8 0x2E#8 0x40#8 0x7E#8 0xB8#8 0x01#8 0x49#8) i =
        if i = 0 then packetByte p2Packet i ^^^ BitVec.ofNat 8 (2 ^ 0) else packetByte p2Packet i := by decide +kernel

theorem witness_ChecksumComparesSum :
    Functional.checksum (packetOf 0x80#8 0x80#8 0#8 0#8 0#8 0#8 0#8 1#8) = some (0x00#8, 0x01#8) := by decide +kernel

theorem witness_OutcomeIgnoresBytesPastCount :
    ∀ a, a < 22 → Memory.read p0 a = Memory.read (Memory.write p0 22 0xEE#8) a := by decide +kernel

theorem witness_SuccessProperties :
    Functional.decode 0 22 p0 = .ok 0x0000000000000000#64 (Vector.replicate 8 0#8) 8 := by decide +kernel

/-- P1 has the shape of rule R87: with nothing before the preamble and nothing between it and the marker. -/
theorem witness_FrameDecodes_p1 :
    8 ≤ 8 ∧ 0 + 4 * 8 ≤ 8 * 23 ∧ (∀ k, k < 8 → Functional.quad p1 (0 + 4 * k) = 0b1100#4) ∧
      Functional.quad p1 (0 + 4 * 8) ≠ 0b1100#4 ∧ (∀ i, i < 16 → captureBit p1 (32 + i) = 1#1) ∧
      (∀ i, i < 64 → (packetByte (packetOf 0#8 0#8 0#8 0#8 0x80#8 0#8 1#8 0x81#8) (i / 8)).getLsbD (7 - i % 8) =
        decide (1 < if p1Bit i then 2 else 1)) ∧
      (0 + 0 + 0 + 0 + 0x80 + 0 + 1) % 256 = 0x81 := by decide +kernel

/-- A frame with a bit before the preamble, bits between it and the marker, and bits after symbol 64. -/
theorem witness_FrameDecodes_shifted :
    (1 ≤ 24 ∧ 24 ≤ 128 ∧ 8 ≤ 10 ∧ 1 + 4 * 10 ≤ 8 * 24) ∧
      (∀ k, k < 10 → Functional.quad (shifted 0x50#8) (1 + 4 * k) = 0b1100#4) ∧
      Functional.quad (shifted 0x50#8) (1 + 4 * 10) ≠ 0b1100#4 ∧
      (∀ s, s < 1 → ∃ k, k < 8 ∧ Functional.quad (shifted 0x50#8) (s + 4 * k) ≠ 0b1100#4) ∧
      (1 + 4 * 10 ≤ 44 ∧ 44 + 16 ≤ 8 * 24) ∧ (∀ i, i < 16 → captureBit (shifted 0x50#8) (44 + i) = 1#1) ∧
      (∀ j, j < 44 → 1 + 4 * 10 ≤ j → ∃ i, i < 16 ∧ captureBit (shifted 0x50#8) (j + i) = 0#1) ∧
      (60 + 2 * 0 = 44 + 16 ∧ 60 + 2 * 64 ≤ 8 * 24 ∧ captureBit (shifted 0x50#8) (60 + 2 * 64) = 0#1) ∧
      (∀ i, i < 64 → captureBit (shifted 0x50#8) (60 + 2 * i) = 0#1 ∧ captureBit (shifted 0x50#8) (60 + 2 * i + 1) = 1#1) ∧
      ∀ i, i < 64 → (packetByte (Vector.replicate 8 0#8) (i / 8)).getLsbD (7 - i % 8) = decide (1 < 1) := by decide +kernel

theorem witness_CountDecidesEntry :
    Functional.decode 0 0 [] = .err .notEnoughData ∧ Functional.decode 0 129 [] = .err .notEnoughData ∧
      Functional.decode 0 1 [] = .err .preambleNotFound ∧ Functional.decode 0 3 [] = .err .preambleNotFound ∧
      Functional.decode 0 128 [] ≠ .err .notEnoughData := by decide +kernel

/-- `2^53 + 1` is halfway between two binary64 numbers. -/
theorem witness_RoundingIsNearestEven :
    Binary64.biased (Binary64.rn (2 ^ 53 + 1) 1) < 2047 ∧ Binary64.rn (2 ^ 53 + 1) 1 = 0x4340000000000000#64 ∧
      Binary64.num 0x4340000000000001#64 = (2 ^ 53 + 2) * Binary64.den := by decide +kernel

/-- Packet byte 6 at 255, at 1 and at 0. -/
theorem witness_ValueIsScaledProduct :
    1 ≤ (packetByte (packetOf 0#8 0#8 0#8 0#8 0xFF#8 0xFF#8 0xFF#8 0#8) 6).toNat ∧ 1 ≤ (packetByte p2Packet 6).toNat ∧
      (packetByte (packetOf 0#8 0#8 0#8 0#8 0x7E#8 0xB8#8 0x00#8 0x36#8) 6).toNat = 0 := by decide

theorem witness_ValueRelativeError :
    1 ≤ (packetByte p2Packet 6).toNat ∧ 1 ≤ mantissa p2Packet ∧ mantissa (packetOf 0#8 0#8 0#8 0#8 0#8 1#8 1#8 0#8) = 1 := by decide

/-- The ends of the parameter's domain, a mantissa of 0, and the two ends of the range. -/
theorem witness_ValueRange :
    (0 ≤ 2 ^ 1023 ∧ 2 ^ 1023 ≤ 2 ^ 1023) ∧ mantissa (packetOf 0#8 0#8 0#8 0#8 0#8 0#8 5#8 0#8) = 0 ∧
      1 ≤ mantissa (packetOf 0#8 0#8 0#8 0#8 0#8 1#8 1#8 0#8) ∧
      (packetByte (packetOf 0#8 0#8 0#8 0#8 0xFF#8 0xFF#8 0xFF#8 0#8) 6).toNat = 255 := by
  exact ⟨⟨Nat.zero_le _, Nat.le_refl _⟩, by decide, by decide, by decide⟩

theorem witness_ValueReadsBytesFourToSix :
    (∀ i, i < 7 → 4 ≤ i →
        packetByte p2Packet i = packetByte (packetOf 0#8 1#8 2#8 3#8 0x7E#8 0xB8#8 0x01#8 0xFF#8) i) ∧
      1 ≤ (packetByte p2Packet 6).toNat := by decide +kernel

theorem witness_ResetAtAnyTime : ({ stateWith (regsIn .syncFound 2#3) with rst := true } : State).rst = true := by decide

/-- States in which each port's condition holds. -/
theorem witness_PortsAreGated :
    (stateWith (regsIn .start 0#3)).busy = true ∧ (stateWith (regsIn .done 0#3)).ok = true ∧
      (stateWith (regsIn .failed 0#3)).regs.err = none ∧
      ∀ k ∈ [ErrKind.notEnoughData, .preambleNotFound, .syncNotFound, .insufficientSymbols, .checksumMismatch],
        let st := stateWith { regsIn .failed 0#3 with err := some k }
        st.done = true ∧ st.ok = false ∧ st.regs.stage = .failed ∧ st.regs.err = some k := by decide

theorem witness_PacketPortLayout : 0 < 8 ∧ 7 < 8 := by decide

theorem witness_HostMovesKeepRegisters :
    (∃ t, hostMove (.setStart true) (stateWith (regsIn .start 0#3)) = .next t) ∧ HostMove.setStart true ≠ .setReset true ∧
      (stateWith (regsIn .start 0#3)).busy = true ∧ (stateWith (regsIn .failed 0#3)).busy = false :=
  ⟨⟨_, rfl⟩, by decide, rfl, rfl⟩

theorem witness_HostWriteReadsBack : (commandIn .idle 0#8).busy = false ∧ Memory.wf (commandIn .idle 0#8).cap = true := by
  decide +kernel

theorem witness_StepKeepsInvariant : ∃ st t : State, st.Inv ∧ step st = .next t :=
  ⟨stateWith synced, _, synced_inv, rfl⟩

theorem witness_HostMovesKeepInvariant : ∃ st t : State, st.Inv ∧ hostMove (.setReset true) st = .next t :=
  ⟨stateWith synced, _, synced_inv, rfl⟩

theorem witness_InvariantMakesStepsSafe : ∃ st : State, st.Inv ∧ st.noRequest = true :=
  ⟨stateWith found, found_inv, rfl⟩

/-- The moves of the host in turn. -/
def hostMoves : List HostMove → State → Option State
  | [], st => some st
  | mv :: rest, st =>
    match hostMove mv st with
    | .next t => hostMoves rest t
    | _ => none

theorem reachable_hostMoves {ms : List HostMove} {st t : State} (hr : Reachable st) (h : hostMoves ms st = some t) :
    Reachable t := by
  induction ms generalizing st with
  | nil => cases h; exact hr
  | cons mv rest ih =>
    simp only [hostMoves] at h
    split at h
    · exact ih (.host mv hr ‹_›) h
    · cases h

theorem reachable_run {n : Nat} {st t : State} (hr : Reachable st) (h : Host.Core.run Sys2Proof.core n st = .next t) :
    Reachable t := by
  induction n generalizing st with
  | zero => cases h; exact hr
  | succ n ih =>
    simp only [Host.Core.run] at h
    split at h
    · exact ih (.step hr ‹_›) h
    all_goals cases h

/-- The host writes P0's capture and its count, and raises `start`. -/
theorem reachable_command : Reachable (commandIn .idle 22#8) :=
  reachable_hostMoves
    (ms := ((List.range 22).map fun a => .writeByte (BitVec.ofNat 7 a) (Memory.read p0 a)) ++ [.setReadBytes 22#8, .setStart true])
    .reset (by decide +kernel)

/-- The last state before VALUE in P0's call: the start step, and the 424 steps of P0's trace before VALUE's one. -/
def beforeValue (o : Host.Outcome State Fault Refusal) : Bool :=
  match o with
  | .next t => decide (t.regs.stage = .checksumVerified ∧ t.regs.sub = 0#3 ∧ t.rst = false ∧ t.bitat = .idle)
  | _ => false

theorem next_of_beforeValue {o : Host.Outcome State Fault Refusal} (h : beforeValue o = true) :
    ∃ t, o = .next t ∧ t.regs.stage = .checksumVerified ∧ t.regs.sub = 0#3 ∧ t.rst = false ∧ t.bitat = .idle := by
  cases o with
  | next t => exact ⟨t, rfl, of_decide_eq_true h⟩
  | _ => cases h

theorem p0_beforeValue : beforeValue (Host.Core.run Sys2Proof.core 425 (commandIn .idle 22#8)) = true := by decide +kernel

/-- A reachable state in which a call has succeeded: the end of P0. -/
theorem witness_ReachableStatesAreSafe : Reachable State.reset ∧ ∃ st, Reachable st ∧ st.regs.stage = .done := by
  obtain ⟨t, ht, hg, hs, hr, hb⟩ := next_of_beforeValue p0_beforeValue
  have hx : step t = exec (t.regs.stage.operation t.regs.sub) t :=
    step_of_stage hr (by simp [State.noRequest, hb]) (by simp [State.sampled, State.busy, hg, stageBusy]) (by rw [hg, hs]; rfl)
  rw [hg, hs] at hx
  have he : exec (.value 0#3) t = .next { t with regs := vEval t.regs } := rfl
  exact ⟨.reset, _, .step (reachable_run reachable_command ht) (hx.trans he), rfl⟩

end Sys2Proof.Tests
end

section
namespace Sys2Proof

/-- Settles O49: `K_NEG1` is the free constant capped at the top of its domain (rules R7, R190), so the bound holds whatever
the free constant is. -/
theorem openParameterInDomain : Obligations.OpenParameterInDomain := by
  unfold Obligations.OpenParameterInDomain Config.kNeg1
  exact Nat.min_le_right Config.kNeg1Free (2 ^ 1023)

end Sys2Proof
end

section
/-! SUPPORT. One step and one move of the host under the invariant, each said once: what they keep, and that the step answers. -/

namespace Sys2Proof.Machine

/-- The sub-states that rule R91 lists for Start. -/
theorem sub_of_lists_start {sub : BitVec 3} (h : Stage.start.lists sub = true) : sub = 0#3 ∨ sub = 1#3 ∨ sub = 2#3 := by
  revert sub
  decide

/-- The sub-states that rule R91 lists for PreambleFound. -/
theorem sub_of_lists_preambleFound {sub : BitVec 3} (h : Stage.preambleFound.lists sub = true) : sub = 0#3 ∨ sub = 1#3 := by
  revert sub
  decide

/-- The sub-states that rule R91 lists for SyncFound. -/
theorem sub_of_lists_syncFound {sub : BitVec 3} (h : Stage.syncFound.lists sub = true) :
    sub = 0#3 ∨ sub = 1#3 ∨ sub = 2#3 ∨ sub = 3#3 ∨ sub = 4#3 := by
  revert sub
  decide

/-- The sub-states that rule R91 lists for SymbolsDemodulated. -/
theorem sub_of_lists_symbolsDemodulated {sub : BitVec 3} (h : Stage.symbolsDemodulated.lists sub = true) :
    sub = 0#3 ∨ sub = 1#3 ∨ sub = 2#3 := by
  revert sub
  decide

section Stages
variable {m : List Host.Cell} {r r' : Regs} (hr : r.InRange) (hi : r.InStage) (hm : microStep m r = .ok r')
include hr hi hm

/-- Every micro-step of PREAMBLE keeps the invariant (rule R129). -/
theorem preamble_microStep_keeps_inv (hg : r.stage = .start) : r'.InRange ∧ r'.InStage := by
  have hl := listed_of_inStage hi
  rw [hg] at hl
  simp only [Regs.InStage, hg] at hi
  obtain ⟨he, hp⟩ := hi
  rcases sub_of_lists_start hl with h | h | h <;> simp only [microStep, hg, h] at hm
  · cases hm
    exact pCand_keeps_inv hr he hg
  · exact pWalk_keeps_inv hr he hg h hp hm
  · cases hm
    exact pJudge_keeps_inv hr he hg h hp

/-- Every micro-step of SYNC keeps the invariant (rule R146). -/
theorem sync_microStep_keeps_inv (hg : r.stage = .preambleFound) : r'.InRange ∧ r'.InStage := by
  have hl := listed_of_inStage hi
  rw [hg] at hl
  simp only [Regs.InStage, hg] at hi
  obtain ⟨hd, hp⟩ := hi
  rcases sub_of_lists_preambleFound hl with h | h <;> simp only [microStep, hg, h] at hm
  · cases hm
    exact sCheck_keeps_inv hr hd hg
  · exact sShift_keeps_inv hr hd hg h hp hm

/-- Every micro-step of DEMOD keeps the invariant (rule R166). -/
theorem demod_microStep_keeps_inv (hg : r.stage = .syncFound) : r'.InRange ∧ r'.InStage := by
  have hl := listed_of_inStage hi
  rw [hg] at hl
  simp only [Regs.InStage, hg] at hi
  obtain ⟨hd, hp⟩ := hi
  rcases sub_of_lists_syncFound hl with h | h | h | h | h <;> simp only [microStep, hg, h] at hm
  · cases hm
    exact mInit_keeps_inv hr hd hg
  · cases hm
    exact mSymbol_keeps_inv hr hd hg h hp
  · exact mZeros_keeps_inv hr hd hg h hp hm
  · exact mOnes_keeps_inv hr hd hg h hp hm
  · cases hm
    exact mJudge_keeps_inv hr hd hg h hp

/-- Every micro-step of CHECKSUM keeps the invariant (rule R179). -/
theorem checksum_microStep_keeps_inv (hg : r.stage = .symbolsDemodulated) : r'.InRange ∧ r'.InStage := by
  have hl := listed_of_inStage hi
  rw [hg] at hl
  simp only [Regs.InStage, hg] at hi
  obtain ⟨hd, hp⟩ := hi
  rcases sub_of_lists_symbolsDemodulated hl with h | h | h <;> simp only [microStep, hg, h] at hm <;> cases hm
  · exact kInit_keeps_inv hr hd hg
  · exact kAdd_keeps_inv hr hd hg h hp
  · exact kCmp_keeps_inv hr hd h hp

/-- Every micro-step keeps the ranges and what the stage fixes. -/
theorem microStep_keeps_inv : r'.InRange ∧ r'.InStage := by
  cases hg : r.stage with
  | start => exact preamble_microStep_keeps_inv hr hi hm hg
  | preambleFound => exact sync_microStep_keeps_inv hr hi hm hg
  | syncFound => exact demod_microStep_keeps_inv hr hi hm hg
  | symbolsDemodulated => exact checksum_microStep_keeps_inv hr hi hm hg
  | checksumVerified =>
    simp only [Regs.InStage, hg] at hi
    simp only [microStep, hg] at hm
    cases hm
    exact vEval_keeps_inv hr hi.1
  | idle | done | failed =>
    simp only [microStep, hg] at hm
    cases hm
    exact ⟨hr, hi⟩

end Stages

/-- A canonical capture and the reset values meet the invariant, whatever the inputs are. -/
theorem State.inv_of_regs_reset {st : State} (hc : Memory.wf st.cap = true) (hr : st.regs = Regs.reset) : st.Inv where
  cap_wf := hc
  held _ := hr
  range := hr ▸ reset_range
  stage := by
    rw [hr]
    rfl

/-- Writing registers that meet their part of the invariant keeps it, while reset is released. -/
theorem State.Inv.withRegs {st : State} (h : st.Inv) (hrst : st.rst = false) {r : Regs} (hr : r.InRange ∧ r.InStage) :
    (st.withRegs r).Inv where
  cap_wf := h.cap_wf
  held h1 := absurd (hrst.symm.trans h1) (by decide)
  range := hr.1
  stage := hr.2

/-- Every step keeps the invariant. -/
theorem step_keeps_inv {st t : State} (h : st.Inv) (hs : step st = .next t) : t.Inv := by
  cases hrst : st.rst with
  | true =>
    rw [step_of_rst hrst] at hs
    cases hs
    exact State.inv_of_regs_reset h.cap_wf rfl
  | false =>
    obtain ⟨i, b, -, -, rfl⟩ | ⟨-, -, -, rfl⟩ | ⟨-, -, -, r, hm, rfl⟩ := step_next_cases hrst hs
    · exact ⟨h.cap_wf, h.held, h.range, h.stage⟩
    · exact h.withRegs hrst (startCall_meets_inv st.readBytes)
    · exact h.withRegs hrst (microStep_keeps_inv h.range h.stage hm)

end Sys2Proof.Machine
end

section
namespace Sys2Proof

/-- Settles O57: a step asserts the reset values, answers a BITAT on the wires alone, starts a call afresh, or runs a micro-step,
and each of the four keeps the invariant. -/
theorem stepKeepsInvariant : Obligations.StepKeepsInvariant :=
  fun _ _ h hs => Machine.step_keeps_inv h hs

end Sys2Proof
end

section
/-! SUPPORT. The moves of the host, progress, and what holds of every reachable state. -/

namespace Sys2Proof.Machine

/-- The invariant carries over to a state with the same registers and a canonical capture in which reset is not newly
asserted. -/
theorem State.Inv.of_regs_eq {st t : State} (h : st.Inv) (hc : Memory.wf t.cap = true) (hrst : t.rst = true → st.rst = true)
    (hr : t.regs = st.regs) : t.Inv where
  cap_wf := hc
  held h1 := hr.trans (h.held (hrst h1))
  range := hr ▸ h.range
  stage := hr ▸ h.stage

/-- What a move of the host can do, whole: a write of the capture in a stage that is not busy, an input driven, reset asserted
with every register at its reset value, or reset released (rules R21, R70, R260). -/
theorem hostMove_next_cases {mv : HostMove} {st t : State} (h : hostMove mv st = .next t) :
    (∃ a v, mv = .writeByte a v ∧ st.busy = false ∧ t = { st with cap := Memory.write st.cap a.toNat v }) ∨
    (∃ n, mv = .setReadBytes n ∧ t = { st with readBytes := n }) ∨
    (∃ level, mv = .setStart level ∧ t = { st with start := level }) ∨
    (mv = .setReset true ∧ t = { st with rst := true, regs := Regs.reset }) ∨
    (mv = .setReset false ∧ t = { st with rst := false }) := by
  cases mv with
  | writeByte a v =>
    cases hb : st.busy with
    | true => simp [hostMove, hb] at h
    | false => exact .inl ⟨a, v, rfl, rfl, by simpa [hostMove, hb] using h.symm⟩
  | setReadBytes n =>
    cases h
    exact .inr (.inl ⟨n, rfl, rfl⟩)
  | setStart level =>
    cases h
    exact .inr (.inr (.inl ⟨level, rfl, rfl⟩))
  | setReset level =>
    cases level <;> cases h
    · exact .inr (.inr (.inr (.inr ⟨rfl, rfl⟩)))
    · exact .inr (.inr (.inr (.inl ⟨rfl, rfl⟩)))

/-- Every move of the host keeps the invariant. -/
theorem hostMove_keeps_inv {mv : HostMove} {st t : State} (h : st.Inv) (hm : hostMove mv st = .next t) : t.Inv := by
  obtain ⟨a, v, -, -, rfl⟩ | ⟨n, -, rfl⟩ | ⟨level, -, rfl⟩ | ⟨-, rfl⟩ | ⟨-, rfl⟩ := hostMove_next_cases hm
  · exact h.of_regs_eq (Memory.wfFrom_write h.cap_wf (Nat.zero_le _) a.isLt) id rfl
  · exact h.of_regs_eq h.cap_wf id rfl
  · exact h.of_regs_eq h.cap_wf id rfl
  · exact State.inv_of_regs_reset h.cap_wf rfl
  · exact h.of_regs_eq h.cap_wf (fun h1 => absurd h1 Bool.false_ne_true) rfl

/-- No move of the host touches the BITAT wires. -/
theorem hostMove_bitat {mv : HostMove} {st t : State} (hm : hostMove mv st = .next t) : t.bitat = st.bitat := by
  obtain ⟨a, v, -, -, rfl⟩ | ⟨n, -, rfl⟩ | ⟨level, -, rfl⟩ | ⟨-, rfl⟩ | ⟨-, rfl⟩ := hostMove_next_cases hm <;> rfl

/-- No move of the host but asserting reset touches a register (rule R22). -/
theorem hostMove_regs {mv : HostMove} {st t : State} (hne : mv ≠ .setReset true) (hm : hostMove mv st = .next t) :
    t.regs = st.regs := by
  obtain ⟨a, v, -, -, rfl⟩ | ⟨n, -, rfl⟩ | ⟨level, -, rfl⟩ | ⟨hmv, -⟩ | ⟨-, rfl⟩ := hostMove_next_cases hm
  · rfl
  · rfl
  · rfl
  · exact absurd hmv hne
  · rfl

/-- The command in a stage that is not busy is the start step (rule R209). -/
theorem exec_decode_of_not_busy {n : BitVec 8} {st : State} (h : st.busy = false) :
    exec (.decode n) st = .next (st.withRegs (Regs.startCall n)) := by
  simp [exec, execDecode, h]

/-- Where the command is sampled the core is not busy (rule R209). -/
theorem State.not_busy_of_sampled {st : State} (h : st.sampled = true) : st.busy = false := by
  simp only [State.sampled, Bool.and_eq_true, Bool.not_eq_true'] at h
  exact h.1.2

/-- The whole start step: the registers of `Regs.startCall`, and nothing else (rule R209). -/
theorem step_of_startsCall {st : State} (h : st.startsCall = true) :
    step st = .next (st.withRegs (Regs.startCall st.readBytes)) := by
  simp only [State.startsCall, Bool.and_eq_true, Bool.not_eq_true'] at h
  obtain ⟨⟨hrst, hreq⟩, hs⟩ := h
  rw [step_of_sampled hrst hreq hs, exec_decode_of_not_busy (State.not_busy_of_sampled hs)]

/-- Under the invariant, with no BITAT pending, the step answers: reset, the start step and the micro-step of the listed pair
are all there is (rules R92 (d), R245). -/
theorem State.Inv.safe {st : State} (h : st.Inv) (hreq : st.noRequest = true) : st.Safe := by
  unfold State.Safe
  cases hrst : st.rst with
  | true => exact ⟨_, step_of_rst hrst⟩
  | false =>
    cases hs : st.sampled with
    | true => exact ⟨_, step_of_startsCall (by simp [State.startsCall, hrst, hreq, hs])⟩
    | false =>
      have hl := listed_of_inStage h.stage
      obtain ⟨r, hr⟩ := microStep_total st.cap h.range.blen_le
      rw [step_of_stage hrst hreq hs hl, exec_operation hl, hr]
      exact ⟨_, rfl⟩

/-- No step presents a BITAT request. -/
theorem step_keeps_noRequest {st t : State} (h : st.noRequest = true) (hs : step st = .next t) : t.noRequest = true := by
  cases hrst : st.rst with
  | true =>
    rw [step_of_rst hrst] at hs
    cases hs
    exact h
  | false =>
    obtain ⟨i, b, -, -, rfl⟩ | ⟨-, -, -, rfl⟩ | ⟨-, -, -, r, -, rfl⟩ := step_next_cases hrst hs
    · rfl
    · exact h
    · exact h

/-- No move of the host presents a BITAT request. -/
theorem hostMove_keeps_noRequest {mv : HostMove} {st t : State} (h : st.noRequest = true) (hm : hostMove mv st = .next t) :
    t.noRequest = true := by
  unfold State.noRequest at h ⊢
  rwa [hostMove_bitat hm]

/-- The state after reset meets the invariant. -/
theorem reset_inv : State.reset.Inv := State.inv_of_regs_reset rfl rfl

/-- What holds at reset and is kept by both agents holds of every reachable state: the invariant, and that no BITAT is pending. -/
theorem Reachable.inv_and_noRequest {st : State} (h : Reachable st) : st.Inv ∧ st.noRequest = true := by
  induction h with
  | reset => exact ⟨reset_inv, rfl⟩
  | step _ hs ih => exact ⟨step_keeps_inv ih.1 hs, step_keeps_noRequest ih.2 hs⟩
  | host mv _ hm ih => exact ⟨hostMove_keeps_inv ih.1 hm, hostMove_keeps_noRequest ih.2 hm⟩

/-- An accepted preamble ends at bit 32 or later: eight quads lie before its end (rule R130). -/
theorem Regs.PreambleDone.preEnd_ge {r : Regs} (h : r.PreambleDone) : 32 ≤ r.preEnd.toNat := by
  have := h.quality_ge
  have := h.preEnd_eq
  omega

end Sys2Proof.Machine
end

section
namespace Sys2Proof

open Machine

/-- Settles O14: the start step leaves `Regs.startCall` of the count, which reads no register. -/
theorem startStepForgetsRegisters : Obligations.StartStepForgetsRegisters := by
  unfold Obligations.StartStepForgetsRegisters
  intro st st' h h' hn
  refine ⟨Regs.startCall st.readBytes, step_of_startsCall h, ?_⟩
  rw [hn]
  exact step_of_startsCall h'

/-- Settles O56: at reset the capture lists nothing and every register holds its reset value. -/
theorem resetMeetsInvariant : Obligations.ResetMeetsInvariant := reset_inv

/-- Settles O58: a write keeps the capture canonical, asserting reset writes the reset values, and no other move touches a
register. -/
theorem hostMovesKeepInvariant : Obligations.HostMovesKeepInvariant :=
  fun _ _ _ h hm => hostMove_keeps_inv h hm

/-- Settles O59: the invariant lists the pair and bounds `blen`, so the micro-step that is selected answers. -/
theorem invariantMakesStepsSafe : Obligations.InvariantMakesStepsSafe :=
  fun _ h hreq => h.safe hreq

/-- Settles O60: the invariant holds of every reachable state, and Done's part of it is the statement about a finished call. -/
theorem reachableStatesAreSafe : Obligations.ReachableStatesAreSafe := by
  unfold Obligations.ReachableStatesAreSafe
  intro st h
  obtain ⟨hinv, hreq⟩ := h.inv_and_noRequest
  refine ⟨hinv.safe hreq, fun hg => ?_⟩
  have hstage := hinv.stage
  simp only [Regs.InStage, hg] at hstage
  obtain ⟨hdemod, hsum⟩ := hstage.1
  exact ⟨hsum, hdemod.sync.preamble.quality_ge, hdemod.sync.preamble.preEnd_ge, hdemod.sync.syncEnd_ge, hdemod.demodEnd_ge,
    hdemod.demodEnd_le⟩

/-- Settles O54: each move with its whole next state, and by cases on the move that the registers and the wires stay. -/
theorem hostMovesKeepRegisters : Obligations.HostMovesKeepRegisters := by
  unfold Obligations.HostMovesKeepRegisters
  refine ⟨fun mv st t hne hm => ⟨hostMove_regs hne hm, hostMove_bitat hm⟩, fun a v st hb => ?_, fun a v st hb => ?_,
    fun _ _ => rfl, fun _ _ => rfl, fun _ => rfl, fun _ => rfl⟩
  · exact if_pos hb
  · exact if_neg (by simp [hb])

end Sys2Proof
end

section
/-! SUPPORT. The frame of each stage's operation (rule R23): which registers its micro-steps write. -/

namespace Sys2Proof.Machine

/-- `r` with the registers that PREAMBLE writes taken from `r'` (rules R22, R23). -/
def Regs.withPreambleOf (r r' : Regs) : Regs :=
  { r with
    stage := r'.stage, sub := r'.sub, err := r'.err, s := r'.s, pos := r'.pos, q := r'.q, preEnd := r'.preEnd
    quality := r'.quality }

/-- `r` with the registers that SYNC writes taken from `r'`. -/
def Regs.withSyncOf (r r' : Regs) : Regs :=
  { r with stage := r'.stage, sub := r'.sub, err := r'.err, pos := r'.pos, acc := r'.acc, syncEnd := r'.syncEnd }

/-- `r` with the registers that DEMOD writes taken from `r'`. -/
def Regs.withDemodOf (r r' : Regs) : Regs :=
  { r with
    stage := r'.stage, sub := r'.sub, err := r'.err, pos := r'.pos, zeros := r'.zeros, ones := r'.ones, nbits := r'.nbits
    packet := r'.packet, demodEnd := r'.demodEnd }

/-- `r` with the registers that CHECKSUM writes taken from `r'`. -/
def Regs.withChecksumOf (r r' : Regs) : Regs :=
  { r with
    stage := r'.stage, sub := r'.sub, err := r'.err, sum := r'.sum, k := r'.k, csumExpected := r'.csumExpected
    csumActual := r'.csumActual }

/-- `r` with the registers that VALUE writes taken from `r'`. -/
def Regs.withValueOf (r r' : Regs) : Regs := { r with stage := r'.stage, sub := r'.sub, powerKw := r'.powerKw }

theorem pCand_frame (r : Regs) : pCand r = r.withPreambleOf (pCand r) := by
  unfold pCand
  split <;> rfl

theorem pWalk_frame {m : List Host.Cell} {r r' : Regs} (h : pWalk m r = .ok r') : r' = r.withPreambleOf r' := by
  unfold pWalk at h
  split at h
  · split at h
    · split at h <;> cases h <;> rfl
    · cases h
  · cases h
    rfl

theorem pJudge_frame (r : Regs) : pJudge r = r.withPreambleOf (pJudge r) := by
  unfold pJudge
  split <;> rfl

theorem sCheck_frame (r : Regs) : sCheck r = r.withSyncOf (sCheck r) := by
  unfold sCheck
  split <;> rfl

theorem sShift_frame {m : List Host.Cell} {r r' : Regs} (h : sShift m r = .ok r') : r' = r.withSyncOf r' := by
  unfold sShift at h
  split at h
  · split at h
    · dsimp only at h
      split at h <;> cases h <;> rfl
    · cases h
  · cases h
    rfl

theorem mSymbol_frame (r : Regs) : mSymbol r = r.withDemodOf (mSymbol r) := by
  unfold mSymbol
  split
  · rfl
  · split <;> rfl

theorem mZeros_frame {m : List Host.Cell} {r r' : Regs} (h : mZeros m r = .ok r') : r' = r.withDemodOf r' := by
  unfold mZeros at h
  split at h
  · split at h
    · split at h <;> cases h <;> rfl
    · cases h
  · cases h
    rfl

theorem mOnes_frame {m : List Host.Cell} {r r' : Regs} (h : mOnes m r = .ok r') : r' = r.withDemodOf r' := by
  unfold mOnes at h
  split at h
  · split at h
    · split at h <;> cases h <;> rfl
    · cases h
  · cases h
    rfl

theorem mJudge_frame (r : Regs) : mJudge r = r.withDemodOf (mJudge r) := by
  unfold mJudge
  split <;> rfl

theorem kAdd_frame (r : Regs) : kAdd r = r.withChecksumOf (kAdd r) := by
  unfold kAdd
  split <;> rfl

theorem kCmp_frame (r : Regs) : kCmp r = r.withChecksumOf (kCmp r) := by
  unfold kCmp
  split <;> rfl

section Exec
variable {sub : BitVec 3} {st t : State}

/-- A completed micro-step with a frame leaves a state with that frame. -/
theorem State.finish_frame {x : Except Fault Regs} {frame : Regs → Regs → Regs}
    (hx : ∀ r, x = .ok r → r = frame st.regs r) (h : st.finish x = .next t) : t = st.withRegs (frame st.regs t.regs) := by
  obtain ⟨r, hr, rfl⟩ := State.finish_eq_next.mp h
  exact congrArg st.withRegs (hx r hr)

/-- The same for a micro-step that always answers. -/
theorem State.finish_ok_frame {r : Regs} {frame : Regs → Regs → Regs} (hr : r = frame st.regs r)
    (h : st.finish (.ok r) = .next t) : t = st.withRegs (frame st.regs t.regs) :=
  State.finish_frame (fun r' hr' => by cases hr'; exact hr) h

theorem execPreamble_frame (h : execPreamble sub st = .next t) : t = st.withRegs (st.regs.withPreambleOf t.regs) := by
  unfold execPreamble at h
  split at h
  · exact State.finish_ok_frame (pCand_frame _) h
  · exact State.finish_frame (fun _ => pWalk_frame) h
  · exact State.finish_ok_frame (pJudge_frame _) h
  · cases h

theorem execSync_frame (h : execSync sub st = .next t) : t = st.withRegs (st.regs.withSyncOf t.regs) := by
  unfold execSync at h
  split at h
  · exact State.finish_ok_frame (sCheck_frame _) h
  · exact State.finish_frame (fun _ => sShift_frame) h
  · cases h

theorem execDemod_frame (h : execDemod sub st = .next t) : t = st.withRegs (st.regs.withDemodOf t.regs) := by
  unfold execDemod at h
  split at h
  · exact State.finish_ok_frame (frame := Regs.withDemodOf) rfl h
  · exact State.finish_ok_frame (mSymbol_frame _) h
  · exact State.finish_frame (fun _ => mZeros_frame) h
  · exact State.finish_frame (fun _ => mOnes_frame) h
  · exact State.finish_ok_frame (mJudge_frame _) h
  · cases h

theorem execChecksum_frame (h : execChecksum sub st = .next t) : t = st.withRegs (st.regs.withChecksumOf t.regs) := by
  unfold execChecksum at h
  split at h
  · exact State.finish_ok_frame (frame := Regs.withChecksumOf) rfl h
  · exact State.finish_ok_frame (kAdd_frame _) h
  · exact State.finish_ok_frame (kCmp_frame _) h
  · cases h

theorem execValue_frame (h : execValue sub st = .next t) : t = st.withRegs (st.regs.withValueOf t.regs) := by
  unfold execValue at h
  split at h
  · exact State.finish_ok_frame (frame := Regs.withValueOf) rfl h
  · cases h

end Exec

end Sys2Proof.Machine
end

section
namespace Sys2Proof

open Machine

/-- Settles O8: every micro-step of a stage has its stage's frame, so the operation has it in each sub-state. -/
theorem stagesWriteOnlyTheirRegisters : Obligations.StagesWriteOnlyTheirRegisters :=
  fun _ _ _ => ⟨execPreamble_frame, execSync_frame, execDemod_frame, execChecksum_frame, execValue_frame⟩

end Sys2Proof
end

section
/-! SUPPORT. The call as a function: what a successful stage bounds, and what a successful call is made of. -/

namespace Sys2Proof.Machine

/-- What PREAMBLE's function finds: at least eight and at most 256 quads, and an end within the valid bits (rule R130). -/
theorem preamble_found_bounds {m : List Host.Cell} {blen preEnd quality : Nat} (hb : blen ≤ 1024)
    (h : Functional.preamble m blen = some (preEnd, quality)) :
    8 ≤ quality ∧ quality ≤ 256 ∧ 4 * quality ≤ preEnd ∧ preEnd ≤ blen := by
  have hspec := preambleFrom_spec (m := m) (blen := blen) (fuel := Config.maxBits) (s := 0) (by simp only [Config.maxBits]; omega)
  unfold Functional.preamble at h
  rw [h] at hspec
  obtain ⟨s0, -, hs, hw, hq, -⟩ := hspec
  obtain ⟨hend, -, hle, -, -⟩ := walk_spec (by omega) (by omega) hw
  dsimp only at hend hle hq
  omega

/-- What SYNC's function finds: an end sixteen bits or more past `p` and within the valid bits (rule R147). -/
theorem sync_found_bounds {m : List Host.Cell} {blen p syncEnd : Nat} (hb : blen ≤ 1024)
    (h : Functional.sync m blen p = some syncEnd) : p + 16 ≤ syncEnd ∧ syncEnd ≤ blen := by
  unfold Functional.sync at h
  split at h
  · cases h
  · have hspec := syncFrom_spec (m := m) (blen := blen) (fuel := Config.maxBits) (j := p) (by simp only [Config.maxBits]; omega)
    rw [h] at hspec
    obtain ⟨hge, hle, -, -⟩ := hspec
    exact ⟨hge, hle⟩

/-- What DEMOD's function finds: an end 128 bits or more past `p` and within the valid bits (rule R167). -/
theorem demod_found_bounds {m : List Host.Cell} {blen p demodEnd : Nat} {packet : Vector Byte 8} (hb : blen ≤ 1024)
    (hp : p ≤ blen) (h : Functional.demod m blen p = some (packet, demodEnd)) : p + 128 ≤ demodEnd ∧ demodEnd ≤ blen := by
  obtain ⟨hge, hle, -⟩ := demodFrom_spec hb hp h
  exact ⟨hge, hle⟩

/-- CHECKSUM's function passes a packet exactly when its recomputed sum is its byte 7 (rule R175). -/
theorem checksum_eq_none {p : Vector Byte 8} : Functional.checksum p = none ↔ Functional.sumOf p = packetByte p 7 := by
  simp [Functional.checksum]

/-- A successful call, taken apart: the count passes the entry check and each stage succeeds in turn (rule R205). -/
theorem decode_eq_ok {kNeg1 n quality : Nat} {m : List Host.Cell} {powerKw : F64} {packet : Vector Byte 8}
    (h : Functional.decode kNeg1 n m = .ok powerKw packet quality) :
    n ≤ 128 ∧ ∃ preEnd syncEnd demodEnd, Functional.preamble m (8 * n) = some (preEnd, quality) ∧
      Functional.sync m (8 * n) preEnd = some syncEnd ∧ Functional.demod m (8 * n) syncEnd = some (packet, demodEnd) ∧
      Functional.checksum packet = none ∧ powerKw = Functional.value kNeg1 packet := by
  unfold Functional.decode at h
  split at h
  · cases h
  · rename_i hn
    simp only [Config.capacity] at hn
    split at h
    · cases h
    · rename_i preEnd quality' hpre
      split at h
      · cases h
      · rename_i syncEnd hsync
        split at h
        · cases h
        · rename_i packet' demodEnd hdemod
          split at h
          · cases h
          · rename_i hsum
            cases h
            exact ⟨by omega, preEnd, syncEnd, demodEnd, hpre, hsync, hdemod, hsum, rfl⟩

end Sys2Proof.Machine
end

section
namespace Sys2Proof

open Machine

/-- Settles O39: preamble, marker and symbols take 32 + 16 + 128 bits, which is 22 bytes. -/
theorem successProperties : Obligations.SuccessProperties := by
  unfold Obligations.SuccessProperties
  intro kNeg1 n m powerKw packet quality h
  obtain ⟨hn, preEnd, syncEnd, demodEnd, hpre, hsync, hdemod, hsum, hval⟩ := decode_eq_ok h
  have hb : 8 * n ≤ 1024 := by omega
  obtain ⟨hq8, hq256, hpreEnd, -⟩ := preamble_found_bounds hb hpre
  obtain ⟨hsyncEnd, hsyncLe⟩ := sync_found_bounds hb hsync
  obtain ⟨hdemodEnd, hdemodLe⟩ := demod_found_bounds hb hsyncLe hdemod
  exact ⟨by omega, hn, hq8, hq256, checksum_eq_none.mp hsum, hval⟩

end Sys2Proof
end

section
/-! SUPPORT. The output ports: when each status output is 1, and what a gated port shows (rules R28, R29, R32). -/

namespace Sys2Proof.Machine

@[simp] theorem gate_true {w : Nat} (v : BitVec w) : gate true v = v := rfl

@[simp] theorem gate_false {w : Nat} (v : BitVec w) : gate false v = 0#w := rfl

theorem State.busy_iff (st : State) : st.busy = true ↔ st.regs.stage ∈
    [Stage.start, Stage.preambleFound, Stage.syncFound, Stage.symbolsDemodulated, Stage.checksumVerified] := by
  unfold State.busy
  cases st.regs.stage <;> decide

theorem State.done_iff (st : State) : st.done = true ↔ st.regs.stage ∈ [Stage.done, Stage.failed] := by
  unfold State.done
  cases st.regs.stage <;> decide

theorem State.ok_iff (st : State) : st.ok = true ↔ st.regs.stage = .done := by
  unfold State.ok
  cases st.regs.stage <;> decide

theorem State.mismatch_iff (st : State) :
    st.mismatch = true ↔ st.regs.stage = .failed ∧ st.regs.err = some .checksumMismatch := by
  simp [State.mismatch]

section Gated
variable {st : State}

/-- While a call has succeeded each result port shows its register. -/
theorem State.resultPorts_of_ok (h : st.ok = true) :
    st.powerKwPort = st.regs.powerKw ∧ st.packetPort = packetWord st.regs.packet ∧ st.qualityPort = st.regs.quality ∧
      st.preEndPort = st.regs.preEnd ∧ st.syncEndPort = st.regs.syncEnd ∧ st.demodEndPort = st.regs.demodEnd := by
  simp [State.powerKwPort, State.packetPort, State.qualityPort, State.preEndPort, State.syncEndPort, State.demodEndPort, h]

/-- While no call has succeeded each result port is 0. -/
theorem State.resultPorts_of_not_ok (h : st.ok = false) :
    st.powerKwPort = 0#64 ∧ st.packetPort = 0#64 ∧ st.qualityPort = 0#9 ∧ st.preEndPort = 0#11 ∧ st.syncEndPort = 0#11 ∧
      st.demodEndPort = 0#11 := by
  simp [State.powerKwPort, State.packetPort, State.qualityPort, State.preEndPort, State.syncEndPort, State.demodEndPort, h]

/-- In a call that has failed the `err` port shows the code of `err` (rule R89). -/
theorem State.errPort_of_failed (hd : st.done = true) (ho : st.ok = false) : st.errPort = errCode st.regs.err := by
  simp [State.errPort, hd, ho]

/-- Outside a call that has failed the `err` port is 0. -/
theorem State.errPort_of_not_failed (h : st.done = false ∨ st.ok = true) : st.errPort = 0#3 := by
  rcases h with h | h <;> simp [State.errPort, h]

/-- After a checksum failure the two payload ports show their registers. -/
theorem State.csumPorts_of_mismatch (h : st.mismatch = true) :
    st.csumExpectedPort = st.regs.csumExpected ∧ st.csumActualPort = st.regs.csumActual := by
  simp [State.csumExpectedPort, State.csumActualPort, h]

/-- Otherwise the two payload ports are 0. -/
theorem State.csumPorts_of_not_mismatch (h : st.mismatch = false) :
    st.csumExpectedPort = 0#8 ∧ st.csumActualPort = 0#8 := by
  simp [State.csumExpectedPort, State.csumActualPort, h]

end Gated

end Sys2Proof.Machine
end

section
namespace Sys2Proof

open Machine

/-- Settles O52: each port is its register or 0 by its gate, and the `err` port's code is read off `errCode`. -/
theorem portsAreGated : Obligations.PortsAreGated := by
  unfold Obligations.PortsAreGated
  intro st
  refine ⟨st.busy_iff, st.done_iff, st.ok_iff, State.resultPorts_of_ok, State.resultPorts_of_not_ok, fun hd ho => ?_,
    State.errPort_of_not_failed, fun hg he => State.csumPorts_of_mismatch (st.mismatch_iff.mpr ⟨hg, he⟩), fun h => ?_⟩
  · rw [State.errPort_of_failed hd ho]
    refine ⟨?_, ?_, ?_, ?_, ?_, ?_⟩ <;> (intro he; rw [he]; rfl)
  · refine State.csumPorts_of_not_mismatch (Bool.eq_false_iff.mpr fun hm => ?_)
    obtain ⟨hg, he⟩ := st.mismatch_iff.mp hm
    exact h.elim (fun hn => hn hg) fun hn => hn he

/-- Settles O53: the port is the eight bytes side by side; with the bytes after byte `k` stripped, byte `k` is the low one, and
byte 0 is alone. -/
theorem packetPortLayout : Obligations.PacketPortLayout := by
  unfold Obligations.PacketPortLayout packetWord
  intro p k hk
  interval_cases k <;> repeat rw [BitVec.extractLsb'_append_eq_of_le (by decide)]
  · exact BitVec.extractLsb'_eq_self
  all_goals exact BitVec.extractLsb'_append_eq_right

/-- Settles O50: the registers are those of the table by definition, and in Idle every port is gated off. -/
theorem resetValues : Obligations.ResetValues := by
  unfold Obligations.ResetValues
  have hok : State.reset.ok = false := rfl
  have hdone : State.reset.done = false := rfl
  obtain ⟨hpower, hpacket, hquality, hpre, hsync, hdemod⟩ := State.resultPorts_of_not_ok hok
  obtain ⟨hexp, hact⟩ := State.csumPorts_of_not_mismatch (st := State.reset) rfl
  have hbytes : ∀ i, i < 8 → packetByte Regs.reset.packet i = 0x00#8 := by decide
  exact ⟨rfl, rfl, rfl, rfl, rfl, rfl, rfl, rfl, rfl, rfl, rfl, rfl, rfl, rfl, rfl, rfl, rfl, rfl, rfl, rfl, hbytes, rfl, rfl,
    rfl, hdone, hok, State.errPort_of_not_failed (.inl hdone), hpower, hpacket, hquality, hexp, hact, hpre, hsync, hdemod⟩

end Sys2Proof
end

section
/-! SUPPORT. The frame of every operation and of every step (rules R22, R63): only registers and the model's own wires change. -/

namespace Sys2Proof.Machine

/-- A state reached by writing registers alone differs from the state before in nothing but registers and wires. -/
theorem State.eq_frame_of_withRegs {st t : State} {r : Regs} (h : t = st.withRegs r) :
    t = { st with regs := t.regs, bitat := t.bitat } := by
  subst h
  rfl

/-- Where only registers and wires change, the capture and the inputs, which are the host's, stay (rules R21, R29, R63). -/
theorem State.hostSide_eq_of_frame {st t : State} {r : Regs} {w : BitatWires} (h : t = { st with regs := r, bitat := w }) :
    t.cap = st.cap ∧ t.rst = st.rst ∧ t.start = st.start ∧ t.readBytes = st.readBytes := by
  subst h
  exact ⟨rfl, rfl, rfl, rfl⟩

/-- A holding operation that answers, answers the state it was given (rule R212). -/
theorem hold_eq_next {sub : BitVec 3} {st t : State} (h : hold sub st = .next t) : t = st := by
  unfold hold at h
  split at h
  · cases h
    rfl
  · cases h

theorem execDecode_frame {n : BitVec 8} {st t : State} (h : execDecode n st = .next t) : t = st.withRegs t.regs := by
  unfold execDecode at h
  split at h <;> cases h <;> rfl

theorem execBitat_frame {a : BitVec 7} {j : BitVec 3} {st t : State} (h : execBitat a j st = .next t) :
    t = { st with bitat := t.bitat } := by
  unfold execBitat at h
  split at h
  · cases h
    rfl
  · cases h

/-- No operation writes anything but registers and the model's own wires. -/
theorem exec_frame {i : Instr} {st t : State} (h : exec i st = .next t) :
    t = { st with regs := t.regs, bitat := t.bitat } := by
  cases i with
  | decode n => exact State.eq_frame_of_withRegs (execDecode_frame h)
  | bitat a j => rw [execBitat_frame h]
  | holdIdle sub | holdDone sub | holdFailed sub => rw [hold_eq_next h]
  | preamble sub => exact State.eq_frame_of_withRegs (execPreamble_frame h)
  | sync sub => exact State.eq_frame_of_withRegs (execSync_frame h)
  | demod sub => exact State.eq_frame_of_withRegs (execDemod_frame h)
  | checksum sub => exact State.eq_frame_of_withRegs (execChecksum_frame h)
  | value sub => exact State.eq_frame_of_withRegs (execValue_frame h)

/-- No step writes anything but registers and the model's own wires. -/
theorem step_frame {st t : State} (h : step st = .next t) : t = { st with regs := t.regs, bitat := t.bitat } := by
  unfold step at h
  split at h
  · cases h
    rfl
  · exact exec_frame h
  · cases h

end Sys2Proof.Machine
end

section
/-! SUPPORT. A bit of the capture, and which bits the functions of the call read: DEMOD none past the bit that ends its last run,
the call none past its count of bytes. -/

namespace Sys2Proof.Machine

/-- The selected bit of a byte, `j` counted from the most significant (rule R8). -/
theorem selectBit_eq_ofBool (byte : Byte) (j : Nat) : selectBit byte j = BitVec.ofBool (byte.getLsbD (7 - j)) := by
  apply BitVec.eq_of_getLsbD_eq
  intro k hk
  have hk0 : k = 0 := by omega
  subst hk0
  simp [selectBit]

/-- A run is decided by its own bits and the bit that ends it. -/
theorem runLength_congr_of_run {m m' : List Host.Cell} {blen fuel pos : Nat} {v : Bit} (hp : pos ≤ blen)
    (hf : blen ≤ pos + fuel)
    (h : ∀ i, pos ≤ i → i ≤ pos + Functional.runLength m blen v fuel pos → i < blen →
      captureBit m i = captureBit m' i) :
    Functional.runLength m' blen v fuel pos = Functional.runLength m blen v fuel pos := by
  obtain ⟨hle, hrun, hend⟩ := runLength_spec (m := m) (v := v) hp hf
  refine runLength_unique hle hf (fun i hi => ?_) ?_
  · rw [← h (pos + i) (by omega) (by omega) (by omega)]
    exact hrun i hi
  · rcases hle.eq_or_lt with heq | hlt
    · exact .inl heq
    · rw [← h _ (by omega) le_rfl hlt]
      exact hend

/-- One symbol of the symbol loop: the loop succeeds exactly when both runs are there and the rest of it succeeds (rules R155 to
R159). -/
theorem demodFrom_succ_eq_some {m : List Host.Cell} {blen left pos : Nat} {pkt : Vector Byte 8} {w : Vector Byte 8 × Nat} :
    Functional.demodFrom m blen (left + 1) pkt pos = some w ↔
      pos < blen ∧ ∃ z o, Functional.runLength m blen 0#1 Config.maxBits pos = z ∧
        Functional.runLength m blen 1#1 Config.maxBits (pos + z) = o ∧ 0 < z ∧ 0 < o ∧
        Functional.demodFrom m blen left (packBit pkt (Config.pktBits - (left + 1)) (symbolBit z o)) (pos + z + o) = some w := by
  simp only [Functional.demodFrom, Nat.pos_iff_ne_zero]
  split
  · rename_i hlt
    split
    · rename_i hzo
      simp only [reduceCtorEq, false_iff]
      rintro ⟨-, z, o, rfl, rfl, hz, ho, -⟩
      exact hzo.elim hz ho
    · rename_i hzo
      obtain ⟨hz, ho⟩ := not_or.mp hzo
      constructor
      · exact fun h => ⟨hlt, _, _, rfl, rfl, hz, ho, h⟩
      · rintro ⟨-, z, o, rfl, rfl, -, -, h⟩
        exact h
  · rename_i hlt
    simp [hlt]

/-- A symbol loop that succeeds is decided by the bits from its position to its end, that bit included. -/
theorem demodFrom_congr_of_some {m m' : List Host.Cell} {blen left pos e : Nat} {pkt pkt' : Vector Byte 8} (hb : blen ≤ 1024)
    (h : Functional.demodFrom m blen left pkt pos = some (pkt', e))
    (hm : ∀ i, pos ≤ i → i ≤ e → i < blen → captureBit m i = captureBit m' i) :
    Functional.demodFrom m' blen left pkt pos = some (pkt', e) := by
  induction left generalizing pkt pos with
  | zero => exact h
  | succ left ih =>
    have hfuel : blen ≤ Config.maxBits := hb
    obtain ⟨hlt, z, o, hz, ho, hz0, ho0, hrest⟩ := demodFrom_succ_eq_some.mp h
    obtain ⟨hzle, -⟩ := runLength_spec (m := m) (v := 0#1) (fuel := Config.maxBits) hlt.le (by omega)
    rw [hz] at hzle
    obtain ⟨hole, -⟩ := runLength_spec (m := m) (v := 1#1) (fuel := Config.maxBits) hzle (by omega)
    rw [ho] at hole
    obtain ⟨hend, -⟩ := demodFrom_spec hb hole hrest
    refine demodFrom_succ_eq_some.mpr ⟨hlt, z, o, ?_, ?_, hz0, ho0, ih hrest fun i hi => hm i (by omega)⟩
    · rw [← hz]
      exact runLength_congr_of_run hlt.le (by omega) fun i hi hi' => hm i hi (by omega)
    · rw [← ho]
      exact runLength_congr_of_run hzle (by omega) fun i hi hi' => hm i (by omega) (by omega)

/-- Captures that agree on the bytes below a count agree on the valid bits. -/
theorem captureBit_congr_of_bytes {m m' : List Host.Cell} {n : Nat} (h : ∀ a, a < n → Memory.read m a = Memory.read m' a)
    (i : Nat) (hi : i < 8 * n) : captureBit m i = captureBit m' i :=
  captureBit_congr (h _ (by omega))

/-- PREAMBLE's function depends on the valid bits alone. -/
theorem preamble_congr {m m' : List Host.Cell} {blen : Nat} (h : ∀ i, i < blen → captureBit m i = captureBit m' i) :
    Functional.preamble m blen = Functional.preamble m' blen :=
  preambleFrom_congr h

/-- SYNC's function depends on the valid bits alone. -/
theorem sync_congr {m m' : List Host.Cell} {blen : Nat} (h : ∀ i, i < blen → captureBit m i = captureBit m' i) (p : Nat) :
    Functional.sync m blen p = Functional.sync m' blen p := by
  simp only [Functional.sync, syncFrom_congr h]

/-- DEMOD's function depends on the valid bits alone. -/
theorem demod_congr {m m' : List Host.Cell} {blen : Nat} (h : ∀ i, i < blen → captureBit m i = captureBit m' i) (p : Nat) :
    Functional.demod m blen p = Functional.demod m' blen p :=
  demodFrom_congr_valid h

end Sys2Proof.Machine
end

section
namespace Sys2Proof

open Machine

/-- Settles O7: an operation and a step each write registers and the model's wires alone, so the capture and the inputs stay. -/
theorem coreNeverWritesCapture : Obligations.CoreNeverWritesCapture := by
  unfold Obligations.CoreNeverWritesCapture
  exact ⟨fun _ _ _ h => State.hostSide_eq_of_frame (exec_frame h), fun _ _ h => State.hostSide_eq_of_frame (step_frame h)⟩

/-- Settles O35: each run is decided by its bits and the one that ends it, and none of them lies past the end of the last run. -/
theorem demodIgnoresTrailingBits : Obligations.DemodIgnoresTrailingBits :=
  fun _ _ _ _ _ _ hb h hm => demodFrom_congr_of_some hb h hm

/-- Settles O38: the three stages that read the capture depend on the bits below `8 n` alone, and the other two read only the
packet. -/
theorem outcomeIgnoresBytesPastCount : Obligations.OutcomeIgnoresBytesPastCount := by
  unfold Obligations.OutcomeIgnoresBytesPastCount
  intro kNeg1 n m m' h
  have hbits := captureBit_congr_of_bytes h
  simp only [Functional.decode, preamble_congr hbits, sync_congr hbits, demod_congr hbits]

/-- Settles O55: outside a call the move is `Memory.write`, which reads back and keeps the canonical form. -/
theorem hostWriteReadsBack : Obligations.HostWriteReadsBack := by
  unfold Obligations.HostWriteReadsBack
  intro a v st hb hwf
  exact ⟨Memory.write st.cap a.toNat v, if_neg (by simp [hb]), Memory.wfFrom_write hwf (Nat.zero_le _) a.isLt,
    fun _ => Memory.read_write_from hwf⟩

/-- Settles O16: index `8 a + j` divides into byte `a` and bit `j` counted from the most significant. -/
theorem bitOrderMostSignificantFirst : Obligations.BitOrderMostSignificantFirst := by
  unfold Obligations.BitOrderMostSignificantFirst
  intro m a j hj
  have hbyte : (8 * a + j) / 8 = a := by omega
  have hbit : (8 * a + j) % 8 = j := by omega
  rw [captureBit, hbyte, hbit]
  exact selectBit_eq_ofBool _ _

end Sys2Proof
end

section
/-! SUPPORT. The formats as fields (rules R81, R90, R91): what an encoding is for each kind of operation, that a word is its fields
side by side, and every way a word can decode, said once as `decode_eq_ok_cases`. -/

namespace Sys2Proof

open Machine

@[simp] theorem Stage.ofCode_code (g : Stage) : Stage.ofCode g.code = g := by
  cases g <;> rfl

/-- Every code is a stage's (rule R90). -/
@[simp] theorem Stage.code_ofCode (c : BitVec 3) : (Stage.ofCode c).code = c := by
  revert c
  decide

/-- The encoding of a stage's operation is the STAGE word of the pair. -/
theorem encode_operation (g : Stage) (sub : BitVec 3) :
    encode (g.operation sub) = (.stage, (encodeStage g sub).toNat) := by
  cases g <;> rfl

/-- A word is its high and its low field side by side. -/
theorem append_fields {hi lo : Nat} (w : BitVec (hi + lo)) : w.extractLsb' lo hi ++ w.extractLsb' 0 lo = w := by
  rw [BitVec.extractLsb'_append_extractLsb'_eq_extractLsb' (Nat.zero_add lo).symm]
  exact BitVec.extractLsb'_eq_self

/-- A CALL word decodes as a command only with `start = 1`, and is then the encoding of the command (rule R92 (a)). -/
theorem decodeCall_eq_ok {w : BitVec 9} {i : Instr} (h : decodeCall w = .ok i) :
    ∃ n, w = encodeCall 1#1 n ∧ i = .decode n := by
  unfold decodeCall at h
  split at h
  · rename_i hstart
    cases h
    refine ⟨_, ?_, rfl⟩
    rw [← hstart]
    exact (append_fields (hi := 1) (lo := 8) w).symm
  · cases h

/-- A STAGE word decodes only where rule R91 lists its pair, and is then the encoding of the pair. -/
theorem decodeStage_eq_ok {w : BitVec 6} {i : Instr} (h : decodeStage w = .ok i) :
    ∃ g sub, g.lists sub = true ∧ w = encodeStage g sub ∧ i = g.operation sub := by
  unfold decodeStage at h
  dsimp only at h
  split at h
  · rename_i hlists
    cases h
    refine ⟨_, _, hlists, ?_, rfl⟩
    rw [encodeStage, Stage.code_ofCode]
    exact (append_fields (hi := 3) (lo := 3) w).symm
  · cases h

/-- A BITIDX word decodes to the BITAT whose encoding it is (rule R92 (e)). -/
theorem decodeBitIdx_eq_ok {w : BitVec 10} {i : Instr} (h : decodeBitIdx w = .ok i) :
    ∃ a j, w = encodeBitIdx a j ∧ i = .bitat a j := by
  cases h
  exact ⟨_, _, (append_fields (hi := 7) (lo := 3) w).symm, rfl⟩

/-- Every way a word of a format can decode: as a command, as the operation of a listed pair, or as a bit index, and it is the
encoding of that operation. -/
theorem decode_eq_ok_cases {f : Format} {w : Nat} {i : Instr} (h : decode f w = .ok i) :
    (∃ n, f = .call ∧ w = (encodeCall 1#1 n).toNat ∧ i = .decode n) ∨
    (∃ g sub, g.lists sub = true ∧ f = .stage ∧ w = (encodeStage g sub).toNat ∧ i = g.operation sub) ∨
    (∃ a j, f = .bitIdx ∧ w = (encodeBitIdx a j).toNat ∧ i = .bitat a j) := by
  unfold decode at h
  split at h
  · rename_i hw
    have hword : w = (BitVec.ofNat f.width w).toNat := (Nat.mod_eq_of_lt hw).symm
    cases f with
    | call =>
      obtain ⟨n, hn, rfl⟩ := decodeCall_eq_ok h
      exact .inl ⟨n, rfl, hword.trans (congrArg BitVec.toNat hn), rfl⟩
    | stage =>
      obtain ⟨g, sub, hl, hn, rfl⟩ := decodeStage_eq_ok h
      exact .inr (.inl ⟨g, sub, hl, rfl, hword.trans (congrArg BitVec.toNat hn), rfl⟩)
    | bitIdx =>
      obtain ⟨a, j, hn, rfl⟩ := decodeBitIdx_eq_ok h
      exact .inr (.inr ⟨a, j, rfl, hword.trans (congrArg BitVec.toNat hn), rfl⟩)
  · cases h

/-- The BITIDX word of two fields decodes to them. -/
theorem decode_encodeBitIdx (a : BitVec 7) (j : BitVec 3) :
    decode .bitIdx (encodeBitIdx a j).toNat = .ok (.bitat a j) := by
  rw [decode_bitIdx, encodeBitIdx, BitVec.extractLsb'_append_eq_left, BitVec.extractLsb'_append_eq_right]

/-- The encoding of a listed pair's operation decodes to it. -/
theorem decode_encode_operation {g : Stage} {sub : BitVec 3} (h : g.lists sub = true) :
    decode (encode (g.operation sub)).1 (encode (g.operation sub)).2 = .ok (g.operation sub) := by
  rw [encode_operation]
  exact (decode_encodeStage g sub).trans (if_pos h)

/-- The encoding of every well-formed operation decodes to it: in format STAGE, well-formed is listed. -/
theorem decode_encode {i : Instr} (h : i.wf = true) : decode (encode i).1 (encode i).2 = .ok i := by
  cases i with
  | decode n => exact decode_encodeCall n
  | bitat a j => exact decode_encodeBitIdx a j
  | holdIdle sub => exact decode_encode_operation (g := .idle) h
  | preamble sub => exact decode_encode_operation (g := .start) h
  | sync sub => exact decode_encode_operation (g := .preambleFound) h
  | demod sub => exact decode_encode_operation (g := .syncFound) h
  | checksum sub => exact decode_encode_operation (g := .symbolsDemodulated) h
  | value sub => exact decode_encode_operation (g := .checksumVerified) h
  | holdDone sub => exact decode_encode_operation (g := .done) h
  | holdFailed sub => exact decode_encode_operation (g := .failed) h

/-- A word that decodes, decodes to a well-formed operation whose encoding it is. -/
theorem encode_of_decode {f : Format} {w : Nat} {i : Instr} (h : decode f w = .ok i) :
    i.wf = true ∧ encode i = (f, w) := by
  obtain ⟨n, rfl, rfl, rfl⟩ | ⟨g, sub, hl, rfl, rfl, rfl⟩ | ⟨a, j, rfl, rfl, rfl⟩ := decode_eq_ok_cases h
  · exact ⟨rfl, rfl⟩
  · exact ⟨(operation_wf g sub).trans hl, encode_operation g sub⟩
  · exact ⟨rfl, rfl⟩

/-- Settles O1: the encoding of each kind of operation decodes to it, and a word that decodes is its fields side by side, which
is the encoding. -/
theorem decodeEncodeAgree : Obligations.DecodeEncodeAgree := by
  unfold Obligations.DecodeEncodeAgree
  exact ⟨fun _ h => decode_encode h, fun _ _ _ h => encode_of_decode h⟩

end Sys2Proof
end

section
/-! SUPPORT. Which operation a step runs: the listed pairs, the refusal of every other pair, and a table word placed for the next
step. -/

namespace Sys2Proof.Machine

/-- A pair is unlisted when its sub-state is past the stage's last one. -/
theorem subStates_le_of_unlisted {g : Stage} {sub : BitVec 3} (h : g.lists sub = false) : g.subStates ≤ sub.toNat := by
  simpa [Stage.lists] using h

/-- Sub-state 0 is listed for every stage. -/
theorem lists_zero (g : Stage) : g.lists 0#3 = true := by
  cases g <;> rfl

/-- Beside an unlisted pair the host's command is not sampled: it is sampled with sub-state 0 alone (assumption log 11). -/
theorem State.not_sampled_of_unlisted {st : State} (h : st.regs.stage.lists st.regs.sub = false) : st.sampled = false := by
  have hsub : st.regs.sub ≠ 0#3 := by
    intro h0
    rw [h0, lists_zero] at h
    cases h
  simp [State.sampled, hsub]

/-- A holding operation is refused in every sub-state but 0. -/
theorem hold_refused {sub : BitVec 3} {st : State} (h : 1 ≤ sub.toNat) : hold sub st = .refused .unlistedSubState := by
  refine if_neg ?_
  rintro rfl
  cases h

/-- The operation of an unlisted pair is refused: its sub-state is past every arm of the stage's operation (rule R92 (d)). -/
theorem exec_operation_of_unlisted {g : Stage} {sub : BitVec 3} (h : g.lists sub = false) (st : State) :
    exec (g.operation sub) st = .refused .unlistedSubState := by
  have hsub := subStates_le_of_unlisted h
  obtain ⟨k, hk⟩ := Nat.exists_eq_add_of_le' hsub
  cases g with
  | idle | done | failed => exact hold_refused hsub
  | start => simp only [Stage.operation, exec, execPreamble, hk, Stage.subStates]
  | preambleFound => simp only [Stage.operation, exec, execSync, hk, Stage.subStates]
  | syncFound => simp only [Stage.operation, exec, execDemod, hk, Stage.subStates]
  | symbolsDemodulated => simp only [Stage.operation, exec, execChecksum, hk, Stage.subStates]
  | checksumVerified => simp only [Stage.operation, exec, execValue, hk, Stage.subStates]

/-- The command is not sampled in a busy stage or with `start = 0` (rule R209). -/
theorem State.not_sampled_of_busy_or_not_start {st : State} (h : st.busy = true ∨ st.start = false) : st.sampled = false := by
  rcases h with h | h <;> simp [State.sampled, h]

/-- The command is sampled in a holding state with `start = 1` (rule R209). -/
theorem State.sampled_of_command {st : State} (hbusy : st.busy = false) (hsub : st.regs.sub = 0#3) (hstart : st.start = true) :
    st.sampled = true := by
  simp [State.sampled, hbusy, hsub, hstart]

section Place
variable (st : State)

theorem State.placeWord_call (w : BitVec 9) : st.placeWord .call w.toNat = st.placeCall w := by
  simp [State.placeWord, Format.width, w.isLt]

theorem State.placeWord_stage (w : BitVec 6) : st.placeWord .stage w.toNat = st.placeStage w := by
  simp [State.placeWord, Format.width, w.isLt]

theorem State.placeWord_bitIdx (w : BitVec 10) : st.placeWord .bitIdx w.toNat = st.placeBitIdx w := by
  simp [State.placeWord, Format.width, w.isLt]

/-- Cancelled wires hold no request. -/
theorem State.noRequest_of_cancel {t : State} (h : t.bitat = st.bitat.cancel) : t.noRequest = true := by
  unfold State.noRequest
  rw [h]
  cases st.bitat <;> rfl

/-- A command is placed in a stage that is not busy: a busy one becomes Idle. -/
theorem State.placeCall_busy (w : BitVec 9) : (st.placeCall w).busy = false := by
  change stageBusy (if st.busy = true then Regs.goto .idle st.regs else { st.regs with sub := 0#3 }).stage = false
  split
  · rfl
  · rename_i h
    exact Bool.eq_false_iff.mpr h

theorem State.placeCall_sub (w : BitVec 9) : (st.placeCall w).regs.sub = 0#3 := by
  simp only [State.placeCall]
  split <;> rfl

/-- The command of a placed CALL word runs. -/
theorem step_placeCall (n : BitVec 8) :
    step (st.placeCall (encodeCall 1#1 n)) = exec (.decode n) (st.placeCall (encodeCall 1#1 n)) := by
  have hstart : (st.placeCall (encodeCall 1#1 n)).start = true :=
    decide_eq_true BitVec.extractLsb'_append_eq_left
  have hread : (st.placeCall (encodeCall 1#1 n)).readBytes = n := BitVec.extractLsb'_append_eq_right
  have hsampled := State.sampled_of_command (st.placeCall_busy _) (st.placeCall_sub _) hstart
  rw [step_of_sampled rfl (st.noRequest_of_cancel rfl) hsampled, hread]

/-- The operation of a placed STAGE word runs, where its pair is listed. -/
theorem step_placeStage {g : Stage} {sub : BitVec 3} (h : g.lists sub = true) :
    step (st.placeStage (encodeStage g sub)) = exec (g.operation sub) (st.placeStage (encodeStage g sub)) := by
  have hstage : (st.placeStage (encodeStage g sub)).regs.stage = g :=
    (congrArg Stage.ofCode BitVec.extractLsb'_append_eq_left).trans g.ofCode_code
  have hsub : (st.placeStage (encodeStage g sub)).regs.sub = sub := BitVec.extractLsb'_append_eq_right
  have hstep := step_of_stage (st := st.placeStage (encodeStage g sub)) rfl (st.noRequest_of_cancel rfl)
    (State.not_sampled_of_busy_or_not_start (.inr rfl)) (by rw [hstage, hsub]; exact h)
  rwa [hstage, hsub] at hstep

/-- The BITAT of a placed BITIDX word runs. -/
theorem step_placeBitIdx (a : BitVec 7) (j : BitVec 3) :
    step (st.placeBitIdx (encodeBitIdx a j)) = exec (.bitat a j) (st.placeBitIdx (encodeBitIdx a j)) := by
  rw [step_of_request (i := encodeBitIdx a j) rfl rfl, encodeBitIdx, BitVec.extractLsb'_append_eq_left,
    BitVec.extractLsb'_append_eq_right]

/-- A word that decodes in a format runs where it is placed as a word of that format. -/
theorem step_placeWord {f : Format} {w : Nat} {i : Instr} (h : decode f w = .ok i) :
    step (st.placeWord f w) = exec i (st.placeWord f w) := by
  obtain ⟨n, rfl, rfl, rfl⟩ | ⟨g, sub, hl, rfl, rfl, rfl⟩ | ⟨a, j, rfl, rfl, rfl⟩ := decode_eq_ok_cases h
  · rw [State.placeWord_call]
    exact step_placeCall st n
  · rw [State.placeWord_stage]
    exact step_placeStage st hl
  · rw [State.placeWord_bitIdx]
    exact step_placeBitIdx st a j

end Place

/-- One byte is a STAGE word (assumption log 4). -/
theorem decodeBytes_one {w : Nat} (h : w < 256) : decodeBytes [BitVec.ofNat 8 w] = decode .stage w := by
  simp only [decodeBytes, BitVec.toNat_ofNat]
  rw [Nat.mod_eq_of_lt h]

/-- Two bytes are the word that they are the low and the high byte of (assumption log 4). -/
theorem decodeBytes_two {w : Nat} (h : w < 65536) :
    decodeBytes [BitVec.ofNat 8 w, BitVec.ofNat 8 (w / 256)] = decode (containerFormat w) w := by
  have hbytes : w / 256 % 2 ^ 8 * 256 + w % 2 ^ 8 = w := by omega
  simp only [decodeBytes, BitVec.toNat_ofNat, hbytes]

/-- A table word is decoded in the format in which it is placed (assumption log 4). -/
theorem decodeTableWord_eq_some {nbits w : Nat} {i : Instr} (h : decodeTableWord nbits w = some i) :
    ∃ f, decode f w = .ok i ∧ ∀ st : State, st.placeTableWord nbits w = st.placeWord f w := by
  unfold decodeTableWord at h
  dsimp only at h
  split at h
  · rename_i i' hd
    cases h
    split at hd
    · exact ⟨_, hd, fun _ => rfl⟩
    · exact ⟨_, hd, fun _ => rfl⟩
    · exact ⟨_, hd, fun _ => rfl⟩
    · split at hd
      · rename_i hw
        exact ⟨_, (decodeBytes_one hw).symm.trans hd, fun _ => rfl⟩
      · cases hd
    · split at hd
      · rename_i hw
        exact ⟨_, (decodeBytes_two hw).symm.trans hd, fun _ => rfl⟩
      · cases hd
    · cases hd
  · cases h

end Sys2Proof.Machine
end

section
namespace Sys2Proof

open Machine

/-- Settles O5: the command is not sampled beside an unlisted pair, the STAGE word of the pair is rejected, and the pair's own
operation has no arm for it; the seventeen listed pairs are read off stage by stage. -/
theorem unlistedPairsHaveNoStep : Obligations.UnlistedPairsHaveNoStep := by
  unfold Obligations.UnlistedPairsHaveNoStep
  refine ⟨fun st hrst hreq hl => step_of_unlisted hrst hreq (State.not_sampled_of_unlisted hl) hl,
    fun g sub st hl => exec_operation_of_unlisted hl st, fun g sub => ?_⟩
  revert sub
  cases g <;> decide

/-- Settles O2: each word is closed, and the decoder is run on it. -/
theorem tableWordsDecode : Obligations.TableWordsDecode := by
  unfold Obligations.TableWordsDecode
  decide

/-- Settles O3: the four sources of an operation, in the order in which `State.select` asks for them. -/
theorem stepRunsSelectedOperation : Obligations.StepRunsSelectedOperation := by
  unfold Obligations.StepRunsSelectedOperation
  intro st
  refine ⟨step_of_rst, fun hrst => ⟨fun i hi => step_of_request hrst hi, fun hreq => ⟨fun hbusy hsub hstart => ?_, ?_⟩⟩⟩
  · exact step_of_sampled hrst hreq (State.sampled_of_command hbusy hsub hstart)
  · exact fun hs hl => step_of_stage hrst hreq (State.not_sampled_of_busy_or_not_start hs) hl

/-- Settles O4: a table word is placed in the format it decodes in, and a word of each format runs where it is placed. -/
theorem placedWordRuns : Obligations.PlacedWordRuns := by
  unfold Obligations.PlacedWordRuns
  intro st nbits w i h
  obtain ⟨f, hd, hplace⟩ := decodeTableWord_eq_some h
  rw [State.withFetchWord, hplace]
  exact step_placeWord st hd

/-- Settles O12: DECODE asks whether the stage is busy before it writes anything. -/
theorem commandWhileBusyIsNoOperation : Obligations.CommandWhileBusyIsNoOperation :=
  fun _ _ hb => if_pos hb

end Sys2Proof
end

section
/-! SUPPORT. DEMOD on a capture of given symbols (rules R155 to R160): its two runs are the symbol's, and its packet holds the
data bits. -/

namespace Sys2Proof.Machine

/-- From bit `a` up to bit `b` the capture holds one symbol: `z >= 1` zeros and then `o >= 1` ones (rule R85). -/
def SymbolAt (m : List Host.Cell) (a b z o : Nat) : Prop :=
  1 ≤ z ∧ 1 ≤ o ∧ b = a + z + o ∧ (∀ i, i < z → captureBit m (a + i) = 0#1) ∧ (∀ i, i < o → captureBit m (a + z + i) = 1#1)

/-- A symbol begins with a 0 bit. -/
theorem SymbolAt.first_zero {m : List Host.Cell} {a b z o : Nat} (h : SymbolAt m a b z o) : captureBit m a = 0#1 := by
  obtain ⟨hz, -, -, hzeros, -⟩ := h
  exact hzeros 0 hz

/-- The two runs that DEMOD measures at a symbol are the symbol's, where the valid bits or a 0 bit end it (rule R156). -/
theorem SymbolAt.runs {m : List Host.Cell} {blen a b z o : Nat} (h : SymbolAt m a b z o) (hb : blen ≤ 1024) (hle : b ≤ blen)
    (hend : b = blen ∨ captureBit m b = 0#1) :
    Functional.runLength m blen 0#1 Config.maxBits a = z ∧ Functional.runLength m blen 1#1 Config.maxBits (a + z) = o := by
  obtain ⟨-, ho, rfl, hzeros, hones⟩ := h
  have hfuel : blen ≤ Config.maxBits := hb
  constructor
  · exact runLength_unique (by omega) (by omega) hzeros (.inr (bit_ne_zero.mpr (hones 0 ho)))
  · exact runLength_unique hle (by omega) hones (hend.imp_right bit_ne_one.mpr)

/-- The symbol decision is 1 exactly when there are fewer zeros than ones; a tie is 0 (rule R158). -/
theorem symbolBit_eq_one {z o : Nat} : symbolBit z o = 1#1 ↔ z < o := by
  simp [symbolBit]

/-- The packet holds the data bits of the first `n` symbols and 0 bits after them. -/
def PackedTo (z o : Nat → Nat) (n : Nat) (p : Vector Byte 8) : Prop :=
  ∀ k, dataBit p k = (decide (k < n) && decide (z k < o k))

/-- The packet that DEMOD begins with holds no data bit. -/
theorem packedTo_zero (z o : Nat → Nat) : PackedTo z o 0 (Vector.replicate 8 0#8) := by
  intro k
  have hbyte : packetByte (Vector.replicate 8 0#8) (k / 8) = 0#8 := by
    rw [packetByte, Vector.toList_replicate, List.getD_eq_getElem?_getD, List.getElem?_getD_replicate_default_eq]
  simp [dataBit, hbyte]

/-- Packing the decision on symbol `n` adds data bit `n` (rules R158, R160). -/
theorem PackedTo.succ {z o : Nat → Nat} {n : Nat} {p : Vector Byte 8} (h : PackedTo z o n p) (hn : n < 64) :
    PackedTo z o (n + 1) (packBit p n (symbolBit (z n) (o n))) := by
  intro k
  have hclear : dataBit p n = false := by simp [h n]
  rw [dataBit_packBit hn hclear]
  by_cases hk : k = n
  · subst hk
    simp [symbolBit_eq_one]
  · have hlt : k < n + 1 ↔ k < n := by omega
    rw [if_neg hk, h k, decide_eq_decide.mpr hlt]

section Symbols
variable {m : List Host.Cell} {blen : Nat} {z o at' : Nat → Nat}
  (hsym : ∀ n, n < 64 → SymbolAt m (at' n) (at' (n + 1)) (z n) (o n))
include hsym

/-- Each symbol that is left takes at least two bits. -/
theorem symbols_left_fit {left n : Nat} (hn : n + left = 64) : at' n + 2 * left ≤ at' 64 := by
  induction left generalizing n with
  | zero =>
    obtain rfl : n = 64 := hn
    exact le_rfl
  | succ left ih =>
    obtain ⟨hz, ho, hnext, -⟩ := hsym n (by omega)
    have := ih (n := n + 1) (by omega)
    omega

/-- Every symbol is ended by the valid bits or by a 0 bit, the next symbol's first or the one after the last. -/
theorem symbol_ended (hend : at' 64 = blen ∨ captureBit m (at' 64) = 0#1) {n : Nat} (hn : n < 64) :
    at' (n + 1) = blen ∨ captureBit m (at' (n + 1)) = 0#1 := by
  by_cases hlast : n + 1 = 64
  · rwa [hlast]
  · exact .inr (hsym (n + 1) (by omega)).first_zero

/-- The symbol loop over the symbols that are left completes the packet. -/
theorem demodFrom_symbols (hb : blen ≤ 1024) (hle : at' 64 ≤ blen) (hend : at' 64 = blen ∨ captureBit m (at' 64) = 0#1)
    {left n : Nat} {pkt : Vector Byte 8} (hn : n + left = 64) (hpkt : PackedTo z o n pkt) :
    ∃ pkt', Functional.demodFrom m blen left pkt (at' n) = some (pkt', at' 64) ∧ PackedTo z o 64 pkt' := by
  induction left generalizing n pkt with
  | zero =>
    obtain rfl : n = 64 := hn
    exact ⟨pkt, rfl, hpkt⟩
  | succ left ih =>
    have hn64 : n < 64 := by omega
    have hindex : Config.pktBits - (left + 1) = n := by
      rw [Config.pktBits]
      omega
    have hfit := symbols_left_fit hsym (n := n + 1) (left := left) (by omega)
    obtain ⟨hz, ho, hnext, -⟩ := hsym n hn64
    obtain ⟨hrun0, hrun1⟩ := (hsym n hn64).runs hb (by omega) (symbol_ended hsym hend hn64)
    obtain ⟨pkt', hloop, hpkt'⟩ := ih (n := n + 1) (by omega) (hpkt.succ hn64)
    refine ⟨pkt', demodFrom_succ_eq_some.mpr ⟨by omega, z n, o n, hrun0, hrun1, hz, ho, ?_⟩, hpkt'⟩
    rwa [hindex, ← hnext]

/-- DEMOD's function finds the packet of the 64 symbols' data bits, and the end of the last run. -/
theorem demod_symbols (hb : blen ≤ 1024) (hle : at' 64 ≤ blen) (hend : at' 64 = blen ∨ captureBit m (at' 64) = 0#1) :
    ∃ packet, Functional.demod m blen (at' 0) = some (packet, at' 64) ∧
      ∀ n, n < 64 → (packetByte packet (n / 8)).getLsbD (7 - n % 8) = decide (z n < o n) := by
  obtain ⟨packet, hdemod, hpacket⟩ := demodFrom_symbols hsym hb hle hend (n := 0) (left := 64) rfl (packedTo_zero z o)
  refine ⟨packet, hdemod, fun n hn => (hpacket n).trans ?_⟩
  simp [hn]

end Symbols

end Sys2Proof.Machine
end

section
namespace Sys2Proof

open Machine

/-- Settles O34: each symbol's runs are the ones measured, the next symbol's 0 bit ending it, so each step of the loop packs that
symbol's bit. -/
theorem demodPacksSymbols : Obligations.DemodPacksSymbols := by
  unfold Obligations.DemodPacksSymbols
  rintro m blen p z o at' hb rfl hle hend hsym
  exact demod_symbols hsym hb hle hend

end Sys2Proof
end

section
/-! SUPPORT. The call on a frame of rule R87: what each stage finds on its part of the frame. -/

namespace Sys2Proof.Machine

/-- A walk over exactly `q` matching quads counts them and ends after them (rule R122). -/
theorem walk_eq {m : List Host.Cell} {blen s q : Nat} (hb : blen ≤ 1024) (hle : s + 4 * q ≤ blen)
    (hquads : ∀ k, k < q → Functional.quad m (s + 4 * k) = Config.prePattern)
    (hend : blen < s + 4 * q + 4 ∨ Functional.quad m (s + 4 * q) ≠ Config.prePattern) :
    Functional.walk m blen Config.maxBits s 0 = (s + 4 * q, q) := by
  have hfuel : blen ≤ Config.maxBits := hb
  obtain ⟨hpos, -, hposLe, hmatch, hstop⟩ := walk_spec (m := m) (fuel := Config.maxBits) (q := 0) (i := s) (blen := blen)
    (by omega) (by omega) rfl
  generalize Functional.walk m blen Config.maxBits s 0 = w at *
  obtain ⟨pos, count⟩ := w
  simp only [Nat.sub_zero] at hpos hposLe hmatch hstop
  subst hpos
  rcases Nat.lt_trichotomy count q with hlt | rfl | hgt
  · rcases hstop with hstop | hstop
    · omega
    · exact absurd (hquads count hlt) hstop
  · rfl
  · rcases hend with hend | hend
    · omega
    · exact absurd (hmatch q hgt) hend

/-- PREAMBLE's function on a first run of `q >= 8` matching quads finds its end and its length (rules R121 to R123). -/
theorem preamble_eq_some {m : List Host.Cell} {blen s0 q : Nat} (hb : blen ≤ 1024) (hq : 8 ≤ q) (hle : s0 + 4 * q ≤ blen)
    (hquads : ∀ k, k < q → Functional.quad m (s0 + 4 * k) = Config.prePattern)
    (hend : blen < s0 + 4 * q + 4 ∨ Functional.quad m (s0 + 4 * q) ≠ Config.prePattern)
    (hfirst : ∀ s, s < s0 → ∃ k, k < 8 ∧ Functional.quad m (s + 4 * k) ≠ Config.prePattern) :
    Functional.preamble m blen = some (s0 + 4 * q, q) := by
  have hfuel : blen ≤ Config.maxBits := hb
  have hwalk : Functional.walk m blen 1024 s0 0 = (s0 + 4 * q, q) := walk_eq hb hle hquads hend
  have haccept : 8 ≤ (Functional.walk m blen 1024 s0 0).2 := by rwa [hwalk]
  have hspec := preambleFrom_spec (m := m) (blen := blen) (fuel := Config.maxBits) (s := 0) (by omega)
  unfold Functional.preamble
  cases hfound : Functional.preambleFrom m blen Config.maxBits 0 with
  | none =>
    rw [hfound] at hspec
    exact absurd haccept (hspec s0 (Nat.zero_le _) (by omega))
  | some w =>
    rw [hfound] at hspec
    obtain ⟨s, -, hs, rfl, hw, hbefore⟩ := hspec
    rcases Nat.lt_trichotomy s s0 with hlt | rfl | hgt
    · obtain ⟨k, hk, hne⟩ := hfirst s hlt
      exact absurd ((walk_eight hb hs).mp hw k hk) hne
    · exact congrArg some hwalk
    · exact absurd haccept (hbefore s0 (Nat.zero_le _) hgt)

/-- SYNC's function on a first window of sixteen 1 bits finds its end (rules R140, R143). -/
theorem sync_eq_some {m : List Host.Cell} {blen p j0 : Nat} (hb : blen ≤ 1024) (hp : p ≤ j0) (hle : j0 + 16 ≤ blen)
    (hones : ∀ i, i < 16 → captureBit m (j0 + i) = 1#1)
    (hfirst : ∀ j, p ≤ j → j < j0 → ∃ i, i < 16 ∧ captureBit m (j + i) = 0#1) :
    Functional.sync m blen p = some (j0 + 16) := by
  have hfuel : blen ≤ Config.maxBits := hb
  have hwindow : Functional.windowAt m j0 = true := windowAt_iff.mpr hones
  have hspec := syncFrom_spec (m := m) (blen := blen) (fuel := Config.maxBits) (j := p) (by omega)
  unfold Functional.sync
  rw [if_neg (by rw [Config.syncBits]; omega)]
  cases hfound : Functional.syncFrom m blen Config.maxBits p with
  | none =>
    rw [hfound] at hspec
    exact absurd hwindow (hspec j0 hp hle)
  | some e =>
    rw [hfound] at hspec
    obtain ⟨hge, -, hmatch, hbefore⟩ := hspec
    rcases Nat.lt_trichotomy e (j0 + 16) with hlt | rfl | hgt
    · exact absurd hmatch (not_windowAt.mpr (hfirst (e - 16) (by omega) (by omega)))
    · rfl
    · exact absurd hwindow (hbefore j0 hp hgt)

/-- CHECKSUM's function passes a packet whose byte 7 is the sum of the others modulo 256 (rule R175). -/
theorem checksum_pass {p : Vector Byte 8}
    (h : ((packetByte p 0).toNat + (packetByte p 1).toNat + (packetByte p 2).toNat + (packetByte p 3).toNat +
      (packetByte p 4).toNat + (packetByte p 5).toNat + (packetByte p 6).toNat) % 256 = (packetByte p 7).toNat) :
    Functional.checksum p = none :=
  checksum_eq_none.mpr (BitVec.eq_of_toNat_eq ((sumOf_toNat p).trans h))

/-- A call whose five stages succeed in turn succeeds (rule R205). -/
theorem decode_ok_of_stages {kNeg1 n preEnd quality syncEnd demodEnd : Nat} {m : List Host.Cell} {packet : Vector Byte 8}
    (h1 : 1 ≤ n) (h128 : n ≤ 128) (hpre : Functional.preamble m (8 * n) = some (preEnd, quality))
    (hsync : Functional.sync m (8 * n) preEnd = some syncEnd)
    (hdemod : Functional.demod m (8 * n) syncEnd = some (packet, demodEnd)) (hsum : Functional.checksum packet = none) :
    Functional.decode kNeg1 n m = .ok (Functional.value kNeg1 packet) packet quality := by
  have hentry : ¬ (n = 0 ∨ Config.capacity < n) := by
    rw [Config.capacity]
    omega
  simp only [Functional.decode, if_neg hentry, hpre, hsync, hdemod, hsum]

end Sys2Proof.Machine
end

section
namespace Sys2Proof

open Machine

/-- Settles O40: each stage finds its part of the frame and hands the next its place; DEMOD's packet is the given one, since its
64 data bits are. -/
theorem frameDecodes : Obligations.FrameDecodes := by
  unfold Obligations.FrameDecodes
  intro kNeg1 n m s0 q j0 z o at' packet h1 h128 hq hrun hquads hrunEnd hfirst hj0 hj0le hones hnoWindow hat hle hend hsym
    hbits hsum
  have hb : 8 * n ≤ 1024 := by omega
  have hpre := preamble_eq_some hb hq hrun hquads hrunEnd hfirst
  have hsync := sync_eq_some hb hj0 hj0le hones hnoWindow
  obtain ⟨packet', hdemod, hbits'⟩ := demod_symbols hsym hb hle hend
  obtain rfl : packet' = packet := packet_ext fun i hi => (hbits' i hi).trans (hbits i hi).symm
  rw [hat] at hdemod
  exact decode_ok_of_stages h1 h128 hpre hsync hdemod (checksum_pass hsum)

end Sys2Proof
end

section
/-! SUPPORT. Bit Addressing: the bit that BITAT's two fields name, its value in the byte, and the faults of BITAT and QUAD
(rules R81, R110 to R112). -/

namespace Sys2Proof.Machine

section Fields
variable (a : BitVec 7) (j : BitVec 3)

/-- The bit index of BITAT's two fields is `8a + j` (rule R81). -/
theorem bitIndex_toNat : (bitIndex a j).toNat = 8 * a.toNat + j.toNat := by
  rw [bitIndex, BitVec.toNat_append, ← Nat.shiftLeft_add_eq_or_of_lt j.isLt, Nat.shiftLeft_eq]
  omega

/-- Field `a` names the byte and field `j` the bit in it, most significant first (rules R8, R110). -/
theorem captureBit_bitIndex (m : List Host.Cell) :
    captureBit m (bitIndex a j).toNat = selectBit (Memory.read m a.toNat) j.toNat := by
  have hj := j.isLt
  have hbyte : (8 * a.toNat + j.toNat) / 8 = a.toNat := by omega
  have hbit : (8 * a.toNat + j.toNat) % 8 = j.toNat := by omega
  rw [captureBit, bitIndex_toNat, hbyte, hbit]

end Fields

/-- The selected bit as a number: the byte divided by `2 ^ (7 - j)`, modulo 2. -/
theorem selectBit_toNat (byte : Byte) (j : Nat) : (selectBit byte j).toNat = byte.toNat / 2 ^ (7 - j) % 2 := by
  rw [selectBit, BitVec.extractLsb'_toNat, Nat.shiftRight_eq_div_pow, Nat.pow_one]

/-- BITAT has one fault (rule R245). -/
theorem eq_of_bitAt_error {m : List Host.Cell} {blen i : Nat} {f : Fault} (h : bitAt m blen i = .error f) :
    f = .bitIndexOutOfRange := by
  unfold bitAt at h
  split at h <;> cases h
  rfl

/-- Every index of ten bits names a byte of the capture, so BITAT as an operation answers below `blen` whatever `blen` is
(rule R110). -/
theorem bitAt_bitIndex {m : List Host.Cell} {blen : Nat} {a : BitVec 7} {j : BitVec 3} (h : (bitIndex a j).toNat < blen) :
    bitAt m blen (bitIndex a j).toNat = .ok (selectBit (Memory.read m a.toNat) j.toNat) := by
  rw [bitAt, if_pos ⟨h, (bitIndex a j).isLt⟩, captureBit_bitIndex]

/-- QUAD faults where fewer than four valid bits remain: its last BITAT does, and an earlier one has no other fault
(rules R111, R112). -/
theorem quad_error {m : List Host.Cell} {blen i : Nat} (h : blen < i + 4) :
    quad m blen i = .error .bitIndexOutOfRange := by
  unfold quad
  rw [bitAt_error (i := i + 3) (by omega)]
  split
  next hlast => cases hlast
  next hfault => rw [eq_of_bitAt_error hfault]
  next hfault _ => rw [eq_of_bitAt_error hfault]
  next hfault _ _ => rw [eq_of_bitAt_error hfault]
  next hlast _ _ _ => cases hlast; rfl

end Sys2Proof.Machine
end

section
namespace Sys2Proof

open Machine

/-- Settles O15: the ten-bit index is `8a + j`, so below `blen` its byte is `a` and its bit `j`, and at or above `blen` `bitAt`
faults. -/
theorem bitatReadsOneBit : Obligations.BitatReadsOneBit := by
  unfold Obligations.BitatReadsOneBit
  intro a j st
  rw [← bitIndex_toNat, BitVec.ofNat_toNat, BitVec.setWidth_eq]
  constructor
  · intro h
    refine ⟨selectBit (Memory.read st.cap a.toNat) j.toNat, selectBit_toNat _ _, ?_⟩
    simp only [exec, execBitat, bitAt_bitIndex h]
  · intro h
    simp only [exec, execBitat, bitAt_error h]

/-- Settles O17: with four valid bits each BITAT of QUAD answers its capture bit; with fewer QUAD has the fault of BITAT. -/
theorem quadIsFourBits : Obligations.QuadIsFourBits := by
  unfold Obligations.QuadIsFourBits
  intro m blen i hb
  refine ⟨fun h => ?_, quad_error⟩
  have hbit : ∀ k, k < 4 → bitAt m blen (i + k) = .ok (captureBit m (i + k)) := fun k hk => bitAt_ok (by omega) hb
  exact ⟨_, _, _, _, hbit 0 (by decide), hbit 1 (by decide), hbit 2 (by decide), hbit 3 (by decide), quad_ok h hb⟩

end Sys2Proof
end

section
/-! SUPPORT. The Preamble Locator: P_WALK within the capture, what its function answers, and the windows of SYNC that the run it
finds rules out (rules R127, R130, R131). -/

namespace Sys2Proof.Machine

/-- P_WALK within the capture answers, counting a quad that lies within the valid bits and matches (rule R127). -/
theorem pWalk_eq {m : List Host.Cell} {r : Regs} (hb : r.blen.toNat ≤ 1024) :
    pWalk m r = .ok (
      if r.pos.toNat + 4 ≤ r.blen.toNat ∧ Functional.quad m r.pos.toNat = Config.prePattern then
        { r with q := r.q + 1#9, pos := r.pos + 4#11 }
      else { r with sub := 2#3 }) := by
  unfold pWalk
  by_cases hin : r.pos.toNat + 4 ≤ r.blen.toNat
  · rw [if_pos hin, quad_ok hin hb]
    by_cases hmatch : Functional.quad m r.pos.toNat = Config.prePattern <;> simp [hin, hmatch]
  · rw [if_neg hin, if_neg fun h => hin h.1]

/-- What PREAMBLE's function finds: the whole run of matching quads at the first start with eight of them (rule R130). -/
theorem preamble_found {m : List Host.Cell} {blen preEnd quality : Nat} (hb : blen ≤ 1024)
    (h : Functional.preamble m blen = some (preEnd, quality)) :
    ∃ s0, preEnd = s0 + 4 * quality ∧ 8 ≤ quality ∧ preEnd ≤ blen ∧
      (∀ k, k < quality → Functional.quad m (s0 + 4 * k) = Config.prePattern) ∧
      (blen < preEnd + 4 ∨ Functional.quad m preEnd ≠ Config.prePattern) ∧
      ∀ s, s < s0 → ¬ ∀ k, k < 8 → Functional.quad m (s + 4 * k) = Config.prePattern := by
  have hspec := preambleFrom_spec (m := m) (blen := blen) (fuel := Config.maxBits) (s := 0) (by rw [Config.maxBits]; omega)
  unfold Functional.preamble at h
  rw [h] at hspec
  obtain ⟨s0, -, hs0, hwalk, hq, hbefore⟩ := hspec
  obtain ⟨hend, -, hle, hquads, hstop⟩ := walk_spec (by omega) (by omega) hwalk
  exact ⟨s0, hend, hq, hle, hquads, hstop, fun s hs height =>
    hbefore s (Nat.zero_le _) hs ((walk_eight hb (by omega)).mpr height)⟩

/-- PREAMBLE's function finds nothing exactly when no candidate has eight matching quads (rule R124). -/
theorem preamble_eq_none_iff {m : List Host.Cell} {blen : Nat} (hb : blen ≤ 1024) :
    Functional.preamble m blen = none ↔
      ∀ s, s + 32 ≤ blen → ¬ ∀ k, k < 8 → Functional.quad m (s + 4 * k) = Config.prePattern := by
  have hspec := preambleFrom_spec (m := m) (blen := blen) (fuel := Config.maxBits) (s := 0) (by rw [Config.maxBits]; omega)
  unfold Functional.preamble
  cases hfound : Functional.preambleFrom m blen Config.maxBits 0 with
  | none =>
    rw [hfound] at hspec
    exact iff_of_true rfl fun s hs height => hspec s (Nat.zero_le _) hs ((walk_eight hb hs).mpr height)
  | some w =>
    rw [hfound] at hspec
    obtain ⟨s0, -, hs0, rfl, hq, -⟩ := hspec
    exact iff_of_false (by simp) fun hnone => hnone s0 hs0 ((walk_eight hb hs0).mp hq)

/-- Nothing matches before the first start's run at its own phase: a matching quad there would make an earlier start
(rule R130 (d)). -/
theorem run_maximal {m : List Host.Cell} {s0 quality : Nat} (hq : 8 ≤ quality)
    (hquads : ∀ k, k < quality → Functional.quad m (s0 + 4 * k) = Config.prePattern)
    (hfirst : ∀ s, s < s0 → ¬ ∀ k, k < 8 → Functional.quad m (s + 4 * k) = Config.prePattern) :
    s0 < 4 ∨ Functional.quad m (s0 - 4) ≠ Config.prePattern := by
  by_contra hboth
  push Not at hboth
  obtain ⟨h4, hquad⟩ := hboth
  refine hfirst (s0 - 4) (by omega) fun k hk => ?_
  cases k with
  | zero => exact hquad
  | succ k =>
    rw [show s0 - 4 + 4 * (k + 1) = s0 + 4 * k by omega]
    exact hquads k (by omega)

/-- A window of sixteen bits that begins inside a run of matching quads holds the last bit of the quad it begins in, a 0
(rule R131). -/
theorem zero_in_window_of_run {m : List Host.Cell} {s0 quality j : Nat}
    (hquads : ∀ k, k < quality → Functional.quad m (s0 + 4 * k) = Config.prePattern) (hge : s0 ≤ j)
    (hlt : j < s0 + 4 * quality) : ∃ i, i < 16 ∧ captureBit m (j + i) = 0#1 := by
  obtain ⟨-, -, -, hlast⟩ := Functional.quad_eq_pattern.mp (hquads ((j - s0) / 4) (by omega))
  refine ⟨s0 + 4 * ((j - s0) / 4) + 3 - j, by omega, ?_⟩
  rwa [show j + (s0 + 4 * ((j - s0) / 4) + 3 - j) = s0 + 4 * ((j - s0) / 4) + 3 by omega]

/-- SYNC's function finds nothing exactly when every window from `p` on holds a 0 bit (rules R140, R141, R143). -/
theorem sync_eq_none_iff {m : List Host.Cell} {blen p : Nat} (hb : blen ≤ 1024) :
    Functional.sync m blen p = none ↔ ∀ j, p ≤ j → j + 16 ≤ blen → ∃ i, i < 16 ∧ captureBit m (j + i) = 0#1 := by
  have hspec := syncFrom_spec (m := m) (blen := blen) (fuel := Config.maxBits) (j := p) (by rw [Config.maxBits]; omega)
  simp only [← not_windowAt]
  unfold Functional.sync
  split
  next hshort =>
    rw [Config.syncBits] at hshort
    exact iff_of_true rfl fun j hp hj => by omega
  next =>
    cases hfound : Functional.syncFrom m blen Config.maxBits p with
    | none =>
      rw [hfound] at hspec
      exact iff_of_true rfl hspec
    | some e =>
      rw [hfound] at hspec
      obtain ⟨hge, hle, hmatch, -⟩ := hspec
      exact iff_of_false (by simp) fun hnone => hnone (e - 16) (by omega) (by omega) hmatch

/-- What SYNC's function finds: the end of the first window of sixteen 1 bits from `p` on (rules R140, R143). -/
theorem sync_found {m : List Host.Cell} {blen p syncEnd : Nat} (hb : blen ≤ 1024)
    (h : Functional.sync m blen p = some syncEnd) :
    p + 16 ≤ syncEnd ∧ syncEnd ≤ blen ∧ (∀ i, i < 16 → captureBit m (syncEnd - 16 + i) = 1#1) ∧
      ∀ j, p ≤ j → j + 16 < syncEnd → ∃ i, i < 16 ∧ captureBit m (j + i) = 0#1 := by
  unfold Functional.sync at h
  split at h
  · cases h
  · have hspec := syncFrom_spec (m := m) (blen := blen) (fuel := Config.maxBits) (j := p) (by rw [Config.maxBits]; omega)
    rw [h] at hspec
    obtain ⟨hge, hle, hmatch, hbefore⟩ := hspec
    exact ⟨hge, hle, windowAt_iff.mp hmatch, fun j hp hj => not_windowAt.mp (hbefore j hp hj)⟩

/-- SYNC may begin at any later position that no window of sixteen 1 bits begins before. -/
theorem sync_eq_of_skip {m : List Host.Cell} {blen p p' : Nat} (hb : blen ≤ 1024) (hle : p ≤ p')
    (hskip : ∀ j, p ≤ j → j < p' → ∃ i, i < 16 ∧ captureBit m (j + i) = 0#1) :
    Functional.sync m blen p' = Functional.sync m blen p := by
  cases hfound : Functional.sync m blen p' with
  | none =>
    refine ((sync_eq_none_iff hb).mpr fun j hp hj => ?_).symm
    by_cases hlt : j < p'
    · exact hskip j hp hlt
    · exact (sync_eq_none_iff hb).mp hfound j (by omega) hj
  | some syncEnd =>
    obtain ⟨hge, hend, hones, hbefore⟩ := sync_found hb hfound
    have hfirst : ∀ j, p ≤ j → j < syncEnd - 16 → ∃ i, i < 16 ∧ captureBit m (j + i) = 0#1 := fun j hp hj => by
      by_cases hlt : j < p'
      · exact hskip j hp hlt
      · exact hbefore j (by omega) (by omega)
    rw [sync_eq_some hb (by omega) (by omega) hones hfirst, Nat.sub_add_cancel (by omega)]

end Sys2Proof.Machine
end

section
namespace Sys2Proof

open Machine

/-- Settles O18: P_CAND and P_JUDGE are their rules word for word; P_WALK's QUAD answers within the capture, and it matches
exactly when its four bits are 1, 1, 0, 0. -/
theorem preambleMicroSteps : Obligations.PreambleMicroSteps := by
  unfold Obligations.PreambleMicroSteps
  intro st
  refine ⟨rfl, fun hb => ?_, rfl⟩
  simp only [← Functional.quad_eq_pattern]
  exact congrArg st.finish (pWalk_eq hb)

/-- Settles O24: the run from P_CAND on computes the search over the candidates, from the candidate 0. -/
theorem preambleStepsComputeFunction : Obligations.PreambleStepsComputeFunction := by
  unfold Obligations.PreambleStepsComputeFunction
  intro st hinv hrst hreq hstage hsub hs
  have hs0 : st.regs.s.toNat = 0 := by rw [hs]; rfl
  have hb := hinv.range.blen_le
  obtain ⟨n, r', hrun, hn, hres⟩ := cand_runs (m := st.cap) Config.maxBits hstage hsub hb (by omega)
    (by rw [Config.maxBits]; omega)
  refine ⟨n, st.withRegs r', by omega, hrun.runsBusyTo hrst hreq, ?_⟩
  rw [hs0] at hres
  unfold Functional.preamble
  cases hfound : Functional.preambleFrom st.cap st.regs.blen.toNat Config.maxBits 0 with
  | none =>
    rw [hfound] at hres
    rw [hres]
    exact ⟨rfl, rfl, rfl, rfl⟩
  | some w =>
    rw [hfound] at hres
    obtain ⟨hregs, hpreEnd, hquality⟩ := hres
    exact ⟨by rw [hregs], hpreEnd, hquality⟩

/-- Settles O29: the search stops at the first start whose walk counts eight, and the walk counts the whole run from there; the
two bits before the end are the last of its last quad. -/
theorem preambleFindsFirstRun : Obligations.PreambleFindsFirstRun := by
  unfold Obligations.PreambleFindsFirstRun
  intro m blen preEnd quality hb h
  obtain ⟨s0, rfl, hq, hle, hquads, hstop, hfirst⟩ := preamble_found hb h
  obtain ⟨-, -, hthird, hfourth⟩ := Functional.quad_eq_pattern.mp (hquads (quality - 1) (by omega))
  rw [show s0 + 4 * (quality - 1) + 2 = s0 + 4 * quality - 2 by omega] at hthird
  rw [show s0 + 4 * (quality - 1) + 3 = s0 + 4 * quality - 1 by omega] at hfourth
  exact ⟨hq, by omega, hle, hstop, hfourth, hthird, s0, rfl, hquads, hfirst, run_maximal hq hquads hfirst⟩

/-- Settles O30: each start within the valid bits is a candidate, and it is rejected exactly when one of its first eight quads
does not match. -/
theorem preambleNotFoundExactly : Obligations.PreambleNotFoundExactly := by
  unfold Obligations.PreambleNotFoundExactly
  intro m blen hb
  rw [preamble_eq_none_iff hb]
  simp only [not_forall, exists_prop, ne_eq]

/-- Settles O32: between the eighth quad and the end of the run every window begins inside the run, so it holds a 0 bit. -/
theorem syncIndependentOfWalkReading : Obligations.SyncIndependentOfWalkReading := by
  unfold Obligations.SyncIndependentOfWalkReading
  intro m blen preEnd quality hb h
  obtain ⟨s0, rfl, hq, -, hquads, -⟩ := preamble_found hb h
  rw [Nat.add_sub_cancel]
  exact sync_eq_of_skip hb (by omega) fun j hge hlt => zero_in_window_of_run hquads (by omega) hlt

end Sys2Proof
end

section
/-! SUPPORT. The Sync Locator: its two micro-steps within the capture, and the run they make from S_CHECK on (rules R144 to R146).
-/

namespace Sys2Proof.Machine

/-- The sync window as the number of its 16 bits: `BitVec.ofNat` is the modulus of rule R142. -/
theorem shiftIn_eq_ofNat (acc : BitVec 16) (b : Bit) : shiftIn acc b = BitVec.ofNat 16 (acc.toNat * 2 + b.toNat) := by
  apply BitVec.eq_of_toNat_eq
  rw [shiftIn_toNat, BitVec.toNat_ofNat]

/-- S_CHECK's addition decides the subtraction of rule R144 where `pre_end <= blen` (rule R266 (a)). -/
theorem sCheck_eq {r : Regs} (hle : r.preEnd.toNat ≤ r.blen.toNat) :
    sCheck r =
      if r.blen.toNat - r.preEnd.toNat < 16 then r.raise .syncNotFound
      else { r with pos := r.preEnd, acc := 0#16, sub := 1#3 } := by
  have hshort : r.blen.toNat < r.preEnd.toNat + 16 ↔ r.blen.toNat - r.preEnd.toNat < 16 := by omega
  simp only [sCheck, Config.syncBits, hshort]

/-- S_SHIFT within the capture answers: it shifts the next valid bit in and compares, or gives up at `blen` (rule R145). -/
theorem sShift_eq {m : List Host.Cell} {r : Regs} (hb : r.blen.toNat ≤ 1024) :
    sShift m r = .ok (
      if r.pos.toNat < r.blen.toNat then
        if shiftIn r.acc (captureBit m r.pos.toNat) = Config.syncMarker then
          Regs.goto .syncFound { r with
            acc := shiftIn r.acc (captureBit m r.pos.toNat), pos := r.pos + 1#11, syncEnd := r.pos + 1#11 }
        else { r with acc := shiftIn r.acc (captureBit m r.pos.toNat), pos := r.pos + 1#11 }
      else r.raise .syncNotFound) := by
  unfold sShift
  by_cases hin : r.pos.toNat < r.blen.toNat
  · rw [if_pos hin, if_pos hin, bitAt_ok hin hb]
    dsimp only
    split <;> rfl
  · rw [if_neg hin, if_neg hin]

/-- The empty accumulator at the first position holds no bit of the window (rule R144). -/
theorem accHolds_zero (m : List Host.Cell) (p : Nat) : AccHolds m p p 0#16 := by
  intro i _
  simp

/-- From S_CHECK on, the micro-steps compute SYNC's function: one step, then at most one for each bit past `pre_end` and one
that finds no bit left (rule R146). -/
theorem sync_runs {m : List Host.Cell} {r : Regs} (hs : r.stage = .preambleFound) (h0 : r.sub = 0#3)
    (hb : r.blen.toNat ≤ 1024) (hle : r.preEnd.toNat ≤ r.blen.toNat) :
    ∃ n r', MicroRuns m n r r' ∧ n + r.preEnd.toNat ≤ r.blen.toNat + 2 ∧
      match Functional.sync m r.blen.toNat r.preEnd.toNat with
      | some syncEnd => r'.stage = .syncFound ∧ r'.syncEnd.toNat = syncEnd
      | none => r'.stage = .failed ∧ r'.err = some .syncNotFound ∧ r'.syncEnd = r.syncEnd := by
  have hcheck : MicroRuns m 1 r (sCheck r) := .check hs h0 rfl
  unfold Functional.sync
  by_cases hshort : r.blen.toNat < r.preEnd.toNat + Config.syncBits
  · rw [sCheck, if_pos hshort] at hcheck
    rw [if_pos hshort]
    exact ⟨1, _, hcheck, by omega, rfl, rfl, rfl⟩
  · rw [sCheck, if_neg hshort] at hcheck
    rw [if_neg hshort]
    rw [Config.syncBits] at hshort
    obtain ⟨n, r', hrun, hn, hres⟩ := shift_runs (m := m) (r.blen.toNat - r.preEnd.toNat) Config.maxBits r.preEnd.toNat
      (r := { r with pos := r.preEnd, acc := 0#16, sub := 1#3 }) hs rfl hb (Nat.add_sub_cancel' hle) le_rfl
      (accHolds_zero m _) (by dsimp only; omega) (by dsimp only; omega) (by rw [Config.maxBits]; dsimp only; omega)
    refine ⟨1 + n, r', hcheck.trans hrun, by omega, ?_⟩
    cases hfound : Functional.syncFrom m r.blen.toNat Config.maxBits r.preEnd.toNat with
    | none =>
      rw [hfound] at hres
      rw [hres]
      exact ⟨rfl, rfl, rfl⟩
    | some syncEnd =>
      rw [hfound] at hres
      obtain ⟨hregs, hend⟩ := hres
      exact ⟨by rw [hregs], hend⟩

/-- SYNC's function answers exactly the end of the first window of sixteen 1 bits from `p` on (rules R140, R143). -/
theorem sync_eq_some_iff {m : List Host.Cell} {blen p syncEnd : Nat} (hb : blen ≤ 1024) :
    Functional.sync m blen p = some syncEnd ↔
      p + 16 ≤ syncEnd ∧ syncEnd ≤ blen ∧ (∀ i, i < 16 → captureBit m (syncEnd - 16 + i) = 1#1) ∧
        ∀ j, p ≤ j → j + 16 < syncEnd → ∃ i, i < 16 ∧ captureBit m (j + i) = 0#1 := by
  refine ⟨sync_found hb, ?_⟩
  rintro ⟨hge, hle, hones, hbefore⟩
  rw [sync_eq_some hb (by omega) (by omega) hones fun j hp hj => hbefore j hp (by omega), Nat.sub_add_cancel (by omega)]

end Sys2Proof.Machine
end

section
namespace Sys2Proof

open Machine

/-- Settles O19: S_CHECK's addition decides rule R144's subtraction; S_SHIFT's BITAT answers within the capture, and the window
is a 16-bit number, so the modulus is its width. -/
theorem syncMicroSteps : Obligations.SyncMicroSteps := by
  unfold Obligations.SyncMicroSteps
  intro st
  refine ⟨fun hle => congrArg (fun r => st.finish (.ok r)) (sCheck_eq hle), fun hb => ?_⟩
  simp only [← shiftIn_eq_ofNat]
  exact congrArg st.finish (sShift_eq hb)

/-- Settles O25: the run from S_CHECK on computes SYNC's function, and it is short enough because `pre_end` is at least 32. -/
theorem syncStepsComputeFunction : Obligations.SyncStepsComputeFunction := by
  unfold Obligations.SyncStepsComputeFunction
  intro st hinv hrst hreq hstage hsub
  obtain ⟨hpreamble, -⟩ : st.regs.PreambleDone ∧ st.regs.InSync := by
    have hi := hinv.stage
    rwa [Regs.InStage, hstage] at hi
  have hb := hinv.range.blen_le
  have hq := hpreamble.quality_ge
  have hpreEnd := hpreamble.preEnd_eq
  obtain ⟨n, r', hrun, hn, hres⟩ := sync_runs (m := st.cap) hstage hsub hb hpreamble.preEnd_le
  exact ⟨n, st.withRegs r', by omega, hrun.runsBusyTo hrst hreq, hres⟩

/-- Settles O31: what the search finds is a first window, a first window is what it finds, and it finds none only where there is
none. -/
theorem syncFindsFirstWindow : Obligations.SyncFindsFirstWindow := by
  unfold Obligations.SyncFindsFirstWindow
  intro m blen p hb _
  exact ⟨fun _ => sync_eq_some_iff hb, sync_eq_none_iff hb⟩

end Sys2Proof
end

section
/-! SUPPORT. The Symbol Demodulator: its two measuring steps within the capture, its judging step in numbers, what its function
finds, and the run the micro-steps make from M_INIT on (rules R161 to R167). -/

namespace Sys2Proof.Machine

section Steps
variable {m : List Host.Cell} {r : Regs}

/-- M_ZEROS within the capture answers: it counts a valid 0 bit or ends the run (rule R163). -/
theorem mZeros_eq (hb : r.blen.toNat ≤ 1024) :
    mZeros m r = .ok (
      if r.pos.toNat < r.blen.toNat ∧ captureBit m r.pos.toNat = 0#1 then
        { r with zeros := r.zeros + 1#11, pos := r.pos + 1#11 }
      else { r with sub := 3#3 }) := by
  unfold mZeros
  by_cases hin : r.pos.toNat < r.blen.toNat
  · rw [if_pos hin, bitAt_ok hin hb]
    by_cases hbit : captureBit m r.pos.toNat = 0#1 <;> simp [hin, hbit]
  · rw [if_neg hin, if_neg fun h => hin h.1]

/-- M_ONES within the capture answers: it counts a valid 1 bit or ends the run (rule R164). -/
theorem mOnes_eq (hb : r.blen.toNat ≤ 1024) :
    mOnes m r = .ok (
      if r.pos.toNat < r.blen.toNat ∧ captureBit m r.pos.toNat = 1#1 then
        { r with ones := r.ones + 1#11, pos := r.pos + 1#11 }
      else { r with sub := 4#3 }) := by
  unfold mOnes
  by_cases hin : r.pos.toNat < r.blen.toNat
  · rw [if_pos hin, bitAt_ok hin hb]
    by_cases hbit : captureBit m r.pos.toNat = 1#1 <;> simp [hin, hbit]
  · rw [if_neg hin, if_neg fun h => hin h.1]

/-- M_JUDGE with its stop rule as a comparison of run lengths (rules R157, R165). -/
theorem mJudge_eq :
    mJudge r =
      if r.zeros.toNat = 0 ∨ r.ones.toNat = 0 then r.raise .insufficientSymbols
      else
        { r with
          packet := packBit r.packet r.nbits.toNat (symbolBit r.zeros.toNat r.ones.toNat)
          nbits := r.nbits + 1#7
          sub := 1#3 } := by
  simp only [mJudge, ← BitVec.toNat_inj, BitVec.toNat_zero]

/-- From M_INIT on, the micro-steps compute DEMOD's function: one step, then one for each bit past `sync_end`, four more for each
symbol, and one that ends the loop (rule R166). -/
theorem demod_runs (hs : r.stage = .syncFound) (h0 : r.sub = 0#3) (hb : r.blen.toNat ≤ 1024)
    (hle : r.syncEnd.toNat ≤ r.blen.toNat) :
    ∃ n r', MicroRuns m n r r' ∧ n + r.syncEnd.toNat ≤ r.blen.toNat + 258 ∧
      match Functional.demod m r.blen.toNat r.syncEnd.toNat with
      | some (packet, demodEnd) => r'.stage = .symbolsDemodulated ∧ r'.packet = packet ∧ r'.demodEnd.toNat = demodEnd
      | none => r'.stage = .failed ∧ r'.err = some .insufficientSymbols := by
  have hinit : MicroRuns m 1 r (mInit r) := .init hs h0 rfl
  obtain ⟨n, r', hrun, hn, hres⟩ := symbols_runs (m := m) (r := mInit r) Config.pktBits hs rfl hb hle rfl
  have hcount : n ≤ r.blen.toNat - r.syncEnd.toNat + 4 * 64 + 1 := hn
  have hloop : Functional.demodFrom m (mInit r).blen.toNat Config.pktBits (mInit r).packet (mInit r).pos.toNat =
      Functional.demod m r.blen.toNat r.syncEnd.toNat := rfl
  rw [hloop] at hres
  refine ⟨1 + n, r', hinit.trans hrun, by omega, ?_⟩
  cases hfound : Functional.demod m r.blen.toNat r.syncEnd.toNat with
  | none =>
    rw [hfound] at hres
    rw [hres]
    exact ⟨rfl, rfl⟩
  | some w =>
    rw [hfound] at hres
    obtain ⟨hregs, hend⟩ := hres
    exact ⟨by rw [hregs], by rw [hregs], hend⟩

end Steps

/-- What DEMOD's function finds: at least 128 bits from a 0 bit on, up to the end of the valid bits or a 0 bit (rule R167). -/
theorem demod_found {m : List Host.Cell} {blen p demodEnd : Nat} {packet : Vector Byte 8} (hb : blen ≤ 1024)
    (h : Functional.demod m blen p = some (packet, demodEnd)) :
    p + 128 ≤ demodEnd ∧ demodEnd ≤ blen ∧ captureBit m p = 0#1 ∧ (demodEnd = blen ∨ captureBit m demodEnd = 0#1) := by
  obtain ⟨hlt, -⟩ := demodFrom_succ_eq_some.mp h
  obtain ⟨hge, hle, hbits⟩ := demodFrom_spec hb hlt.le h
  obtain ⟨hfirst, hlast⟩ := hbits (by decide)
  exact ⟨hge, hle, hfirst, hlast⟩

end Sys2Proof.Machine
end

section
namespace Sys2Proof

open Machine

/-- Settles O20: M_INIT and M_SYMBOL are their rules word for word; the BITAT of M_ZEROS and M_ONES answers within the capture,
and M_JUDGE stops on a run of length 0. -/
theorem demodMicroSteps : Obligations.DemodMicroSteps := by
  unfold Obligations.DemodMicroSteps
  intro st
  exact ⟨rfl, rfl, fun hb => congrArg st.finish (mZeros_eq hb), fun hb => congrArg st.finish (mOnes_eq hb),
    congrArg (fun r => st.finish (.ok r)) mJudge_eq⟩

/-- Settles O21: the packing adds to its own byte and leaves every other byte alone. -/
theorem packingAddsOneBit : Obligations.PackingAddsOneBit := by
  unfold Obligations.PackingAddsOneBit
  intro p n k b hn _
  by_cases hk : k = n / 8
  · subst hk
    rw [if_pos rfl, packetByte_packBit_same p n b hn]
  · rw [if_neg hk, packetByte_packBit_other p n k b hk]

/-- Settles O26: the run from M_INIT on computes DEMOD's function, and it is short enough because `sync_end` is at least 48. -/
theorem demodStepsComputeFunction : Obligations.DemodStepsComputeFunction := by
  unfold Obligations.DemodStepsComputeFunction
  intro st hinv hrst hreq hstage hsub
  obtain ⟨hsync, -⟩ : st.regs.SyncDone ∧ st.regs.InDemod := by
    have hi := hinv.stage
    rwa [Regs.InStage, hstage] at hi
  have hb := hinv.range.blen_le
  have hpreEnd := hsync.preamble.preEnd_ge
  have hsyncEnd := hsync.syncEnd_ge
  obtain ⟨n, r', hrun, hn, hres⟩ := demod_runs (m := st.cap) hstage hsub hb hsync.syncEnd_le
  exact ⟨n, st.withRegs r', by omega, hrun.runsBusyTo hrst hreq, hres⟩

/-- Settles O33: the symbol loop begins only before `blen`; its first zeros run begins at `p`, and its last ones run ends at
`blen` or at a 0 bit. -/
theorem demodFoundProperties : Obligations.DemodFoundProperties := by
  unfold Obligations.DemodFoundProperties
  intro m blen p packet demodEnd hb h
  exact demod_found hb h

end Sys2Proof
end

section
/-! SUPPORT. The Checksum Validator: its adding step as a number, what one byte is worth to the sum, what its function answers,
and the run the micro-steps make from K_INIT on (rules R175 to R179). -/

namespace Sys2Proof.Machine

/-- The carry that an addition of the checksum discards is the modulus of `BitVec.ofNat` (rule R177). -/
theorem addByte_eq_ofNat (sum b : Byte) : addByte sum b = BitVec.ofNat 8 (sum.toNat + b.toNat) := by
  rw [BitVec.ofNat_add, BitVec.ofNat_toNat, BitVec.ofNat_toNat, BitVec.setWidth_eq, BitVec.setWidth_eq, addByte]

/-- K_ADD with its addition as one of numbers (rule R177). -/
theorem kAdd_eq (r : Regs) :
    kAdd r =
      if r.k.toNat < 7 then
        { r with sum := BitVec.ofNat 8 (r.sum.toNat + (packetByte r.packet r.k.toNat).toNat), k := r.k + 1#3 }
      else { r with sub := 2#3 } := by
  rw [← addByte_eq_ofNat, kAdd, Config.csumBytes]

/-- From K_INIT on, ten micro-steps lead through the comparison of the recomputed sum: K_INIT, seven additions, the step that
finds no byte left, and K_CMP (rules R178, R179 (a)). -/
theorem checksum_runs {m : List Host.Cell} {r : Regs} (hs : r.stage = .symbolsDemodulated) (h0 : r.sub = 0#3) :
    ∃ k, MicroRuns m 10 r (kCmp { r with sub := 2#3, sum := Functional.sumOf r.packet, k := k }) := by
  have hinit : MicroRuns m 1 r (kInit r) := .sumInit hs h0 rfl
  obtain ⟨r', hadds, hr'⟩ := adds_runs (m := m) (r := kInit r) 7 hs rfl rfl rfl
  have hcmp : MicroRuns m 1 r' (kCmp r') := .sumCmp (by rw [hr']; exact hs) (by rw [hr']) rfl
  rw [hr'] at hadds hcmp
  exact ⟨r'.k, (hinit.trans hadds).trans hcmp⟩

/-- CHECKSUM's function answers exactly the recomputed sum and byte 7 where they differ (rules R175, R235). -/
theorem checksum_eq_some {p : Vector Byte 8} {expected actual : Byte} :
    Functional.checksum p = some (expected, actual) ↔
      expected = Functional.sumOf p ∧ actual = packetByte p 7 ∧ expected ≠ actual := by
  by_cases h : Functional.sumOf p = packetByte p 7
  · rw [checksum_eq_none.mpr h]
    refine ⟨nofun, ?_⟩
    rintro ⟨rfl, rfl, hne⟩
    exact absurd h hne
  · rw [Functional.checksum, if_neg h, Option.some.injEq, Prod.mk.injEq]
    refine ⟨?_, fun ⟨he, ha, _⟩ => ⟨he.symm, ha.symm⟩⟩
    rintro ⟨rfl, rfl⟩
    exact ⟨rfl, rfl, h⟩

/-- Byte `k` of the summed bytes counts once in the sum, beside what the other six bytes give (rule R175). -/
theorem sumOf_toNat_split (p : Vector Byte 8) {k : Nat} (hk : k < 7) :
    (Functional.sumOf p).toNat =
      ((packetByte p k).toNat + ∑ i ∈ (Finset.range 7).erase k, (packetByte p i).toNat) % 256 := by
  rw [Finset.add_sum_erase _ (fun i => (packetByte p i).toNat) (Finset.mem_range.mpr hk), sumOf_toNat]
  simp only [Finset.sum_range_succ, Finset.sum_range_zero, Nat.zero_add]

/-- The sum and six of the seven summed bytes fix the seventh: a byte is smaller than the modulus (rule R179 (c)). -/
theorem packetByte_eq_of_sumOf_eq {p p' : Vector Byte 8} {k : Nat} (hk : k < 7)
    (hothers : ∀ i, i < 7 → i ≠ k → packetByte p' i = packetByte p i) (hsum : Functional.sumOf p' = Functional.sumOf p) :
    packetByte p' k = packetByte p k := by
  have hrest : ∑ i ∈ (Finset.range 7).erase k, (packetByte p' i).toNat =
      ∑ i ∈ (Finset.range 7).erase k, (packetByte p i).toNat :=
    Finset.sum_congr rfl fun i hi => by
      obtain ⟨hne, hlt⟩ := Finset.mem_erase.mp hi
      rw [hothers i (Finset.mem_range.mp hlt) hne]
  have hmod := congrArg BitVec.toNat hsum
  rw [sumOf_toNat_split p' hk, sumOf_toNat_split p hk, hrest] at hmod
  have hlt := (packetByte p k).isLt
  have hlt' := (packetByte p' k).isLt
  apply BitVec.eq_of_toNat_eq
  omega

/-- The sum reads bytes 0 to 6 alone (rule R175). -/
theorem sumOf_congr {p p' : Vector Byte 8} (h : ∀ i, i < 7 → packetByte p' i = packetByte p i) :
    Functional.sumOf p' = Functional.sumOf p := by
  unfold Functional.sumOf
  rw [List.map_congr_left fun i hi => by rw [h i (List.mem_range.mp hi)]]

/-- A passing packet of which one byte is changed no longer passes (rule R179 (c)). -/
theorem checksum_ne_none_of_byte_changed {p p' : Vector Byte 8} {k : Nat} (hk : k < 8) (hp : Functional.checksum p = none)
    (hothers : ∀ i, i < 8 → i ≠ k → packetByte p' i = packetByte p i) (hchanged : packetByte p' k ≠ packetByte p k) :
    Functional.checksum p' ≠ none := by
  intro hp'
  rw [checksum_eq_none] at hp hp'
  by_cases hlast : k = 7
  · subst hlast
    have hsum : Functional.sumOf p' = Functional.sumOf p := sumOf_congr fun i hi => hothers i (by omega) (by omega)
    exact hchanged (hp'.symm.trans (hsum.trans hp))
  · have hbyte7 : packetByte p' 7 = packetByte p 7 := hothers 7 (by decide) (Ne.symm hlast)
    have hsum : Functional.sumOf p' = Functional.sumOf p := hp'.trans (hbyte7.trans hp.symm)
    exact hchanged (packetByte_eq_of_sumOf_eq (by omega) (fun i hi => hothers i (by omega)) hsum)

end Sys2Proof.Machine
end

section
namespace Sys2Proof

open Machine

/-- Settles O22: K_INIT and K_CMP are their rules word for word, and K_ADD's addition is that of numbers modulo 256. -/
theorem checksumMicroSteps : Obligations.ChecksumMicroSteps := by
  unfold Obligations.ChecksumMicroSteps
  intro st
  exact ⟨rfl, congrArg (fun r => st.finish (.ok r)) (kAdd_eq st.regs), rfl⟩

/-- Settles O27: the run from K_INIT on leads to the comparison of the recomputed sum, which is the function's own. -/
theorem checksumStepsComputeFunction : Obligations.ChecksumStepsComputeFunction := by
  unfold Obligations.ChecksumStepsComputeFunction
  intro st hrst hreq hstage hsub
  obtain ⟨k, hrun⟩ := checksum_runs (m := st.cap) hstage hsub
  refine ⟨_, hrun.runsBusyTo hrst hreq, ?_⟩
  unfold kCmp
  cases hsum : Functional.checksum st.regs.packet with
  | none =>
    rw [if_pos (checksum_eq_none.mp hsum)]
    exact ⟨rfl, rfl⟩
  | some w =>
    obtain ⟨he, ha, hne⟩ := checksum_eq_some.mp hsum
    rw [he, ha] at hne
    rw [if_neg hne]
    exact ⟨rfl, rfl, rfl, he.symm, ha.symm⟩

/-- Settles O36: a flipped bit changes its byte, and the sum and byte 7 agree for no packet that differs from a passing one in
one byte. -/
theorem checksumCatchesSingleFlip : Obligations.ChecksumCatchesSingleFlip := by
  unfold Obligations.ChecksumCatchesSingleFlip
  intro p p' k j hk hj hp hflip
  refine checksum_ne_none_of_byte_changed hk hp (fun i hi hne => ?_) ?_
  · rw [hflip i hi, if_neg hne]
  · rw [hflip k hk, if_pos rfl]
    exact xor_flip (packetByte p k) j hj

/-- Settles O37: passing is the recomputed sum being byte 7, compared as numbers, and a mismatch reports the two. -/
theorem checksumComparesSum : Obligations.ChecksumComparesSum := by
  unfold Obligations.ChecksumComparesSum
  intro p
  refine ⟨by rw [checksum_eq_none, ← BitVec.toNat_inj, sumOf_toNat], fun e a h => ?_⟩
  obtain ⟨he, ha, hne⟩ := checksum_eq_some.mp h
  exact ⟨by rw [he, sumOf_toNat], ha, hne⟩

end Sys2Proof
end

section
/-! SUPPORT. VALUE: rounding is to the nearest and monotone, a factor that is a power of two is exact, and the bounds of the
result. -/

namespace Sys2Proof.Machine

set_option exponentiation.threshold 1100

/-! ### Rounding -/

/-- A value is a multiple of the unit of its own binade and of every lower one. -/
theorem num_eq_mul_unit {y : F64} {e : Nat} (h : e ≤ max (Binary64.biased y) 1) : ∃ j, Binary64.num y = j * 2 ^ e := by
  refine ⟨Binary64.significand y * 2 ^ (max (Binary64.biased y) 1 - e), ?_⟩
  rw [Nat.mul_assoc, ← Nat.pow_add, Nat.sub_add_cancel h]
  rfl

/-- No pattern lies nearer to `n / d` than a finite `rn n d`, and a tie goes to the even one (rule R192). A pattern of a
binade at or above the result's is a multiple of the result's unit; one of a lower binade lies below the result's binade. -/
theorem rn_nearest {n d : Nat} (hd : 0 < d) (hf : Binary64.biased (Binary64.rn n d) < 2047) (y : F64) :
    |((Binary64.num (Binary64.rn n d) * d : Nat) : Int) - ((n * Binary64.den : Nat) : Int)| ≤
        |((Binary64.num y * d : Nat) : Int) - ((n * Binary64.den : Nat) : Int)| ∧
    (|((Binary64.num (Binary64.rn n d) * d : Nat) : Int) - ((n * Binary64.den : Nat) : Int)| =
        |((Binary64.num y * d : Nat) : Int) - ((n * Binary64.den : Nat) : Int)| →
      Binary64.num y ≠ Binary64.num (Binary64.rn n d) → (Binary64.rn n d).getLsbD 0 = false) := by
  obtain ⟨e, k, hk, -, -, -, -, hbinade, htoNat, hnum⟩ := rn_finite hd hf
  have hunit : ∀ j, j * 2 ^ e * d = j * (d * 2 ^ e) := fun j => by ring
  have hnearest := roundHalfEven_nearest (n * Binary64.den) (d * 2 ^ e) (Nat.mul_pos hd (Nat.two_pow_pos e))
  rw [← hk] at hnearest
  rw [hnum, hunit]
  by_cases hy : e ≤ max (Binary64.biased y) 1
  · obtain ⟨j, hj⟩ := num_eq_mul_unit hy
    rw [hj, hunit]
    refine ⟨(hnearest j).1, fun htie hne => ?_⟩
    have heven : k % 2 = 0 := (hnearest j).2 htie fun h => hne (by rw [h])
    rw [BitVec.getLsbD, htoNat, Nat.testBit_zero]
    simp only [decide_eq_false_iff_not]
    omega
  · have hleast : d * 2 ^ e * 2 ^ 52 ≤ n * Binary64.den := hbinade.resolve_left (by omega)
    have hnot := (hnearest (2 ^ 52)).1
    rw [Nat.mul_comm (2 ^ 52)] at hnot
    have hfar := farther (num_below (y := y) hd (by omega)) hleast hnot
    exact ⟨hfar.le, fun htie => absurd htie hfar.ne⟩

/-- The binade of a larger quotient is not lower. -/
theorem binade_mono {n n' d : Nat} (h : n ≤ n') : Binary64.binade n d ≤ Binary64.binade n' d := by
  have hle : n * Binary64.den / d ≤ n' * Binary64.den / d := Nat.div_le_div_right (Nat.mul_le_mul_right _ h)
  have hlog : Nat.log2 (n * Binary64.den / d) ≤ Nat.log2 (n' * Binary64.den / d) := by
    simp only [Nat.log2_eq_log_two]
    exact Nat.log_mono_right hle
  unfold Binary64.binade
  omega

/-- Rounding is monotone, past the last binade too: within one binade the significand is, and a significand of a lower binade
carries at most to the first of the next. -/
theorem rn_mono {n n' d : Nat} (hd : 0 < d) (h : n ≤ n') : (Binary64.rn n d).toNat ≤ (Binary64.rn n' d).toNat := by
  obtain ⟨e, k, he, hk, h1, hk_le, -, -, -, hx⟩ := rn_parts (n := n) hd
  obtain ⟨e', k', he', hk', -, -, hk_ge', -, -, hx'⟩ := rn_parts (n := n') hd
  have hle : e ≤ e' := by rw [he, he']; exact binade_mono h
  rw [hx, hx']
  refine min_le_min_right _ ?_
  rcases hle.eq_or_lt with heq | hlt
  · subst heq
    rw [hk, hk']
    exact Nat.add_le_add_left (roundHalfEven_mono (Nat.mul_le_mul_right _ h)) _
  · clear hk hk' hx hx' he he' h
    omega

/-- Of non-negative patterns the larger has the larger value. -/
theorem num_mono {x y : F64} (hx : x.getLsbD 63 = false) (hy : y.getLsbD 63 = false) (h : x.toNat ≤ y.toNat) :
    Binary64.num x ≤ Binary64.num y := by
  rcases h.eq_or_lt with heq | hlt
  · rw [BitVec.eq_of_toNat_eq heq]
  · exact (num_lt_num hx hy hlt).le

theorem mul_sign (x y : F64) : (Binary64.mul x y).getLsbD 63 = false := rn_sign _ den_mul_pos

theorem ofNat_sign (n : Nat) : (Binary64.ofNat n).getLsbD 63 = false := rn_sign _ Nat.one_pos

theorem ofNat_mono {n n' : Nat} (h : n ≤ n') : (Binary64.ofNat n).toNat ≤ (Binary64.ofNat n').toNat := rn_mono Nat.one_pos h

theorem mul_mono {x x' y y' : F64} (hx : Binary64.num x ≤ Binary64.num x') (hy : Binary64.num y ≤ Binary64.num y') :
    (Binary64.mul x y).toNat ≤ (Binary64.mul x' y').toNat :=
  rn_mono den_mul_pos (Nat.mul_le_mul hx hy)

theorem num_ofNat_mono {n n' : Nat} (h : n ≤ n') : Binary64.num (Binary64.ofNat n) ≤ Binary64.num (Binary64.ofNat n') :=
  num_mono (ofNat_sign n) (ofNat_sign n') (ofNat_mono h)

theorem ofNat_zero : Binary64.ofNat 0 = 0#64 := rn_zero 1

theorem mul_zero_left (y : F64) : Binary64.mul 0#64 y = 0#64 := by
  unfold Binary64.mul
  rw [num_zero, Nat.zero_mul, rn_zero]

theorem mul_zero_right (x : F64) : Binary64.mul x 0#64 = 0#64 := by
  unfold Binary64.mul
  rw [num_zero, Nat.mul_zero, rn_zero]

/-- Multiplying by a power of two is exact as long as the exponent stays in range (rule R189). -/
theorem num_mul_two_pow {x : F64} {b : Nat} (hb : b ≤ 900) (h : Binary64.biased x + b ≤ 2046) :
    Binary64.num (Binary64.mul x (Binary64.ofNat (2 ^ b))) = Binary64.num x * 2 ^ b := by
  have hexact : Binary64.num x * (2 ^ b * Binary64.den) * Binary64.den =
      Binary64.den * Binary64.den * (Binary64.significand x * 2 ^ (max (Binary64.biased x) 1 + b)) := by
    unfold Binary64.num
    rw [Nat.pow_add]
    ring
  unfold Binary64.mul
  rw [ofNat_two_pow hb, (rn_exact den_mul_pos (significand_lt x) (by omega) (by omega) hexact).1]
  unfold Binary64.num
  rw [Nat.pow_add]
  ring

/-! ### The product of VALUE -/

/-- The two multiplications of rule R191, for a mantissa and an integer factor. -/
def Functional.product (mant factor : Nat) : F64 :=
  Binary64.mul (Binary64.mul Functional.scale (Functional.ratio mant)) (Binary64.ofNat factor)

theorem value_eq_product (kNeg1 : Nat) (p : Vector Byte 8) :
    Functional.value kNeg1 p = Functional.product (mantissa p) (Functional.factor kNeg1 (exponent p)) := rfl

/-- VALUE for packet byte 6 of 1 or more, whatever `K_NEG1` is (rule R189). -/
theorem value_of_byte6_pos {kNeg1 : Nat} {p : Vector Byte 8} (h : 1 ≤ (packetByte p 6).toNat) :
    Functional.value kNeg1 p = Functional.product (mantissa p) (2 ^ (packetByte p 6).toNat) := by
  rw [value_eq_product, factor_pos h]

/-- VALUE for packet byte 6 equal to 0 (rule R190). -/
theorem value_of_byte6_zero {kNeg1 : Nat} {p : Vector Byte 8} (h : (packetByte p 6).toNat = 0) :
    Functional.value kNeg1 p = Functional.product (mantissa p) kNeg1 := by
  rw [value_eq_product, factor_zero h]

/-- The factor stays in the domain of rule R7. -/
theorem factor_le {kNeg1 : Nat} (h : kNeg1 ≤ 2 ^ 1023) (p : Vector Byte 8) :
    Functional.factor kNeg1 (exponent p) ≤ 2 ^ 1023 := by
  have hbyte := (packetByte p 6).isLt
  rcases Nat.eq_zero_or_pos (packetByte p 6).toNat with hzero | hpos
  · rwa [factor_zero hzero]
  · rw [factor_pos hpos]
    exact Nat.pow_le_pow_right Nat.two_pos (by omega)

theorem product_zero_factor (mant : Nat) : Functional.product mant 0 = 0#64 := by
  unfold Functional.product
  rw [ofNat_zero, mul_zero_right]

theorem product_zero_mantissa (factor : Nat) : Functional.product 0 factor = 0#64 := by
  have hratio : Functional.ratio 0 = 0#64 := by
    unfold Functional.ratio Binary64.div
    rw [ofNat_zero, num_zero, rn_zero]
  unfold Functional.product
  rw [hratio, mul_zero_right, mul_zero_left]

/-- A larger mantissa and a larger factor give no smaller result. -/
theorem product_mono {mant mant' factor factor' : Nat} (hm : mant ≤ mant') (hm' : mant' < 65536) (hf : factor ≤ factor') :
    (Functional.product mant factor).toNat ≤ (Functional.product mant' factor').toNat := by
  have hratio : Binary64.num (Functional.ratio mant) ≤ Binary64.num (Functional.ratio mant') := by
    rw [ratio_num (by omega), ratio_num hm']
    exact Nat.mul_le_mul_right _ hm
  have hscaled := num_mono (mul_sign _ _) (mul_sign _ _) (mul_mono (Nat.le_refl (Binary64.num Functional.scale)) hratio)
  exact mul_mono hscaled (num_ofNat_mono hf)

/-- The least product that is not 0. -/
theorem product_least : Functional.product 1 1 = 0x3EDEB6AE7D566CF4#64 := by decide +kernel

/-- The greatest product for a factor in the domain of rule R7. -/
theorem product_greatest : Functional.product 0xFFFF (2 ^ 1023) = 0x7FCEB68FC6A7EF9E#64 := by decide +kernel

/-- The lower end of the range of rule R194. -/
theorem product_least_of_byte6_pos : Functional.product 1 (2 ^ 1) = 0x3EEEB6AE7D566CF4#64 := by decide +kernel

/-- The upper end of the range of rule R194. -/
theorem product_greatest_of_byte6_pos : Functional.product 0xFFFF (2 ^ 255) = 0x4FCEB68FC6A7EF9E#64 := by decide +kernel

/-- No product with a factor in the domain of rule R7 is infinite, NaN or subnormal (rule R194). -/
theorem product_finite_zero_or_normal {mant factor : Nat} (hm : mant < 65536) (hf : factor ≤ 2 ^ 1023) :
    Binary64.biased (Functional.product mant factor) < 2047 ∧
      (Functional.product mant factor = 0#64 ∨ 1 ≤ Binary64.biased (Functional.product mant factor)) := by
  have hhigh := product_mono (Nat.le_of_lt_succ hm) (by decide) hf
  rw [product_greatest] at hhigh
  simp only [BitVec.reduceToNat] at hhigh
  rw [biased_eq]
  refine ⟨by omega, ?_⟩
  rcases Nat.eq_zero_or_pos mant with hzero | hmpos
  · exact .inl (by rw [hzero, product_zero_mantissa])
  · rcases Nat.eq_zero_or_pos factor with hzero | hfpos
    · exact .inl (by rw [hzero, product_zero_factor])
    · have hlow := product_mono hmpos hm hfpos
      rw [product_least] at hlow
      simp only [BitVec.reduceToNat] at hlow
      exact .inr (by omega)

/-- `SCALE` times the ratio is below 1. -/
theorem biased_scaled_le {mant : Nat} (h : mant < 65536) :
    Binary64.biased (Binary64.mul Functional.scale (Functional.ratio mant)) ≤ 1022 := by
  obtain ⟨-, e, k, -, he, -, hk, -, htoNat, -, -, -⟩ := scaled_spec h
  rw [biased_eq, htoNat]
  omega

/-- The second multiplication is exact for packet byte 6 of 1 or more (rule R191). -/
theorem num_product_two_pow {mant b : Nat} (hm : mant < 65536) (hb : b ≤ 255) :
    Binary64.num (Functional.product mant (2 ^ b)) =
      Binary64.num (Binary64.mul Functional.scale (Functional.ratio mant)) * 2 ^ b :=
  num_mul_two_pow (by omega) (Nat.add_le_add (biased_scaled_le hm) hb |>.trans (by decide))

/-- The relative error of the first multiplication and of `SCALE` together (rule R195). -/
theorem scaled_error {mant : Nat} (hm : mant < 65536) (hpos : 1 ≤ mant) :
    |((Binary64.num (Binary64.mul Functional.scale (Functional.ratio mant)) * (10000 * 65536) : Nat) : Int) -
        ((4799 * mant * Binary64.den : Nat) : Int)| * 2 ^ 52 < ((4799 * mant * Binary64.den : Nat) : Int) := by
  obtain ⟨-, e, k, -, -, -, -, hnum, -, hk, hbinade, -⟩ := scaled_spec hm
  have hQ : 2 ≤ mant * 2 ^ 1005 := (Nat.le_self_pow (by decide) 2).trans (Nat.le_mul_of_pos_left _ hpos)
  have hhalf := roundHalfEven_half (8645109844700404 * (mant * 2 ^ 1005)) (2 ^ e) (Nat.two_pow_pos e)
  rw [← hk, ← hnum] at hhalf
  have hunit : 2 ^ e * 2 ^ 52 ≤ 8645109844700404 * (mant * 2 ^ 1005) := by
    rcases hbinade with hone | hle
    · rw [hone]
      exact le_trans (by decide) (Nat.mul_le_mul_left 8645109844700404 hQ)
    · exact hle
  have hexact : 4799 * mant * Binary64.den = 4799 * 2 ^ 70 * (mant * 2 ^ 1005) := by
    rw [den_split (a := 70) (b := 1005) rfl]
    ring
  rw [hexact]
  exact error_sum hhalf hunit (Nat.zero_lt_of_lt hQ)

end Sys2Proof.Machine
end

section
namespace Sys2Proof

open Machine

/-- Settles O43: the significand is rounded to the nearest even in the result's unit, and a lower binade lies farther away. -/
theorem roundingIsNearestEven : Obligations.RoundingIsNearestEven := by
  unfold Obligations.RoundingIsNearestEven
  intro n d y hd hf _
  exact rn_nearest hd hf y

/-- Settles O44: mantissa and divisor convert exactly, and their quotient is a mantissa of 16 bits in the unit `2^-16`. -/
theorem ratioIsExact : Obligations.RatioIsExact := by
  unfold Obligations.RatioIsExact
  intro p
  rw [ratio_num (mantissa_lt p), den_split16, mantissa]
  generalize 2 ^ 1059 = P
  ring

/-- Settles O45: scaling by a power of two is exact, and for packet byte 6 equal to 0 the factor is the open parameter. -/
theorem valueIsScaledProduct : Obligations.ValueIsScaledProduct := by
  unfold Obligations.ValueIsScaledProduct
  intro kNeg1 p
  refine ⟨fun hpos => ?_, fun hzero => ⟨_, rfl, ?_, fun hk => ?_⟩⟩
  · rw [value_of_byte6_pos hpos, num_product_two_pow (mantissa_lt p) (Nat.le_of_lt_succ (packetByte p 6).isLt)]
  · rw [value_of_byte6_zero hzero]
    rfl
  · rw [value_of_byte6_zero hzero, hk, product_zero_factor]

/-- Settles O46: the second multiplication is exact, so the error is that of the first one and of `SCALE`, scaled. -/
theorem valueRelativeError : Obligations.ValueRelativeError := by
  unfold Obligations.ValueRelativeError
  intro kNeg1 p hpos hm
  have herror := scaled_error (mantissa_lt p) hm
  rw [value_of_byte6_pos hpos, num_product_two_pow (mantissa_lt p) (Nat.le_of_lt_succ (packetByte p 6).isLt)]
  generalize Binary64.num (Binary64.mul Functional.scale (Functional.ratio (mantissa p))) = X at herror ⊢
  generalize (packetByte p 6).toNat = b
  have hscale : (0 : Int) < 2 ^ b := by positivity
  have hX : ((X * 2 ^ b * (10000 * 65536) : Nat) : Int) = ((X * (10000 * 65536) : Nat) : Int) * 2 ^ b := by
    push_cast
    ring
  have hE : ((4799 * mantissa p * 2 ^ b * Binary64.den : Nat) : Int) =
      ((4799 * mantissa p * Binary64.den : Nat) : Int) * 2 ^ b := by
    push_cast
    ring
  rw [hX, hE, ← sub_mul, abs_mul, abs_of_pos hscale, mul_right_comm]
  exact mul_lt_mul_of_pos_right herror hscale

/-- Settles O47: the product is monotone in the mantissa and in the factor, so the extreme operands give the bounds. -/
theorem valueRange : Obligations.ValueRange := by
  unfold Obligations.ValueRange
  intro kNeg1 p hk
  have hm := mantissa_lt p
  obtain ⟨hfinite, hnormal⟩ := product_finite_zero_or_normal hm (factor_le hk p)
  refine ⟨mul_sign _ _, hfinite, hnormal, fun hzero => ?_, fun hmpos hpos => ?_⟩
  · rw [value_eq_product, hzero, product_zero_mantissa]
  · have hlow := product_mono hmpos hm (Nat.pow_le_pow_right Nat.two_pos hpos)
    have hhigh := product_mono (Nat.le_of_lt_succ hm) (by decide)
      (Nat.pow_le_pow_right Nat.two_pos (Nat.le_of_lt_succ (packetByte p 6).isLt))
    rw [product_least_of_byte6_pos] at hlow
    rw [product_greatest_of_byte6_pos] at hhigh
    rw [value_of_byte6_pos hpos]
    exact ⟨hlow, hhigh⟩

/-- Settles O48: VALUE reads the mantissa (bytes 4 and 5) and the exponent (byte 6) alone, and the factor for packet byte 6 of
1 or more is a power of two. -/
theorem valueReadsBytesFourToSix : Obligations.ValueReadsBytesFourToSix := by
  unfold Obligations.ValueReadsBytesFourToSix
  refine ⟨fun kNeg1 p p' h => ?_, fun k k' p hpos => ?_⟩
  · have hmantissa : mantissa p = mantissa p' := by
      unfold mantissa
      rw [h 4 (by decide) (by decide), h 5 (by decide) (by decide)]
    have hexponent : exponent p = exponent p' := by
      unfold exponent
      rw [h 6 (by decide) (by decide)]
    rw [value_eq_product, value_eq_product, hmantissa, hexponent]
  · rw [value_of_byte6_pos hpos, value_of_byte6_pos hpos]

/-- Settles O23: VALUE has one micro-step, V_EVAL, whose writes are the three that rule R196 names. -/
theorem valueMicroStep : Obligations.ValueMicroStep := by
  unfold Obligations.ValueMicroStep
  exact fun _ => rfl

/-- Settles O42: each pattern is what the model computes; `SCALE` is `2161277461175101` in the unit `2^-52`. -/
theorem valueExamples : Obligations.ValueExamples := by
  unfold Obligations.ValueExamples
  refine ⟨scale_eq, ?_, ?_⟩
  · rw [scale_num, den_split (a := 54) (b := 1021) rfl]
    generalize 2 ^ 1021 = P
    ring
  · decide +kernel

end Sys2Proof
end

section
/-! SUPPORT. How a step moves between the stages: the ways a micro-step can leave its stage, said once, and what the start step
and a step with other command inputs do (rules R208 to R212). -/

namespace Sys2Proof.Machine

/-- The stages that succeed and the stages they lead to (rule R208). -/
def Stage.advances : List (Stage × Stage) :=
  [(.start, .preambleFound), (.preambleFound, .syncFound), (.syncFound, .symbolsDemodulated),
    (.symbolsDemodulated, .checksumVerified), (.checksumVerified, .done)]

/-- The stages that can fail and the one failure kind of each (rule R210). -/
def Stage.failures : List (Stage × ErrKind) :=
  [(.start, .preambleNotFound), (.preambleFound, .syncNotFound), (.syncFound, .insufficientSymbols),
    (.symbolsDemodulated, .checksumMismatch)]

/-- The transitions out of the busy stages (rule R208). -/
def Stage.exits : List (Stage × Stage) := Stage.advances ++ Stage.failures.map fun p => (p.1, .failed)

/-- Only a busy stage is left by its own micro-step. -/
theorem Stage.busy_of_exit {p : Stage × Stage} (h : p ∈ Stage.exits) : stageBusy p.1 = true := by
  revert p
  decide

/-- No busy stage is left for Idle (rule R212). -/
theorem Stage.exit_ne_idle {p : Stage × Stage} (h : p ∈ Stage.exits) : p.2 ≠ .idle := by
  revert p
  decide

/-- A success does not lead to Failed. -/
theorem Stage.advance_ne_failed {p : Stage × Stage} (h : p ∈ Stage.advances) : p.2 ≠ .failed := by
  revert p
  decide

/-- What a write of `r'` over `r` does to the stage: it stays, it advances with `sub = 0`, or its one failure is raised, over
no other write than that of the two payload registers by a mismatch (rules R208, R210, R235, R236). -/
inductive StageMove (r r' : Regs) : Prop where
  | stay (h : r'.stage = r.stage)
  | advance {g g' : Stage} (hg : r.stage = g) (hg' : r'.stage = g') (hpair : (g, g') ∈ Stage.advances) (hsub : r'.sub = 0#3)
  | fail {g : Stage} {e : ErrKind} (hg : r.stage = g) (hpair : (g, e) ∈ Stage.failures)
      (hregs : r' = Regs.raise e { r with csumExpected := r'.csumExpected, csumActual := r'.csumActual })
      (hpayload : e ≠ .checksumMismatch → r'.csumExpected = r.csumExpected ∧ r'.csumActual = r.csumActual)

/-- A failure without a payload. -/
theorem StageMove.raise {r : Regs} {g : Stage} {e : ErrKind} (hg : r.stage = g) (hpair : (g, e) ∈ Stage.failures) :
    StageMove r (r.raise e) :=
  .fail hg hpair rfl fun _ => ⟨rfl, rfl⟩

/-- A success of the stage (rule R208). -/
theorem StageMove.goto {r r0 : Regs} {g g' : Stage} (hg : r.stage = g) (hpair : (g, g') ∈ Stage.advances) :
    StageMove r (Regs.goto g' r0) :=
  .advance hg rfl hpair rfl

section Moves
variable {m : List Host.Cell} {r r' : Regs}

theorem pCand_move (hg : r.stage = .start) : StageMove r (pCand r) := by
  unfold pCand
  split
  · exact .stay rfl
  · exact .raise hg (by decide)

theorem pWalk_move (h : pWalk m r = .ok r') : StageMove r r' := by
  unfold pWalk at h
  split at h
  · split at h
    · split at h <;> cases h <;> exact .stay rfl
    · cases h
  · cases h
    exact .stay rfl

theorem pJudge_move (hg : r.stage = .start) : StageMove r (pJudge r) := by
  unfold pJudge
  split
  · exact .goto hg (by decide)
  · exact .stay rfl

theorem sCheck_move (hg : r.stage = .preambleFound) : StageMove r (sCheck r) := by
  unfold sCheck
  split
  · exact .raise hg (by decide)
  · exact .stay rfl

theorem sShift_move (hg : r.stage = .preambleFound) (h : sShift m r = .ok r') : StageMove r r' := by
  unfold sShift at h
  split at h
  · split at h
    · dsimp only at h
      split at h <;> cases h
      · exact .goto hg (by decide)
      · exact .stay rfl
    · cases h
  · cases h
    exact .raise hg (by decide)

theorem mSymbol_move (hg : r.stage = .syncFound) : StageMove r (mSymbol r) := by
  unfold mSymbol
  split
  · exact .goto hg (by decide)
  · split
    · exact .raise hg (by decide)
    · exact .stay rfl

theorem mZeros_move (h : mZeros m r = .ok r') : StageMove r r' := by
  unfold mZeros at h
  split at h
  · split at h
    · split at h <;> cases h <;> exact .stay rfl
    · cases h
  · cases h
    exact .stay rfl

theorem mOnes_move (h : mOnes m r = .ok r') : StageMove r r' := by
  unfold mOnes at h
  split at h
  · split at h
    · split at h <;> cases h <;> exact .stay rfl
    · cases h
  · cases h
    exact .stay rfl

theorem mJudge_move (hg : r.stage = .syncFound) : StageMove r (mJudge r) := by
  unfold mJudge
  split
  · exact .raise hg (by decide)
  · exact .stay rfl

theorem kAdd_move (r : Regs) : StageMove r (kAdd r) := by
  unfold kAdd
  split <;> exact .stay rfl

theorem kCmp_move (hg : r.stage = .symbolsDemodulated) : StageMove r (kCmp r) := by
  unfold kCmp
  split
  · exact .goto hg (by decide)
  · exact .fail hg (e := .checksumMismatch) (by decide) rfl fun h => absurd rfl h

/-- Every micro-step moves between the stages in one of the three ways. -/
theorem microStep_move (h : microStep m r = .ok r') : StageMove r r' := by
  unfold microStep at h
  split at h
  next hg =>
    split at h
    · cases h
      exact pCand_move hg
    · exact pWalk_move h
    · cases h
      exact pJudge_move hg
  next hg =>
    split at h
    · cases h
      exact sCheck_move hg
    · exact sShift_move hg h
  next hg =>
    split at h
    · cases h
      exact .stay rfl
    · cases h
      exact mSymbol_move hg
    · exact mZeros_move h
    · exact mOnes_move h
    · cases h
      exact mJudge_move hg
  next hg =>
    split at h <;> cases h
    · exact .stay rfl
    · exact kAdd_move r
    · exact kCmp_move hg
  next hg =>
    cases h
    exact .goto hg (by decide)
  all_goals
    cases h
    exact .stay rfl

/-- A micro-step that changes the stage takes one of the listed transitions of a busy stage, with `sub = 0` (rule R208). -/
theorem StageMove.exit_of_ne (h : StageMove r r') (hne : r'.stage ≠ r.stage) :
    r'.sub = 0#3 ∧ (r.stage, r'.stage) ∈ Stage.exits := by
  cases h with
  | stay hs => exact absurd hs hne
  | advance hg hg' hpair hsub =>
    rw [hg, hg']
    exact ⟨hsub, List.mem_append_left _ hpair⟩
  | fail hg hpair hregs _ =>
    rw [hg, hregs]
    exact ⟨rfl, List.mem_append_right _ (List.mem_map_of_mem hpair)⟩

/-- A micro-step that leads to Failed raises the stage's one failure (rules R210, R236). -/
theorem StageMove.raises (h : StageMove r r') (hne : r'.stage ≠ r.stage) (hfailed : r'.stage = .failed) :
    ∃ e, (r.stage, e) ∈ Stage.failures ∧
      r' = Regs.raise e { r with csumExpected := r'.csumExpected, csumActual := r'.csumActual } ∧
      (e ≠ .checksumMismatch → r'.csumExpected = r.csumExpected ∧ r'.csumActual = r.csumActual) := by
  cases h with
  | stay hs => exact absurd hs hne
  | advance _ hg' hpair _ =>
    rw [hg'.symm.trans hfailed] at hpair
    exact absurd rfl (Stage.advance_ne_failed hpair)
  | @fail g e hg hpair hregs hpayload =>
    rw [hg]
    exact ⟨e, hpair, hregs, hpayload⟩

/-- In a stage that is not busy the micro-step changes nothing (rule R212). -/
theorem microStep_of_not_busy (m : List Host.Cell) (h : stageBusy r.stage = false) : microStep m r = .ok r := by
  unfold microStep
  cases hg : r.stage with
  | idle | done | failed => rfl
  | start | preambleFound | syncFound | symbolsDemodulated | checksumVerified =>
    rw [hg] at h
    cases h

end Moves

/-- The start step leads to Start or to Failed, with `sub = 0` (rules R207, R209). -/
theorem Regs.startCall_stage (n : BitVec 8) :
    ((Regs.startCall n).stage = .start ∨ (Regs.startCall n).stage = .failed) ∧ (Regs.startCall n).sub = 0#3 := by
  cases h : entryCheck n.toNat
  · rw [Regs.startCall_rejected h]
    exact ⟨.inr rfl, rfl⟩
  · rw [Regs.startCall_accepted h]
    exact ⟨.inl rfl, rfl⟩

/-- The stages that are not busy (rule R28). -/
theorem State.not_busy_stage {st : State} (h : st.busy = false) :
    st.regs.stage = .idle ∨ st.regs.stage = .done ∨ st.regs.stage = .failed := by
  unfold State.busy at h
  revert h
  cases st.regs.stage <;> decide

/-- The entry check, as the comparison that the statements make (rule R207). -/
theorem entryCheck_eq_false {n : Nat} : entryCheck n = false ↔ n = 0 ∨ 128 < n := by
  simp only [entryCheck, Config.capacity, Bool.and_eq_false_iff, decide_eq_false_iff_not]
  omega

theorem entryCheck_eq_true {n : Nat} : entryCheck n = true ↔ ¬ (n = 0 ∨ 128 < n) := by
  rw [← entryCheck_eq_false, Bool.not_eq_false]

/-- The bit length as the number that the statements write (rule R207). -/
theorem bitLength_eq_ofNat (n : BitVec 8) : bitLength n = BitVec.ofNat 11 (8 * n.toNat) := by
  have := n.isLt
  apply BitVec.eq_of_toNat_eq
  rw [bitLength_toNat, BitVec.toNat_ofNat, Nat.mod_eq_of_lt (by omega)]

/-- A call that passes the entry check does not answer NotEnoughData: its five stages have other failures (rule R205). -/
theorem decode_ne_notEnoughData {kNeg1 n : Nat} {m : List Host.Cell} (hn : ¬ (n = 0 ∨ Config.capacity < n)) :
    Functional.decode kNeg1 n m ≠ .err .notEnoughData := by
  rw [Functional.decode, if_neg hn]
  split
  · nofun
  · split
    · nofun
    · split
      · nofun
      · split <;> nofun

/-- The state with other command inputs (rule R21 (b), (c)). -/
abbrev State.withCommand (st : State) (start : Bool) (n : BitVec 8) : State := { st with start := start, readBytes := n }

section Command
variable {st t : State} (b : Bool) (n : BitVec 8)

/-- Completing a micro-step reads no command input. -/
theorem State.finish_withCommand {x : Except Fault Regs} (h : st.finish x = .next t) :
    (st.withCommand b n).finish x = .next (t.withCommand b n) := by
  obtain ⟨r, rfl, rfl⟩ := State.finish_eq_next.mp h
  rfl

/-- BITAT reads no command input (rule R110). -/
theorem execBitat_withCommand {a : BitVec 7} {j : BitVec 3} (h : execBitat a j st = .next t) :
    execBitat a j (st.withCommand b n) = .next (t.withCommand b n) := by
  unfold execBitat at h ⊢
  dsimp only
  cases hbit : bitAt st.cap st.regs.blen.toNat (bitIndex a j).toNat with
  | error f =>
    rw [hbit] at h
    cases h
  | ok v =>
    rw [hbit] at h
    cases h
    rfl

/-- A request is pending where `noRequest` fails. -/
theorem State.request_of_not_noRequest (h : st.noRequest = false) : ∃ i, st.bitat = .request i := by
  unfold State.noRequest at h
  split at h
  next i hi => exact ⟨i, hi⟩
  next => cases h

/-- A step of a busy stage neither samples the command inputs nor remembers them (rules R209, R262, R264). -/
theorem step_withCommand_of_busy (hbusy : st.busy = true) (h : step st = .next t) :
    step (st.withCommand b n) = .next (t.withCommand b n) := by
  cases hrst : st.rst with
  | true =>
    rw [step_of_rst hrst] at h
    cases h
    exact step_of_rst hrst
  | false =>
    cases hreq : st.noRequest with
    | false =>
      obtain ⟨i, hi⟩ := State.request_of_not_noRequest hreq
      rw [step_of_request hrst hi] at h
      rw [step_of_request (st := st.withCommand b n) hrst hi]
      exact execBitat_withCommand b n h
    | true =>
      have hsam := State.not_sampled_of_busy_or_not_start (.inl hbusy)
      have hsam' := State.not_sampled_of_busy_or_not_start (st := st.withCommand b n) (.inl hbusy)
      cases hl : st.regs.stage.lists st.regs.sub with
      | false =>
        rw [step_of_unlisted hrst hreq hsam hl] at h
        cases h
      | true =>
        rw [step_of_stage hrst hreq hsam hl, exec_operation hl] at h
        rw [step_of_stage (st := st.withCommand b n) hrst hreq hsam' hl, exec_operation (st := st.withCommand b n) hl]
        exact State.finish_withCommand b n h

end Command

end Sys2Proof.Machine
end

section
namespace Sys2Proof

open Machine

/-- Settles O6: reset, BITAT and the micro-step of a busy stage are all that its step can run, and none reads the command. -/
theorem commandIgnoredWhileBusy : Obligations.CommandIgnoredWhileBusy :=
  fun _ _ b n hbusy hs => step_withCommand_of_busy b n hbusy hs

/-- Settles O9: a stage changes by a start step, which leads to Start or Failed, or by the micro-step of a busy stage. -/
theorem stageTransitions : Obligations.StageTransitions := by
  unfold Obligations.StageTransitions
  intro st t hrst hs hne
  obtain ⟨i, b, -, -, rfl⟩ | ⟨-, hsam, hbusy, rfl⟩ | ⟨-, -, -, r, hm, rfl⟩ := step_next_cases hrst hs
  · exact absurd rfl hne
  · obtain ⟨hstage, hsub⟩ := Regs.startCall_stage st.readBytes
    refine ⟨hsub, fun _ => hsam, ?_⟩
    dsimp only at hne ⊢
    rcases State.not_busy_stage hbusy with hg | hg | hg <;> rcases hstage with hg' | hg' <;> rw [hg, hg'] at hne ⊢
    case inr.inr.inr => exact absurd rfl hne
    all_goals decide
  · obtain ⟨hsub, hexit⟩ := (microStep_move hm).exit_of_ne hne
    have hbusy : st.busy = true := Stage.busy_of_exit hexit
    exact ⟨hsub, fun hidle => absurd (hidle.symm.trans hbusy) Bool.false_ne_true,
      (show Stage.exits ⊆ _ by decide) hexit⟩

/-- Settles O10: a busy stage reaches Failed by raising its one failure, with the payload registers written by a mismatch
alone. -/
theorem failureKindFollowsStage : Obligations.FailureKindFollowsStage := by
  unfold Obligations.FailureKindFollowsStage
  intro st t hrst hbusy hs hfailed
  have hne : t.regs.stage ≠ st.regs.stage := by
    intro h
    rw [State.busy, ← h, hfailed] at hbusy
    cases hbusy
  obtain ⟨i, b, -, -, rfl⟩ | ⟨-, -, hidle, rfl⟩ | ⟨-, -, -, r, hm, rfl⟩ := step_next_cases hrst hs
  · exact absurd rfl hne
  · exact absurd (hidle.symm.trans hbusy) Bool.false_ne_true
  · obtain ⟨e, hpair, hregs, hpayload⟩ := (microStep_move hm).raises hne hfailed
    have herr : r.err = some e := by rw [hregs]; rfl
    dsimp only
    rw [herr]
    exact ⟨List.mem_map_of_mem (f := fun p => (p.1, some p.2)) hpair, hregs,
      fun hkind => hpayload fun h => hkind (congrArg some h)⟩

/-- Settles O13: a holding operation answers its own state, a micro-step of a stage that is not busy writes nothing, and neither
a start step nor a change of stage leads to Idle. -/
theorem holdingStatesHold : Obligations.HoldingStatesHold := by
  unfold Obligations.HoldingStatesHold
  refine ⟨fun _ => ⟨rfl, rfl, rfl⟩, fun st hrst hreq hbusy hsub hstart => ?_, fun st t hrst hs hidle => ?_⟩
  · have hlist : st.regs.stage.lists st.regs.sub = true := hsub ▸ lists_zero _
    rw [step_of_stage hrst hreq (State.not_sampled_of_busy_or_not_start (.inr hstart)) hlist, exec_operation hlist,
      microStep_of_not_busy st.cap hbusy]
    rfl
  · obtain ⟨i, b, -, -, rfl⟩ | ⟨-, -, -, rfl⟩ | ⟨-, -, -, r, hm, rfl⟩ := step_next_cases hrst hs
    · exact hidle
    · obtain ⟨hstage, -⟩ := Regs.startCall_stage st.readBytes
      rw [hidle] at hstage
      rcases hstage with h | h <;> cases h
    · by_contra hne
      obtain ⟨-, hexit⟩ := (microStep_move hm).exit_of_ne (by rw [hidle]; exact Ne.symm hne)
      exact Stage.exit_ne_idle hexit hidle

/-- Settles O11: the start step's registers, with the entry check and the bit length as numbers. -/
theorem startStep : Obligations.StartStep := by
  unfold Obligations.StartStep
  intro n st hbusy
  rw [exec_decode_of_not_busy hbusy]
  by_cases h : n.toNat = 0 ∨ 128 < n.toNat
  · rw [if_pos h, Regs.startCall_rejected (entryCheck_eq_false.mpr h)]
    rfl
  · rw [if_neg h, Regs.startCall_accepted (entryCheck_eq_true.mpr h), bitLength_eq_ofNat]
    rfl

/-- Settles O41: the entry check alone answers NotEnoughData, and no candidate's 32 bits fit in 24 valid bits. -/
theorem countDecidesEntry : Obligations.CountDecidesEntry := by
  unfold Obligations.CountDecidesEntry
  intro kNeg1 n m
  refine ⟨⟨fun h => ?_, fun h => if_pos h⟩, fun h1 h3 => ?_⟩
  · by_contra hn
    exact decode_ne_notEnoughData hn h
  · have hpre : Functional.preamble m (8 * n) = none :=
      (preamble_eq_none_iff (by omega)).mpr fun s hs => absurd hs (by omega)
    have hn : ¬ (n = 0 ∨ Config.capacity < n) := by
      rw [Config.capacity]
      omega
    rw [Functional.decode, if_neg hn, hpre]

end Sys2Proof
end

section
/-! SUPPORT. The call from each stage's entry on: the outcome as what the stages still to run answer, and that the micro-steps
end with it (rules R205, R211, R216). -/

namespace Sys2Proof.Machine

/-- The outcome from CHECKSUM on, for a packet and the quality counted before it (rule R205). -/
def Functional.fromChecksum (kNeg1 : Nat) (packet : Vector Byte 8) (quality : Nat) : CallOutcome :=
  match Functional.checksum packet with
  | some (expected, actual) => .err (.checksumMismatch expected actual)
  | none => .ok (Functional.value kNeg1 packet) packet quality

/-- The outcome from DEMOD on. -/
def Functional.fromDemod (kNeg1 : Nat) (m : List Host.Cell) (blen syncEnd quality : Nat) : CallOutcome :=
  match Functional.demod m blen syncEnd with
  | none => .err .insufficientSymbols
  | some (packet, _) => Functional.fromChecksum kNeg1 packet quality

/-- The outcome from SYNC on. -/
def Functional.fromSync (kNeg1 : Nat) (m : List Host.Cell) (blen preEnd quality : Nat) : CallOutcome :=
  match Functional.sync m blen preEnd with
  | none => .err .syncNotFound
  | some syncEnd => Functional.fromDemod kNeg1 m blen syncEnd quality

/-- The outcome from PREAMBLE on. -/
def Functional.fromPreamble (kNeg1 : Nat) (m : List Host.Cell) (blen : Nat) : CallOutcome :=
  match Functional.preamble m blen with
  | none => .err .preambleNotFound
  | some (preEnd, quality) => Functional.fromSync kNeg1 m blen preEnd quality

/-- The outcome of a call: the entry check, then the stages in turn (rule R205). -/
theorem decode_eq_fromPreamble (kNeg1 n : Nat) (m : List Host.Cell) :
    Functional.decode kNeg1 n m =
      if n = 0 ∨ 128 < n then .err .notEnoughData else Functional.fromPreamble kNeg1 m (8 * n) := rfl

/-- From these registers on the call ends within `bound` micro-steps, with that outcome. -/
def EndsWith (m : List Host.Cell) (bound : Nat) (r : Regs) (o : CallOutcome) : Prop :=
  ∃ n r', n ≤ bound ∧ MicroRuns m n r r' ∧ stageDone r'.stage = true ∧ r'.outcome = some o

section Ends
variable {m : List Host.Cell} {r r' : Regs}

/-- A run that leads to where the call ends within a bound adds its steps to the bound. -/
theorem MicroRuns.endsWith {n bound total : Nat} {o : CallOutcome} (hrun : MicroRuns m n r r') (h : EndsWith m bound r' o)
    (hn : n + bound ≤ total) : EndsWith m total r o := by
  obtain ⟨k, r'', hk, hrun', hdone, ho⟩ := h
  exact ⟨n + k, r'', by omega, hrun.trans hrun', hdone, ho⟩

/-- A failed call has ended, with the failure that the registers report (rule R211). -/
theorem EndsWith.of_failed {bound : Nat} {e : DecodeError} (hs : r.stage = .failed) (he : r.failure = some e) :
    EndsWith m bound r (.err e) :=
  ⟨0, r, Nat.zero_le _, rfl, by rw [hs]; rfl, by rw [Regs.outcome, hs, he]; rfl⟩

/-- From VALUE on the call succeeds in one step (rule R196). -/
theorem value_ends (hs : r.stage = .checksumVerified) (h0 : r.sub = 0#3) :
    EndsWith m 1 r (.ok (Functional.value Config.kNeg1 r.packet) r.packet r.quality.toNat) :=
  ⟨1, vEval r, le_rfl, .eval hs h0 rfl, rfl, rfl⟩

/-- From CHECKSUM on the call ends within 11 steps (rules R178, R196). -/
theorem checksum_ends (hs : r.stage = .symbolsDemodulated) (h0 : r.sub = 0#3) :
    EndsWith m 11 r (Functional.fromChecksum Config.kNeg1 r.packet r.quality.toNat) := by
  obtain ⟨k, hrun⟩ := checksum_runs (m := m) hs h0
  refine hrun.endsWith (bound := 1) ?_ le_rfl
  unfold kCmp Functional.fromChecksum
  cases hsum : Functional.checksum r.packet with
  | none =>
    rw [if_pos (checksum_eq_none.mp hsum)]
    exact value_ends rfl rfl
  | some w =>
    obtain ⟨expected, actual⟩ := w
    obtain ⟨rfl, rfl, hne⟩ := checksum_eq_some.mp hsum
    rw [if_neg hne]
    exact .of_failed rfl rfl

/-- From DEMOD on the call ends within 1248 steps (rule R166). -/
theorem demod_ends (hs : r.stage = .syncFound) (h0 : r.sub = 0#3) (hb : r.blen.toNat ≤ 1024)
    (hge : 48 ≤ r.syncEnd.toNat) (hle : r.syncEnd.toNat ≤ r.blen.toNat) :
    EndsWith m 1248 r (Functional.fromDemod Config.kNeg1 m r.blen.toNat r.syncEnd.toNat r.quality.toNat) := by
  have hinit : MicroRuns m 1 r (mInit r) := .init hs h0 rfl
  obtain ⟨n, r', hrun, hn, hres⟩ := symbols_runs (m := m) (r := mInit r) Config.pktBits hs rfl hb hle rfl
  have hcount : n ≤ r.blen.toNat - r.syncEnd.toNat + 4 * 64 + 1 := hn
  have hloop : Functional.demodFrom m (mInit r).blen.toNat Config.pktBits (mInit r).packet (mInit r).pos.toNat =
      Functional.demod m r.blen.toNat r.syncEnd.toNat := rfl
  rw [hloop] at hres
  refine (hinit.trans hrun).endsWith (bound := 11) ?_ (by omega)
  unfold Functional.fromDemod
  cases hfound : Functional.demod m r.blen.toNat r.syncEnd.toNat with
  | none =>
    rw [hfound] at hres
    rw [hres]
    exact .of_failed rfl rfl
  | some w =>
    rw [hfound] at hres
    obtain ⟨hregs, -⟩ := hres
    rw [hregs]
    exact checksum_ends rfl rfl

/-- From SYNC on the call ends within 2242 steps (rule R146). -/
theorem sync_ends (hs : r.stage = .preambleFound) (h0 : r.sub = 0#3) (hb : r.blen.toNat ≤ 1024)
    (hge : 32 ≤ r.preEnd.toNat) (hle : r.preEnd.toNat ≤ r.blen.toNat) :
    EndsWith m 2242 r (Functional.fromSync Config.kNeg1 m r.blen.toNat r.preEnd.toNat r.quality.toNat) := by
  have hcheck : MicroRuns m 1 r (sCheck r) := .check hs h0 rfl
  by_cases hshort : r.blen.toNat < r.preEnd.toNat + Config.syncBits
  · rw [sCheck, if_pos hshort] at hcheck
    rw [Functional.fromSync, Functional.sync, if_pos hshort]
    exact hcheck.endsWith (bound := 0) (.of_failed rfl rfl) (by omega)
  · rw [sCheck, if_neg hshort] at hcheck
    have hsync : Functional.sync m r.blen.toNat r.preEnd.toNat =
        Functional.syncFrom m r.blen.toNat Config.maxBits r.preEnd.toNat := if_neg hshort
    rw [Config.syncBits] at hshort
    obtain ⟨n, r', hrun, hn, hres⟩ := shift_runs (m := m) (r.blen.toNat - r.preEnd.toNat) Config.maxBits r.preEnd.toNat
      (r := { r with pos := r.preEnd, acc := 0#16, sub := 1#3 }) hs rfl hb (Nat.add_sub_cancel' hle) le_rfl
      (accHolds_zero m _) (by dsimp only; omega) (by dsimp only; omega) (by rw [Config.maxBits]; dsimp only; omega)
    rw [← hsync] at hres
    refine (hcheck.trans hrun).endsWith (bound := 1248) ?_ (by omega)
    unfold Functional.fromSync
    cases hfound : Functional.sync m r.blen.toNat r.preEnd.toNat with
    | none =>
      rw [hfound] at hres
      rw [hres]
      exact .of_failed rfl rfl
    | some syncEnd =>
      rw [hfound] at hres
      obtain ⟨hregs, rfl⟩ := hres
      obtain ⟨hge', hle'⟩ := sync_found_bounds hb hfound
      have hblen : r'.blen = r.blen := by rw [hregs]
      have hquality : r'.quality = r.quality := by rw [hregs]
      rw [← hblen] at hb hle' ⊢
      rw [← hquality]
      exact demod_ends (by rw [hregs]) (by rw [hregs]) hb (by omega) hle'

/-- From PREAMBLE on the call ends within 12431 steps (rule R129). -/
theorem preamble_ends (hs : r.stage = .start) (h0 : r.sub = 0#3) (hb : r.blen.toNat ≤ 1024) (hs0 : r.s = 0#11) :
    EndsWith m 12431 r (Functional.fromPreamble Config.kNeg1 m r.blen.toNat) := by
  have hstart : r.s.toNat = 0 := by rw [hs0]; rfl
  obtain ⟨n, r', hrun, hn, hres⟩ := cand_runs (m := m) Config.maxBits hs h0 hb (by omega) (by rw [Config.maxBits]; omega)
  have hpre : Functional.preambleFrom m r.blen.toNat Config.maxBits r.s.toNat = Functional.preamble m r.blen.toNat := by
    rw [hstart, Functional.preamble]
  rw [hpre] at hres
  refine hrun.endsWith (bound := 2242) ?_ (by omega)
  unfold Functional.fromPreamble
  cases hfound : Functional.preamble m r.blen.toNat with
  | none =>
    rw [hfound] at hres
    rw [hres]
    exact .of_failed rfl rfl
  | some w =>
    rw [hfound] at hres
    obtain ⟨preEnd, quality⟩ := w
    obtain ⟨hregs, rfl, rfl⟩ := hres
    obtain ⟨hq8, -, hge, hle⟩ := preamble_found_bounds hb hfound
    have hblen : r'.blen = r.blen := by rw [hregs]
    rw [← hblen] at hb hle ⊢
    exact sync_ends (by rw [hregs]) (by rw [hregs]) hb (by omega) hle

end Ends

/-- A step and the micro-steps after it are a run of the core, busy between the two ends. -/
theorem runsBusyTo_of_step {st t : State} {n : Nat} {r' : Regs} (hs : step st = .next t) (hrun : MicroRuns t.cap n t.regs r')
    (hrst : t.rst = false) (hreq : t.noRequest = true) : runsBusyTo (n + 1) st (t.withRegs r') := by
  have hfirst : ∀ j, Host.Core.run Sys2Proof.core (j + 1) st = Host.Core.run Sys2Proof.core j t := by
    intro j
    have hs' : Sys2Proof.core.step st = .next t := hs
    simp only [Host.Core.run, hs']
  obtain ⟨hend, hbusy⟩ := hrun.lift hrst hreq
  refine ⟨(hfirst n).trans hend, fun j hpos hj => ?_⟩
  obtain ⟨i, rfl⟩ := Nat.exists_eq_add_of_lt hpos
  rw [Nat.zero_add, hfirst]
  exact hbusy i (by omega)

/-- From the registers of a start step on the call ends with its outcome (rules R205, R209). -/
theorem startCall_ends (n : BitVec 8) (m : List Host.Cell) :
    EndsWith m 12431 (Regs.startCall n) (Functional.decode Config.kNeg1 n.toNat m) := by
  rw [decode_eq_fromPreamble]
  by_cases hn : n.toNat = 0 ∨ 128 < n.toNat
  · rw [if_pos hn, Regs.startCall_rejected (entryCheck_eq_false.mpr hn)]
    exact .of_failed rfl rfl
  · rw [if_neg hn, Regs.startCall_accepted (entryCheck_eq_true.mpr hn), ← bitLength_toNat]
    refine preamble_ends rfl rfl ?_ rfl
    rw [bitLength_toNat]
    omega

end Sys2Proof.Machine
end

section
namespace Sys2Proof

open Machine

/-- Settles O28: the start step, then the stages' runs one after the other, of at most 10189, 994, 1237, 10 and 1 steps. -/
theorem callComputesDecodeFunction : Obligations.CallComputesDecodeFunction := by
  unfold Obligations.CallComputesDecodeFunction
  intro st h
  have hs := step_of_startsCall h
  simp only [State.startsCall, Bool.and_eq_true, Bool.not_eq_true'] at h
  obtain ⟨⟨hrst, hreq⟩, -⟩ := h
  obtain ⟨n, r', hn, hrun, hdone, ho⟩ := startCall_ends st.readBytes st.cap
  have hcall := runsBusyTo_of_step hs hrun hrst hreq
  exact ⟨n + 1, st.withRegs r', by omega, by omega, hcall, hdone, rfl, ho⟩

end Sys2Proof
end

section
namespace Sys2Proof.Machine

/-- Asserting reset, whatever the state: the reset input and the registers change, and nothing else (rule R260). -/
theorem hostMove_setReset_true (st : State) :
    hostMove (.setReset true) st = .next { st.applyReset with rst := true } := rfl

end Sys2Proof.Machine
end

section
namespace Sys2Proof

open Machine

/-- Settles O51: the move asks for no condition on the state, and while reset is asserted the step selects nothing else. -/
theorem resetAtAnyTime : Obligations.ResetAtAnyTime := by
  unfold Obligations.ResetAtAnyTime
  intro st
  exact ⟨hostMove_setReset_true st, fun hrst => step_of_rst hrst⟩

end Sys2Proof
end
